-- ==== Sys2Proof/Word.lean ====
section
/-! DEFINITION. The two word types of the block: the byte of every memory and the 32-bit host word. -/

namespace Sys2Proof

/-- A byte: 8 bits, bit 0 the least significant (00_scope.md R8). -/
abbrev Byte := BitVec 8

/-- A host register, a command word or a resource-space address: 32 bits (10_state.md section 4, 30_encoding.md R80,
00_scope.md R6 `RES_AW`). -/
abbrev Word := BitVec 32

end Sys2Proof
end

