-- ==== Sys2Proof/Config.lean ====
section
/-! DEFINITION. The parameters of the block (00_scope.md R6, R7): the ones the spec decides are constants here, the
ones it leaves OPEN are the fields of `Params`, which State holds as plain data; and the free values. -/

namespace Sys2Proof

namespace Config

/-- `W`, screen width in pixels (00_scope.md R6; DESIGN CHOICE, log 3). -/
abbrev W : Nat := 84

/-- `H`, screen height in pixels (00_scope.md R6; DESIGN CHOICE, log 3). -/
abbrev H : Nat := 48

/-- `FBSIZE`, framebuffer bytes (00_scope.md R6); `constraintsHold` says it is `W * H / 8`. -/
abbrev fbSize : Nat := 504

/-- `NGROUPS`, the 8-row bands (00_scope.md R6). -/
abbrev nGroups : Nat := 6

/-- `COLS`, cursor columns (00_scope.md R6). -/
abbrev cols : Nat := 12

/-- `ROWS`, cursor rows (00_scope.md R6). -/
abbrev rows : Nat := 6

/-- `CELL_W`, pixel columns of a character cell (00_scope.md R6). -/
abbrev cellW : Nat := 7

/-- `GLYPH_COLS`, bytes of a glyph (00_scope.md R6). -/
abbrev glyphCols : Nat := 5

/-- `GLYPH_N`, entries of the glyph table (00_scope.md R6; DESIGN CHOICE, log 3). -/
abbrev glyphN : Nat := 95

/-- `THR_MAX`, the largest effective threshold (00_scope.md R6). -/
abbrev thrMax : Nat := 14

/-- What a byte of `RES` that no one has placed reads as (20_memory.md R54 says a read always returns a value and
gives none; DESIGN CHOICE, log 5). -/
def resUnlisted : Byte := 0x00

/-- Byte `i` of `FB` after the `k`-th reset: a constant the model must not know (10_state.md R38, 93 U8; log 4). -/
opaque fbFree (k i : Nat) : Byte

/-- What the 15 bits of `CNT` hold while `n` characters are still to process and `n` does not fit in them, as `PUTS` and
`PUTSI` can ask: a constant the model must not know (10_state.md R34; log 8). -/
opaque cntBeyond (n : Nat) : BitVec 15

/-- The constraints of 00_scope.md R7 among the constants. -/
def constraintsHold : Bool :=
  H % 8 == 0 && fbSize == W * H / 8 && nGroups == H / 8 && cols * cellW ≤ W && rows ≤ H / 8 && W ≤ 256 && H ≤ 256 &&
    1 ≤ glyphN && glyphN ≤ 224

end Config

/-- The OPEN parameters of 00_scope.md R6, fixed for a run (10_state.md R37; log 2). -/
structure Params where
  /-- `GLYPH`: entry `k`, column byte `i`. -/
  glyph : Vector (Vector Byte 5) 95
  /-- `INIT_SCRIPT`: the command bytes `INIT` sends, in order. -/
  initScript : List Byte
  /-- `SETX_BASE`: constant bits of the set-column command byte. -/
  setxBase : Byte
  /-- `SETY_BASE`: constant bits of the set-row command byte. -/
  setyBase : Byte
  /-- `TX_TIMEOUT`: `none`, or the bound of a transport wait in polls. -/
  txTimeout : Option Nat
  /-- `RESET_ACTIVE`: the electrical level of an asserted `LCDRST`. -/
  resetActive : Bool
  /-- `RESET_MIN`: least duration of the reset pulse, without a unit (log 18). -/
  resetMin : Nat
deriving DecidableEq, Repr, Inhabited

/-- The constraints of 00_scope.md R6 and R7 on the open parameters: a non-empty script, a positive timeout, and bases
with no bit in common with an address they are combined with. -/
def Params.wf (p : Params) : Bool :=
  !p.initScript.isEmpty && p.txTimeout != some 0 &&
    (List.range Config.cols).all (fun col => p.setxBase &&& BitVec.ofNat 8 (col * Config.cellW) == 0) &&
    (List.range Config.rows).all (fun row => p.setyBase &&& BitVec.ofNat 8 row == 0)

/-- The parameters as open data: no proof can see them (00_scope.md R6; log 2). -/
opaque Config.rawParameters : Params

/-- The first byte of `INIT_SCRIPT`, open as well: the script is not empty (00_scope.md R6; log 2). -/
opaque Config.scriptHead : Byte

/-- The parameters that meet 00_scope.md R6 and R7, made from any: a script with a first byte, a timeout that is not
zero, bases without the bits of a column address (bits 6 to 0) or of a row address (bits 2 to 0). Every choice that
`Params.wf` accepts is of this form. -/
def Params.constrained (head : Byte) (p : Params) : Params :=
  { p with
    initScript := head :: p.initScript
    txTimeout := p.txTimeout.map (· + 1)
    setxBase := p.setxBase &&& 0x80
    setyBase := p.setyBase &&& 0xF8 }

/-- The parameters of this block: open but for the constraints of 00_scope.md R6 and R7 (log 2). -/
def Config.parameters : Params := Config.rawParameters.constrained Config.scriptHead

end Sys2Proof
end

