-- ==== Sys2Proof/Machine/State.lean ====
section
/-! DEFINITION. The state of the block (10_state.md R20), the environment its commands are a function of (R37) and the
observations the model keeps (00_scope.md R10), as plain data; one named update per field; the state after reset. -/

namespace Sys2Proof.Machine

/-- The logical cursor `CUR` (10_state.md R20, R25). -/
structure Cursor where
  col : BitVec 4
  row : BitVec 3
deriving DecidableEq, Repr

/-- The four sticky bits of `FAULT` (10_state.md R29). -/
structure FaultBits where
  badcmd : Bool
  oor : Bool
  badchar : Bool
  timeout : Bool
deriving DecidableEq, Repr

/-- The level of the select line `DC`: 0 is command, 1 is data (10_state.md R35). -/
inductive Select where
  | command
  | data
deriving DecidableEq, Repr

/-- The level of a reset line: the device's `LCDRST` (10_state.md R35), the block's own input (70_reset_and_hazards.md
R200). -/
inductive ResetLine where
  | released
  | asserted
deriving DecidableEq, Repr

/-- One event of the trace (00_scope.md R10): `C(b)`, `D(b)`, `RSTP`. -/
inductive Event where
  | C (b : Byte)
  | D (b : Byte)
  | RSTP
deriving DecidableEq, Repr

/-- One step of a sending command that is still to do. A list of them is the rest of the running command: the
sequencer's control state, which 10_state.md R34 leaves to the implementation (log 10). -/
inductive Act where
  /-- `Emit(CMD, b)` (40_transport.md R113). -/
  | cmd (b : Byte)
  /-- The second wait of a command write whose byte is already pushed (40_transport.md R113). -/
  | drain
  /-- `Emit(DATA, b)` (40_transport.md R114). -/
  | dat (b : Byte)
  /-- `Emit(DATA, MemRead(FB, i, 1))` (44_session.md R171). -/
  | fbByte (i : Nat)
  /-- `Emit(DATA, MemRead(RES, a, 1))` (44_session.md R172). -/
  | resByte (a : Word)
  /-- `PutChar(c)`, or `PutCharInv(c)` when `inverted` (43_text.md R151, R152). -/
  | put (inverted : Bool) (c : Nat)
  /-- `c <- MemRead(RES, a, 1)`, then `PutChar(c)` or `PutCharInv(c)` (43_text.md R153, R154). -/
  | putRes (inverted : Bool) (a : Word)
  /-- The columns of a character cell that are still to send. -/
  | cell (columns : List Byte)
  /-- `Wait(busy = 0)`, then `EmitResetPulse()` (44_session.md R170). -/
  | pulse
deriving DecidableEq, Repr

/-- The sequencer working registers (10_state.md R34) and the rest of the running command. -/
structure Seq where
  /-- `BW`: bitmap width. -/
  bw : BitVec 8
  /-- `BH`: bitmap height. -/
  bh : BitVec 8
  /-- `THRC`: `min(threshold, 14)`. -/
  thrc : BitVec 4
  /-- `RJ`: offset of the next pixel byte from `ARGL`. -/
  rj : BitVec 16
  /-- `GI`: the band index of the current row. -/
  gi : BitVec 3
  /-- `MASK`: the sub-byte mask of the current row. -/
  mask : BitVec 8
  /-- `SI`: a byte index into `FB`. -/
  si : BitVec 10
  /-- `CNT`: bytes or characters still to process (log 8, log 27). -/
  cnt : BitVec 15
  /-- `COLI`: which of the 7 columns of a cell is being sent. -/
  coli : BitVec 3
  /-- `DIG`: the five decimal digits, `dig[i]` the digit of `10^i`. -/
  dig : Vector (BitVec 4) 5
  /-- `TOC`: polls spent in the current transport wait (60_exceptions.md R190). -/
  toc : Nat
  /-- What the running command has still to do; empty between commands (log 10). -/
  work : List Act
deriving DecidableEq, Repr

/-- The working registers between commands, where they are dead (10_state.md R34; DESIGN CHOICE, log 7). -/
def Seq.dead : Seq where
  bw := 0
  bh := 0
  thrc := 0
  rj := 0
  gi := 0
  mask := 0
  si := 0
  cnt := 0
  coli := 0
  dig := Vector.replicate 5 0
  toc := 0
  work := []

/-- The two readiness signals of the peripheral at one poll (40_transport.md R110). -/
structure Level where
  txNotFull : Bool
  busy : Bool
deriving DecidableEq, Repr

/-- How the peripheral answers the polls to come: `polls` in order, then `steady` for ever (10_state.md R37; log 9). -/
structure Peripheral where
  polls : List Level
  steady : Level
deriving DecidableEq, Repr

/-- One thing the host or the platform does (log 1). `width` is in bytes, `off` counts from the block's base. -/
inductive Input where
  /-- A host write of `v` (20_memory.md R58). -/
  | write (off width : Nat) (v : Word)
  /-- A host read (20_memory.md R58). -/
  | read (off width : Nat)
  /-- The platform asserts the block's reset input (70_reset_and_hazards.md R200). -/
  | assertReset
  /-- The platform releases the block's reset input (70_reset_and_hazards.md R200). -/
  | releaseReset
  /-- The platform places a byte in `RES` (20_memory.md R53), also while a command runs (R55; log 14). -/
  | fillRes (a : Word) (b : Byte)
  /-- Nothing: the block goes on by itself. -/
  | pause
deriving DecidableEq, Repr

/-- A byte-addressed memory as the list of the bytes that differ from `Config.resUnlisted`, addresses rising. -/
abbrev Memory := List Host.Cell

/-- The block, its environment and the model's observations. -/
@[ext]
structure State where
  /-- `FB`, the framebuffer: 504 bytes (10_state.md R21; log 4). -/
  fb : Vector Byte 504
  /-- `CUR` (10_state.md R25). -/
  cur : Cursor
  /-- `ARG` (10_state.md R27). -/
  arg : Word
  /-- `Q` (10_state.md R28). -/
  q : Bool
  /-- `BUSY` (10_state.md R28). -/
  busy : Bool
  /-- `FAULT` (10_state.md R29). -/
  fault : FaultBits
  /-- `DC` (10_state.md R35). -/
  dc : Select
  /-- `LCDRST` (10_state.md R35). -/
  lcdrst : ResetLine
  /-- The level of the block's reset input (70_reset_and_hazards.md R200). -/
  rst : ResetLine
  /-- `OPW`, the latched command word (10_state.md R33). -/
  opw : Word
  /-- `ARGL`, the latched address (10_state.md R33). -/
  argl : Word
  /-- The sequencer working registers (10_state.md R34). -/
  seq : Seq
  /-- Environment: the open parameters, fixed for a run (10_state.md R37; log 2). -/
  params : Params
  /-- Environment: the resource space `RES` (20_memory.md R53; log 5). -/
  res : Memory
  /-- Environment: the peripheral's answers to the polls to come (10_state.md R37; log 9). -/
  peri : Peripheral
  /-- Environment: what the host and the platform do next, in order (log 1). -/
  inputs : List Input
  /-- Observation: the trace, oldest event first (00_scope.md R10). -/
  trace : List Event
  /-- Observation: the words the host's reads returned, oldest first (log 17). -/
  reads : List Word
  /-- Observation: no byte pushed since reset can still be in flight, as far as the waits have seen (40_transport.md
  R116; log 17). -/
  quiet : Bool
  /-- Observation: every change of `DC` since reset happened while `quiet` (40_transport.md R116; log 17). -/
  dcSafe : Bool
  /-- The model's own counter of resets, which picks the free constants of `FB` (log 4). -/
  resets : Nat
deriving DecidableEq, Repr

/-- Reasons the machine stops with a fault. The block itself never stops: its own faults are sticky bits
(60_exceptions.md R181, R192; log 12). -/
inductive Fault where
  /-- Raised by a host access at an offset outside the block's 32-byte window, where the block has no register
  (20_memory.md R58; log 15). Safe: nothing can be claimed after it. -/
  | outsideWindow
deriving DecidableEq, Repr

/-- Reasons the model refuses to go on. -/
inductive Refusal where
  /-- Raised by `exec` for a command without a meaning; no arm of this model does. Safe. -/
  | notModelled (mnemonic : String)
  /-- Raised by a host access that is narrower or wider than 32 bits or not at a multiple of 4, which 20_memory.md R59
  puts outside the definition and asks a model to refuse (log 15). Safe. -/
  | narrowOrMisaligned
deriving DecidableEq, Repr

namespace State

/-- Set `FB`. -/
def setFb (s : State) (v : Vector Byte 504) : State := { s with fb := v }

/-- Set `CUR`. -/
def setCur (s : State) (v : Cursor) : State := { s with cur := v }

/-- Set `ARG`. -/
def setArg (s : State) (v : Word) : State := { s with arg := v }

/-- Set `Q`. -/
def setQ (s : State) (v : Bool) : State := { s with q := v }

/-- Set `BUSY`. -/
def setBusy (s : State) (v : Bool) : State := { s with busy := v }

/-- Set the `FAULT` bits. -/
def setFault (s : State) (v : FaultBits) : State := { s with fault := v }

/-- Set `DC`. -/
def setDc (s : State) (v : Select) : State := { s with dc := v }

/-- Set `LCDRST`. -/
def setLcdrst (s : State) (v : ResetLine) : State := { s with lcdrst := v }

/-- Set the level of the block's reset input. -/
def setRst (s : State) (v : ResetLine) : State := { s with rst := v }

/-- Set the operand latch `OPW`. -/
def setOpw (s : State) (v : Word) : State := { s with opw := v }

/-- Set the operand latch `ARGL`. -/
def setArgl (s : State) (v : Word) : State := { s with argl := v }

/-- Set the working registers. -/
def setSeq (s : State) (v : Seq) : State := { s with seq := v }

/-- Set the contents of `RES`. -/
def setRes (s : State) (v : Memory) : State := { s with res := v }

/-- Set the peripheral's answers to come. -/
def setPeri (s : State) (v : Peripheral) : State := { s with peri := v }

/-- Set the inputs to come. -/
def setInputs (s : State) (v : List Input) : State := { s with inputs := v }

/-- Set the trace. -/
def setTrace (s : State) (v : List Event) : State := { s with trace := v }

/-- Set the words read. -/
def setReads (s : State) (v : List Word) : State := { s with reads := v }

/-- Set the observation `quiet`. -/
def setQuiet (s : State) (v : Bool) : State := { s with quiet := v }

/-- Set the observation `dcSafe`. -/
def setDcSafe (s : State) (v : Bool) : State := { s with dcSafe := v }

/-- Set the counter of resets. -/
def setResets (s : State) (v : Nat) : State := { s with resets := v }

end State

/-- `FB` after the `k`-th reset: each byte a constant the model must not know (10_state.md R38; log 4). -/
def freeFb (k : Nat) : Vector Byte 504 := Vector.ofFn fun i => Config.fbFree k i.val

/-- The block right after reset (10_state.md R38), with nothing placed in `RES`, an always ready peripheral and no
input waiting (log 1, log 5, log 6, log 7, log 9). -/
def State.reset : State where
  fb := freeFb 0
  cur := ⟨0, 0⟩
  arg := 0
  q := false
  busy := false
  fault := ⟨false, false, false, false⟩
  dc := .command
  lcdrst := .released
  rst := .released
  opw := 0
  argl := 0
  seq := Seq.dead
  params := Config.parameters
  res := []
  peri := ⟨[], ⟨true, false⟩⟩
  inputs := []
  trace := []
  reads := []
  quiet := true
  dcSafe := true
  resets := 0

end Sys2Proof.Machine
end

