-- ==== Sys2Proof/Machine/Flags.lean ====
section
/-! DEFINITION. The flags: the sticky `FAULT` bits (10_state.md R29, 60_exceptions.md R181) and the words the host
reads in `STATUS`, `FAULT` and `CURSOR` (10_state.md R28, R29, R31). -/

namespace Sys2Proof.Machine

/-- The four recorded conditions (60_exceptions.md R182). -/
inductive FaultCode where
  | badcmd
  | oor
  | badchar
  | timeout
deriving DecidableEq, Repr

/-- Set one sticky bit, keep the others (60_exceptions.md R181). -/
def FaultBits.raise (f : FaultBits) : FaultCode → FaultBits
  | .badcmd => { f with badcmd := true }
  | .oor => { f with oor := true }
  | .badchar => { f with badchar := true }
  | .timeout => { f with timeout := true }

/-- The bits set in either: what accumulates (60_exceptions.md R188 item 4). -/
def FaultBits.or (f g : FaultBits) : FaultBits :=
  ⟨f.badcmd || g.badcmd, f.oor || g.oor, f.badchar || g.badchar, f.timeout || g.timeout⟩

/-- No bit set. -/
def FaultBits.none : FaultBits := ⟨false, false, false, false⟩

/-- `STATUS`: bit 0 `BUSY`, bit 1 `Q`, the rest 0 (10_state.md R28). -/
def statusWord (s : State) : Word := 0#30 ++ BitVec.ofBool s.q ++ BitVec.ofBool s.busy

/-- `FAULT`: bits 0 to 3 `BADCMD`, `OOR`, `BADCHAR`, `TIMEOUT`, the rest 0 (10_state.md R29). -/
def faultWord (s : State) : Word :=
  0#28 ++ BitVec.ofBool s.fault.timeout ++ BitVec.ofBool s.fault.badchar ++ BitVec.ofBool s.fault.oor ++
    BitVec.ofBool s.fault.badcmd

/-- `CURSOR`: bits 7:0 the column, bits 15:8 the row, the rest 0 (10_state.md R31). -/
def cursorWord (s : State) : Word := 0#16 ++ s.cur.row.setWidth 8 ++ s.cur.col.setWidth 8

/-- The electrical level of `LCDRST` (10_state.md R35, `RESET_ACTIVE` of 00_scope.md R6). -/
def lcdrstLevel (s : State) : Bool :=
  match s.lcdrst with
  | .asserted => s.params.resetActive
  | .released => !s.params.resetActive

/-- The electrical level of `DC`: 0 command, 1 data (40_transport.md R110). -/
def dcLevel (s : State) : Bool :=
  match s.dc with
  | .command => false
  | .data => true

end Sys2Proof.Machine
end

