-- ==== Sys2Proof/Machine/Memory.lean ====
section
/-! DEFINITION. The canonical byte memory that holds `RES` (20_memory.md R53, R54). -/

namespace Sys2Proof.Machine

/-- The byte at address `a`. A read always returns a value (20_memory.md R54). -/
def Memory.read : Memory → Nat → Byte
  | [], _ => Config.resUnlisted
  | (k, b) :: m, a => if k = a then b else Memory.read m a

/-- The memory with byte `v` at address `a`. Writing what an unlisted address reads as removes the entry. -/
def Memory.write : Memory → Nat → Byte → Memory
  | [], a, v => if v = Config.resUnlisted then [] else [(a, v)]
  | (k, b) :: m, a, v =>
    if k < a then (k, b) :: Memory.write m a v
    else if k = a then (if v = Config.resUnlisted then m else (a, v) :: m)
    else (if v = Config.resUnlisted then (k, b) :: m else (a, v) :: (k, b) :: m)

/-- The canonical form: addresses strictly rising and below `2^32`, no entry equal to what an unlisted address reads
as. -/
abbrev Memory.wf (m : Memory) : Prop :=
  m.Pairwise (fun c d => c.1 < d.1) ∧ ∀ c ∈ m, c.2 ≠ Config.resUnlisted ∧ c.1 < 2 ^ 32

end Sys2Proof.Machine
end

