-- ==== Sys2Proof/Machine/Operands.lean ====
section
/-! DEFINITION. Operand forms: byte indices and bit positions in `FB` (10_state.md R22), resource addresses
(20_memory.md R54), nibbles and thresholds (42_blit.md R130, R135, R136), character cells (43_text.md R150, R156) and
decimal digits (43_text.md R159). -/

namespace Sys2Proof.Machine

/-- `(x, y)` lies on the screen (10_state.md R24). -/
def inRange (x y : Nat) : Bool := x < Config.W && y < Config.H

/-- The byte index of the pixel in column `x`, row `y` (10_state.md R22). -/
def fbIndex (x y : Nat) : Nat := Config.W * (y / 8) + x

/-- `1 << (y mod 8)`: the pixel's bit in its byte (20_memory.md R51). -/
def pixelMask (y : Nat) : Byte := 1#8 <<< (y % 8)

/-- `base + off` modulo `2^32` (20_memory.md R54). -/
def resAddr (base : Word) (off : Nat) : Word := base + BitVec.ofNat 32 off

/-- `rev8(b)`: bit `i` is bit `7-i` of `b` (00_scope.md R8). -/
def rev8 (b : Byte) : Byte := b.reverse

/-- The high nibble: the left pixel of the two (42_blit.md R131). -/
def highNibble (b : Byte) : Nat := (b.extractLsb' 4 4).toNat

/-- The low nibble: the right pixel of the two (42_blit.md R131). -/
def lowNibble (b : Byte) : Nat := (b.extractLsb' 0 4).toNat

/-- `rowbytes = width / 2` (42_blit.md R130). -/
def rowBytes (width : Nat) : Nat := width / 2

/-- `pad = (4 - rowbytes mod 4) mod 4` (42_blit.md R135). -/
def rowPad (width : Nat) : Nat := (4 - rowBytes width % 4) % 4

/-- `stride = rowbytes + pad` (42_blit.md R130). -/
def rowStride (width : Nat) : Nat := rowBytes width + rowPad width

/-- `thr = min(threshold, 14)` (42_blit.md R136). -/
def effThreshold (t : Nat) : Nat := min t Config.thrMax

/-- The acceptance test of `BLIT`, over the natural numbers (42_blit.md R132). -/
def blitAccept (x y width height : Nat) : Bool :=
  0 < height && width % 2 == 0 && x + width ≤ Config.W && height - 1 ≤ y && y ≤ Config.H

/-- A character code of the glyph table (43_text.md R150). -/
def validChar (c : Nat) : Bool := 0x20 ≤ c && c < 0x20 + Config.glyphN

/-- `GLYPH(k, i)` (20_memory.md R56); read only for `k` below 95 and `i` below 5. -/
def glyphByte (p : Params) (k i : Nat) : Byte := (p.glyph[k]?.getD (Vector.replicate 5 0))[i]?.getD 0

/-- `Cell(c)`: a blank column, the five of the glyph, a blank column (43_text.md R150). -/
def cell (p : Params) (c : Nat) : List Byte :=
  [0x00, glyphByte p (c - 0x20) 0, glyphByte p (c - 0x20) 1, glyphByte p (c - 0x20) 2, glyphByte p (c - 0x20) 3,
   glyphByte p (c - 0x20) 4, 0x00]

/-- `CellInv(c)` (43_text.md R156). -/
def cellInv (p : Params) (c : Nat) : List Byte :=
  [0x00, rev8 (glyphByte p (c - 0x20) 4), rev8 (glyphByte p (c - 0x20) 3), rev8 (glyphByte p (c - 0x20) 2),
   rev8 (glyphByte p (c - 0x20) 1), rev8 (glyphByte p (c - 0x20) 0), 0x00]

/-- The cell that `PutChar` or `PutCharInv` sends (43_text.md R151, R152). -/
def cellFor (inverted : Bool) (p : Params) (c : Nat) : List Byte :=
  match inverted with
  | false => cell p c
  | true => cellInv p c

/-- `CNT` with `n` bytes or characters still to process: `n` where 15 bits hold it, else a free value (10_state.md R34;
log 8). -/
def cntOf (n : Nat) : BitVec 15 := if n < 2 ^ 15 then BitVec.ofNat 15 n else Config.cntBeyond n

/-- `d_i = floor(n / 10^i) mod 10` (43_text.md R159). -/
def digit (n i : Nat) : Nat := n / 10 ^ i % 10

/-- The five digits of `n` as the register `DIG` holds them (43_text.md R159, 10_state.md R34). -/
def digitsOf (n : Nat) : Vector (BitVec 4) 5 :=
  #v[BitVec.ofNat 4 (digit n 0), BitVec.ofNat 4 (digit n 1), BitVec.ofNat 4 (digit n 2), BitVec.ofNat 4 (digit n 3),
     BitVec.ofNat 4 (digit n 4)]

/-- `k`, the number of significant digits of `n` (43_text.md R159). -/
def sigDigits (n : Nat) : Nat :=
  if n < 10 then 1 else if n < 100 then 2 else if n < 1000 then 3 else if n < 10000 then 4 else 5

/-- The characters of the `k` significant digits, most significant first (43_text.md R157, R158). -/
def digitChars (dig : Vector (BitVec 4) 5) (k : Nat) : List Nat :=
  (List.range k).reverse.map fun i => 0x30 + (dig[i]?.getD 0).toNat

/-- `5 - k` blanks, then the significant digits (43_text.md R157). -/
def fieldChars (dig : Vector (BitVec 4) 5) (k : Nat) : List Nat := List.replicate (5 - k) 0x20 ++ digitChars dig k

/-- The column command byte `SETX_BASE | (col * 7)` (43_text.md R155). -/
def setColumnByte (p : Params) (col : Nat) : Byte := p.setxBase ||| BitVec.ofNat 8 (col * Config.cellW)

/-- The row command byte `SETY_BASE | row` (43_text.md R155). -/
def setRowByte (p : Params) (row : Nat) : Byte := p.setyBase ||| BitVec.ofNat 8 row

end Sys2Proof.Machine
end

