-- ==== Sys2Proof/Machine/Ops.lean ====
section
/-! DEFINITION. The shared operations over memory and registers (00_scope.md R9): reads and writes of `FB` and `RES`,
the guarded pixel write, recording a fault, accepting and ending a command, the block's reset. -/

namespace Sys2Proof.Machine

/-- `MemRead(FB, i, 1)` (20_memory.md R50, R51). No rule presents an index of 504 or more; the total function answers 0
there. -/
def fbRead (s : State) (i : Nat) : Byte := s.fb[i]?.getD 0

/-- `MemWrite(FB, i, 1, v)` (20_memory.md R50, R51). -/
def fbWrite (i : Nat) (v : Byte) (s : State) : State := s.setFb (s.fb.setIfInBounds i v)

/-- `pix(S, x, y)`: true is "on" (10_state.md R23). -/
def pix (s : State) (x y : Nat) : Bool := (fbRead s (fbIndex x y)).getLsbD (y % 8)

/-- `MemRead(RES, a, 1)` (20_memory.md R54). -/
def resRead (s : State) (a : Word) : Byte := Memory.read s.res a.toNat

/-- `raise F`: set the sticky bit, record nothing else (60_exceptions.md R181). There is no trap entry and no return
(R192), so this is the whole of what a fault does to the state. -/
def raiseFault (f : FaultCode) (s : State) : State := s.setFault (s.fault.raise f)

/-- `PixelWrite(x, y, v)` (41_framebuffer.md R120). -/
def pixelWrite (x y : Nat) (v : Bool) (s : State) : State :=
  if inRange x y then
    fbWrite (fbIndex x y)
      (match v with
        | true => fbRead s (fbIndex x y) ||| pixelMask y
        | false => fbRead s (fbIndex x y) &&& ~~~pixelMask y) s
  else raiseFault .oor s

/-- The end of a command: `BUSY <- 0`, and the working registers are dead (10_state.md R32, R34; log 7). -/
def finish (s : State) : State := (s.setSeq Seq.dead).setBusy false

/-- The acceptance of the word `w`: `OPW <- w`, `ARGL <- ARG`, `BUSY <- 1` (10_state.md R32). -/
def accept (w : Word) (s : State) : State := ((s.setOpw w).setArgl s.arg).setBusy true

/-- An accepted reserved word: `raise BADCMD`, and the block is idle again (30_encoding.md R88; log 13). -/
def endReserved (s : State) : State := finish (raiseFault .badcmd s)

/-- The block's reset input is asserted (10_state.md R38, 70_reset_and_hazards.md R200, R201): the reset values, held
until it is released; the environment is untouched, `FB` is unspecified again (log 4, log 16). -/
def resetBlock (s : State) : State where
  fb := freeFb (s.resets + 1)
  cur := ⟨0, 0⟩
  arg := 0
  q := false
  busy := false
  fault := FaultBits.none
  dc := .command
  lcdrst := .released
  rst := .asserted
  opw := 0
  argl := 0
  seq := Seq.dead
  params := s.params
  res := s.res
  peri := s.peri
  inputs := s.inputs
  trace := []
  reads := s.reads
  quiet := true
  dcSafe := true
  resets := s.resets + 1

end Sys2Proof.Machine
end

