-- ==== Sys2Proof/Machine/Blit.lean ====
section
/-! DEFINITION. sprite_blitter and bitmap_decoder_threshold: `BLIT` (42_blit.md R130 to R138). -/

namespace Sys2Proof.Machine

/-- The working registers at the start of an accepted blit (10_state.md R34; the first sentences of 42_blit.md R134). -/
def blitStart (x y t width height off : Nat) (q : Seq) : Seq :=
  { q with
    bw := BitVec.ofNat 8 width
    bh := BitVec.ofNat 8 height
    thrc := BitVec.ofNat 4 (effThreshold t)
    rj := BitVec.ofNat 16 off
    gi := BitVec.ofNat 3 (y / 8)
    mask := pixelMask y
    si := BitVec.ofNat 10 (x + Config.W * (y / 8))
    cnt := BitVec.ofNat 15 (rowBytes width * height) }

/-- The registers after the pixel bytes of one row: `SI` has advanced by 2 and `RJ` by 1 for each, `CNT` is down by one
for each (42_blit.md R134, 10_state.md R34). -/
def blitRowDone (q : Seq) : Seq :=
  { q with
    rj := q.rj + BitVec.ofNat 16 (rowBytes q.bw.toNat)
    si := q.si + BitVec.ofNat 10 (2 * rowBytes q.bw.toNat)
    cnt := q.cnt - BitVec.ofNat 15 (rowBytes q.bw.toNat) }

/-- The row boundary: the mask moves up one row, wrapping to the band above, and the padding is skipped (42_blit.md
R134, R135). -/
def blitRowBoundary (x : Nat) (q : Seq) : Seq :=
  let up : BitVec 3 × BitVec 8 := if 1 < q.mask.toNat then (q.gi, q.mask >>> 1) else (q.gi - 1, 0x80)
  { q with
    mask := up.2
    gi := up.1
    si := BitVec.ofNat 10 (x + Config.W * up.1.toNat)
    rj := q.rj + BitVec.ofNat 16 (rowPad q.bw.toNat) }

/-- The two pixels of one bitmap byte, left then right (42_blit.md R131), each on when its nibble exceeds `THRC`
(R136). -/
def blitByte (x y : Nat) (b : Byte) (s : State) : State :=
  pixelWrite (x + 1) y (decide (s.seq.thrc.toNat < lowNibble b))
    (pixelWrite x y (decide (s.seq.thrc.toNat < highNibble b)) s)

/-- Stored row `r`: screen row `y = y_origin - r` (42_blit.md R131, R133). -/
def blitRow (x y off r : Nat) (s : State) : State :=
  (List.range (rowBytes s.seq.bw.toNat)).foldl
    (fun t k => blitByte (x + 2 * k) (y - r) (resRead s (resAddr s.argl (off + r * rowStride s.seq.bw.toNat + k))) t) s

/-- A stored row and the row boundary after it. -/
def blitRowStep (x y off : Nat) (s : State) (r : Nat) : State :=
  let t := blitRow x y off r s
  t.setSeq (blitRowBoundary x (blitRowDone t.seq))

/-- `BLIT x, y, t` (42_blit.md R131): silent when the acceptance test fails (R132), else stored rows bottom first. -/
def execBlit (x y t : Nat) (s : State) : Host.Outcome State Fault Refusal :=
  let width := (resRead s (resAddr s.argl 18)).toNat
  let height := (resRead s (resAddr s.argl 22)).toNat
  if blitAccept x y width height then
    let off := (resRead s (resAddr s.argl 10)).toNat
    let s1 := s.setSeq (blitStart x y t width height off Seq.dead)
    .next (finish ((List.range s1.seq.bh.toNat).foldl (blitRowStep x y off) s1))
  else .next (finish s)

end Sys2Proof.Machine
end

