-- ==== Sys2Proof/Machine/Framebuffer.lean ====
section
/-! DEFINITION. The framebuffer commands: `SETPX`, `CLRPX`, `QRYPX`, `CLRALL` (41_framebuffer.md R121 to R124). -/

namespace Sys2Proof.Machine

/-- `SETPX x, y` (41_framebuffer.md R121). -/
def execSetpx (x y : Nat) (s : State) : Host.Outcome State Fault Refusal :=
  .next (finish (pixelWrite x y true s))

/-- `CLRPX x, y` (41_framebuffer.md R122). -/
def execClrpx (x y : Nat) (s : State) : Host.Outcome State Fault Refusal :=
  .next (finish (pixelWrite x y false s))

/-- `QRYPX x, y` (41_framebuffer.md R123). -/
def execQrypx (x y : Nat) (s : State) : Host.Outcome State Fault Refusal :=
  .next (finish (if inRange x y then s.setQ (pix s x y) else raiseFault .oor s))

/-- `CLRALL` (41_framebuffer.md R124). -/
def execClrall (s : State) : Host.Outcome State Fault Refusal :=
  .next (finish (((List.range Config.fbSize).foldl (fun t i => fbWrite i 0x00 t) s).setCur ⟨0, 0⟩))

end Sys2Proof.Machine
end

