-- ==== Sys2Proof/Machine/Sequencer.lean ====
section
/-! DEFINITION. The transport writer and the sequencer: one wait, one push, one step of a sending command, and the run
of a command up to its end or its first unsuccessful poll (40_transport.md R112 to R115; log 10, log 11). -/

namespace Sys2Proof.Machine

/-- The two conditions a command waits for (40_transport.md R112). -/
inductive Cond where
  /-- `busy = 0`. -/
  | quiescent
  /-- `tx_not_full = 1`. -/
  | room
deriving DecidableEq, Repr

/-- Whether the signals meet the condition (40_transport.md R112). -/
def Cond.holds (l : Level) : Cond → Bool
  | .quiescent => !l.busy
  | .room => l.txNotFull

/-- The signals at the next poll (40_transport.md R110). -/
def nextLevel (s : State) : Level := s.peri.polls.headD s.peri.steady

/-- One poll is spent. -/
def polled (s : State) : State := s.setPeri ⟨s.peri.polls.tail, s.peri.steady⟩

/-- `TOC <- n`. -/
def setToc (n : Nat) (s : State) : State := s.setSeq { s.seq with toc := n }

/-- `TX_TIMEOUT = some n and TOC >= n` (40_transport.md R112). -/
def outOfPolls (s : State) : Bool :=
  match s.params.txTimeout with
  | some n => n ≤ s.seq.toc
  | none => false

/-- What one poll of a wait leads to. -/
inductive Waited where
  /-- The condition holds: the wait is over. -/
  | met (s : State)
  /-- It does not, and the wait goes on. -/
  | again (s : State)
  /-- It does not, and `TIMEOUT` is raised. -/
  | gaveUp (s : State)

/-- One poll of `Wait(cond)` (40_transport.md R112). A wait that is over leaves `TOC` cleared for the next one; a wait
for `busy = 0` that is over has seen the peripheral quiescent. -/
def wait (c : Cond) (s : State) : Waited :=
  if c.holds (nextLevel s) then
    .met ((setToc 0 (polled s)).setQuiet (s.quiet || c == .quiescent))
  else if outOfPolls s then .gaveUp (raiseFault .timeout (polled s))
  else .again (setToc (s.seq.toc + 1) (polled s))

/-- Select the level of `DC`, then push: the last two lines of `Emit(CMD, b)` and `Emit(DATA, b)` before the drain
(40_transport.md R113, R114). -/
def push (sel : Select) (b : Byte) (s : State) : State :=
  (((s.setDcSafe (s.dcSafe && (s.dc == sel || s.quiet))).setDc sel).setTrace
    (s.trace ++ [match sel with | .command => Event.C b | .data => Event.D b])).setQuiet false

/-- `EmitResetPulse()`: assert `LCDRST`, release it, one event (44_session.md R170; log 18). -/
def resetPulse (s : State) : State :=
  ((s.setLcdrst .asserted).setTrace (s.trace ++ [Event.RSTP])).setLcdrst .released

/-- What one step of a sending command leads to. -/
inductive Progress where
  /-- The step is done. -/
  | done (s : State)
  /-- It waits; `rest` is what is left of it. -/
  | stalled (rest : List Act) (s : State)
  /-- It raised `TIMEOUT`, which ends the command (40_transport.md R115). -/
  | ended (s : State)

/-- `Wait(busy = 0)` after a push (40_transport.md R113). -/
def drain (s : State) : Progress :=
  match wait .quiescent s with
  | .met s' => .done s'
  | .again s' => .stalled [.drain] s'
  | .gaveUp s' => .ended s'

/-- `Emit(CMD, b)` (40_transport.md R113). -/
def emitCommand (b : Byte) (s : State) : Progress :=
  match wait .quiescent s with
  | .met s' => drain (push .command b s')
  | .again s' => .stalled [.cmd b] s'
  | .gaveUp s' => .ended s'

/-- `Emit(DATA, b)` (40_transport.md R114); `a` is the step itself, kept if it has to wait. -/
def emitData (a : Act) (b : Byte) (s : State) : Progress :=
  match wait .room s with
  | .met s' => .done (push .data b s')
  | .again s' => .stalled [a] s'
  | .gaveUp s' => .ended s'

/-- The columns of a cell, left to right, each by `Emit(DATA, ..)` (43_text.md R151, R152). -/
def sendColumns : List Byte → State → Progress
  | [], s => .done s
  | b :: bs, s =>
    match wait .room s with
    | .met s' => sendColumns bs (push .data b s')
    | .again s' => .stalled [.cell (b :: bs)] s'
    | .gaveUp s' => .ended s'

/-- `PutChar(c)`, or `PutCharInv(c)`: an invalid code sends nothing and raises `BADCHAR` (43_text.md R150 to R152). -/
def putChar (inverted : Bool) (c : Nat) (s : State) : Progress :=
  if validChar c then sendColumns (cellFor inverted s.params c) s
  else .done (raiseFault .badchar s)

/-- `Wait(busy = 0)`, then the reset pulse (44_session.md R170). -/
def pulseDevice (s : State) : Progress :=
  match wait .quiescent s with
  | .met s' => .done (resetPulse s')
  | .again s' => .stalled [.pulse] s'
  | .gaveUp s' => .ended s'

/-- One step of a sending command. Bytes of `FB` and `RES` are read when their turn comes (93 U11). -/
def doAct (a : Act) (s : State) : Progress :=
  match a with
  | .cmd b => emitCommand b s
  | .drain => drain s
  | .dat b => emitData (.dat b) b s
  | .fbByte i => emitData (.fbByte i) (fbRead s i) s
  | .resByte addr => emitData (.resByte addr) (resRead s addr) s
  | .put inverted c => putChar inverted c s
  | .putRes inverted addr => putChar inverted (resRead s addr).toNat s
  | .cell columns => sendColumns columns s
  | .pulse => pulseDevice s

/-- Whether a step counts in `CNT`, "bytes or characters still to process" (10_state.md R34). DESIGN CHOICE (log 27): a byte
of `FB` or `RES` counts until it is pushed, a character of a string only until its cell is begun, so that the character
whose columns wait, even the first of them, counts no more. -/
def Act.counts : Act → Bool
  | .fbByte _ => true
  | .resByte _ => true
  | .putRes _ _ => true
  | .cmd _ => false
  | .drain => false
  | .dat _ => false
  | .put _ _ => false
  | .cell _ => false
  | .pulse => false

/-- `SI` while the given step waits: the index it reads `FB` at (10_state.md R34); 0 where it reads none (DESIGN CHOICE,
log 27). -/
def siOf : List Act → BitVec 10
  | .fbByte i :: _ => BitVec.ofNat 10 i
  | _ => 0

/-- `COLI` while the given step waits: which column of the cell is being sent, from 0 on the left (10_state.md R34); 0 where
no cell is begun (DESIGN CHOICE, log 27). -/
def coliOf : List Act → BitVec 3
  | .cell columns :: _ => BitVec.ofNat 3 (Config.cellW - columns.length)
  | _ => 0

/-- The command waits with `work` left: `BUSY` stays 1 and the working registers say how far it has got (10_state.md
R30, R34; what `CNT`, `SI` and `COLI` say is log 27). -/
def suspend (work : List Act) (s : State) : State :=
  (s.setSeq { s.seq with
    si := siOf work
    cnt := cntOf (work.filter Act.counts).length
    coli := coliOf work
    work := work }).setBusy true

/-- Do the steps of a command until it ends, raises `TIMEOUT`, or meets an unsuccessful poll (log 10). -/
def runActs : List Act → State → State
  | [], s => finish s
  | a :: rest, s =>
    match doAct a s with
    | .done s' => runActs rest s'
    | .stalled left s' => suspend (left ++ rest) s'
    | .ended s' => finish s'

/-- A sending command begins: its working registers start afresh, then its steps are done. -/
def transmit (acts : List Act) (s : State) : State := runActs acts (s.setSeq Seq.dead)

/-- A decimal command begins: `DIG` takes the digits of `n`, then the characters are put (43_text.md R157, R158). -/
def transmitDecimal (chars : Vector (BitVec 4) 5 → List Nat) (n : Nat) (s : State) : State :=
  let s1 := s.setSeq { Seq.dead with dig := digitsOf n }
  runActs ((chars s1.seq.dig).map (Act.put false)) s1

/-- The block goes on with the running command; an idle block waits (10_state.md R32). -/
def resume (s : State) : State :=
  match s.busy with
  | true => runActs s.seq.work s
  | false => s

end Sys2Proof.Machine
end

