-- ==== Sys2Proof/Machine/Text.lean ====
section
/-! DEFINITION. text_rasterizer: `PUTC`, `PUTCI`, `PUTS`, `PUTSI`, `SETCUR`, `PUTUD`, `PUTD` (43_text.md R150 to
R160). -/

namespace Sys2Proof.Machine

/-- `PUTC c` (43_text.md R151). -/
def execPutc (c : Nat) (s : State) : Host.Outcome State Fault Refusal :=
  .next (transmit [.put false c] s)

/-- `PUTCI c` (43_text.md R152). -/
def execPutci (c : Nat) (s : State) : Host.Outcome State Fault Refusal :=
  .next (transmit [.put true c] s)

/-- `PUTS n`: the characters at `ARGL .. ARGL + n - 1`, in order (43_text.md R153). -/
def execPuts (n : Nat) (s : State) : Host.Outcome State Fault Refusal :=
  .next (transmit ((List.range n).map fun j => .putRes false (resAddr s.argl j)) s)

/-- `PUTSI n`: the same characters in reverse order, inverted (43_text.md R154). -/
def execPutsi (n : Nat) (s : State) : Host.Outcome State Fault Refusal :=
  .next (transmit ((List.range n).reverse.map fun j => .putRes true (resAddr s.argl j)) s)

/-- The two command writes that set the device's address, column first (43_text.md R155). -/
def setAddressActs (p : Params) (col row : Nat) : List Act :=
  [.cmd (setColumnByte p col), .cmd (setRowByte p row)]

/-- The operands of `SETCUR` that name a cell (43_text.md R155). -/
def cellInGrid (col row : Nat) : Bool := col < Config.cols && row < Config.rows

/-- `SETCUR col, row`: `CUR` is written before the first byte is sent (43_text.md R155). -/
def execSetcur (col row : Nat) (s : State) : Host.Outcome State Fault Refusal :=
  if cellInGrid col row then
    .next (transmit (setAddressActs s.params col row) (s.setCur ⟨BitVec.ofNat 4 col, BitVec.ofNat 3 row⟩))
  else .next (finish s)

/-- `PUTUD n`: five cells, blanks on the left (43_text.md R157). -/
def execPutud (n : Nat) (s : State) : Host.Outcome State Fault Refusal :=
  .next (transmitDecimal (fun dig => fieldChars dig (sigDigits n)) n s)

/-- `PUTD n`: the significant digits only (43_text.md R158). -/
def execPutd (n : Nat) (s : State) : Host.Outcome State Fault Refusal :=
  .next (transmitDecimal (fun dig => digitChars dig (sigDigits n)) n s)

end Sys2Proof.Machine
end

