-- ==== Sys2Proof/Machine/Session.lean ====
section
/-! DEFINITION. The display controller session: `INIT`, `FLUSH`, `FULLIMG` (44_session.md R170 to R172). -/

namespace Sys2Proof.Machine

/-- `INIT`: the reset pulse, then the script (44_session.md R170). -/
def execInit (s : State) : Host.Outcome State Fault Refusal :=
  .next (transmit (.pulse :: s.params.initScript.map Act.cmd) s)

/-- `FLUSH`: the cursor and the device's address to (0,0), then the bytes of `FB` in ascending index (44_session.md
R171). -/
def execFlush (s : State) : Host.Outcome State Fault Refusal :=
  .next (transmit (setAddressActs s.params 0 0 ++ (List.range Config.fbSize).map Act.fbByte) (s.setCur ⟨0, 0⟩))

/-- `FULLIMG`: as `FLUSH`, the bytes from `RES` at `ARGL` (44_session.md R172). -/
def execFullimg (s : State) : Host.Outcome State Fault Refusal :=
  .next (transmit
    (setAddressActs s.params 0 0 ++ (List.range Config.fbSize).map fun i => .resByte (resAddr s.argl i))
    (s.setCur ⟨0, 0⟩))

end Sys2Proof.Machine
end

