-- ==== Sys2Proof/Machine/Transport.lean ====
section
/-! DEFINITION. lcd_transport_writer: `WRCMD`, `WRDAT` (40_transport.md R113, R114). -/

namespace Sys2Proof.Machine

/-- `WRCMD b` (40_transport.md R113). -/
def execWrcmd (b : Nat) (s : State) : Host.Outcome State Fault Refusal :=
  .next (transmit [.cmd (BitVec.ofNat 8 b)] s)

/-- `WRDAT b` (40_transport.md R114). -/
def execWrdat (b : Nat) (s : State) : Host.Outcome State Fault Refusal :=
  .next (transmit [.dat (BitVec.ofNat 8 b)] s)

end Sys2Proof.Machine
end

