-- ==== Sys2Proof/Syntax.lean ====
section
/-! DEFINITION. The 17 commands of FBC-1 (30_encoding.md R86), one constructor per row of spec/opcode_table.json. An
operand is the unsigned value of its field, used as a natural number (R83; log 20). -/

namespace Sys2Proof

/-- A command with its operands, in the order of 30_encoding.md R86. -/
inductive Instr where
  /-- `WRCMD b`: one command byte (40_transport.md R113). -/
  | wrcmd (b : Nat)
  /-- `WRDAT b`: one data byte (40_transport.md R114). -/
  | wrdat (b : Nat)
  /-- `SETPX x, y` (41_framebuffer.md R121). -/
  | setpx (x y : Nat)
  /-- `CLRPX x, y` (41_framebuffer.md R122). -/
  | clrpx (x y : Nat)
  /-- `QRYPX x, y` (41_framebuffer.md R123). -/
  | qrypx (x y : Nat)
  /-- `CLRALL` (41_framebuffer.md R124). -/
  | clrall
  /-- `BLIT x, y, t`: origin and threshold (42_blit.md R131). -/
  | blit (x y t : Nat)
  /-- `PUTC c` (43_text.md R151). -/
  | putc (c : Nat)
  /-- `PUTS n`: the string's length (43_text.md R153). -/
  | puts (n : Nat)
  /-- `PUTUD n` (43_text.md R157). -/
  | putud (n : Nat)
  /-- `PUTD n` (43_text.md R158). -/
  | putd (n : Nat)
  /-- `SETCUR col, row` (43_text.md R155). -/
  | setcur (col row : Nat)
  /-- `PUTCI c` (43_text.md R152). -/
  | putci (c : Nat)
  /-- `PUTSI n`: the string's length (43_text.md R154). -/
  | putsi (n : Nat)
  /-- `INIT` (44_session.md R170). -/
  | init
  /-- `FLUSH` (44_session.md R171). -/
  | flush
  /-- `FULLIMG` (44_session.md R172). -/
  | fullimg
deriving DecidableEq, Repr

/-- The five formats of a command word (30_encoding.md R82). -/
inductive Format where
  | N | B | XY | H | XYT
deriving DecidableEq, Repr

end Sys2Proof
end

