-- ==== Sys2Proof/Machine/Dispatch.lean ====
section
/-! DEFINITION. One arm per command of 30_encoding.md R86: what an accepted command does. -/

namespace Sys2Proof.Machine

def exec (i : Instr) (s : State) : Host.Outcome State Fault Refusal :=
  match i with
  | .wrcmd b => Sys2Proof.Machine.execWrcmd b s
  | .wrdat b => Sys2Proof.Machine.execWrdat b s
  | .setpx x y => Sys2Proof.Machine.execSetpx x y s
  | .clrpx x y => Sys2Proof.Machine.execClrpx x y s
  | .qrypx x y => Sys2Proof.Machine.execQrypx x y s
  | .clrall => Sys2Proof.Machine.execClrall s
  | .blit x y t => Sys2Proof.Machine.execBlit x y t s
  | .putc c => Sys2Proof.Machine.execPutc c s
  | .puts n => Sys2Proof.Machine.execPuts n s
  | .putud n => Sys2Proof.Machine.execPutud n s
  | .putd n => Sys2Proof.Machine.execPutd n s
  | .setcur col row => Sys2Proof.Machine.execSetcur col row s
  | .putci c => Sys2Proof.Machine.execPutci c s
  | .putsi n => Sys2Proof.Machine.execPutsi n s
  | .init => Sys2Proof.Machine.execInit s
  | .flush => Sys2Proof.Machine.execFlush s
  | .fullimg => Sys2Proof.Machine.execFullimg s

end Sys2Proof.Machine
end

