-- ==== Sys2Proof/WellFormed.lean ====
section
/-! DEFINITION. The operand ranges of the five formats (30_encoding.md R82): a well-formed command is one that a command
word can express. -/

namespace Sys2Proof

/-- One byte operand: 0 to 255 (30_encoding.md R82). -/
def isByteOperand (b : Nat) : Bool := b < 256

/-- The 16-bit operand of format H: 0 to 65535 (30_encoding.md R82). -/
def isHalfOperand (n : Nat) : Bool := n < 65536

/-- Every operand lies in the range of its field (30_encoding.md R82). -/
def Instr.wf : Instr → Bool
  | .wrcmd b => isByteOperand b
  | .wrdat b => isByteOperand b
  | .setpx x y => isByteOperand x && isByteOperand y
  | .clrpx x y => isByteOperand x && isByteOperand y
  | .qrypx x y => isByteOperand x && isByteOperand y
  | .clrall => true
  | .blit x y t => isByteOperand x && isByteOperand y && isByteOperand t
  | .putc c => isByteOperand c
  | .puts n => isHalfOperand n
  | .putud n => isHalfOperand n
  | .putd n => isHalfOperand n
  | .setcur col row => isByteOperand col && isByteOperand row
  | .putci c => isByteOperand c
  | .putsi n => isHalfOperand n
  | .init => true
  | .flush => true
  | .fullimg => true

end Sys2Proof
end

