-- ==== Sys2Proof/Decode.lean ====
section
/-! DEFINITION. The decoder (30_encoding.md R81 to R89), total on every word and rejecting by name, the opcode map of
R86 as a table of masks, and after them the encoder. -/

namespace Sys2Proof

/-- Why a word is reserved (30_encoding.md R88). -/
inductive Reserved where
  /-- `OPC` is not one of the 17 of R86. -/
  | unknownOpcode
  /-- `OPC` is known and a must-be-zero bit is not 0 (R87). -/
  | nonzeroMbz
deriving DecidableEq, Repr

/-- What a word is: exactly one command with determined operands, or reserved (30_encoding.md R84). -/
inductive Decoded where
  | command (i : Instr)
  | reserved (why : Reserved)
deriving DecidableEq, Repr

/-- `OPC`, `w[31:24]` (30_encoding.md R81). -/
def opcField (w : Word) : Nat := (w.extractLsb' 24 8).toNat

/-- `F2`, `w[23:16]` (30_encoding.md R81). -/
def f2Field (w : Word) : Nat := (w.extractLsb' 16 8).toNat

/-- `F1`, `w[15:8]` (30_encoding.md R81). -/
def f1Field (w : Word) : Nat := (w.extractLsb' 8 8).toNat

/-- `F0`, `w[7:0]` (30_encoding.md R81). -/
def f0Field (w : Word) : Nat := (w.extractLsb' 0 8).toNat

/-- `N16`, `w[15:0]` (30_encoding.md R81). -/
def n16Field (w : Word) : Nat := (w.extractLsb' 0 16).toNat

/-- A command when the format's must-be-zero bits are 0, reserved otherwise (30_encoding.md R84, R87). -/
def whenZero (mbz : Nat) (i : Instr) : Decoded :=
  if mbz = 0 then .command i else .reserved .nonzeroMbz

/-- Format N: no operand, `w[23:0]` must be zero (30_encoding.md R82). -/
def formatN (i : Instr) (w : Word) : Decoded := whenZero (w.extractLsb' 0 24).toNat i

/-- Format B: `b = F0`, `w[23:8]` must be zero (30_encoding.md R82). -/
def formatB (k : Nat → Instr) (w : Word) : Decoded := whenZero (w.extractLsb' 8 16).toNat (k (f0Field w))

/-- Format XY: `a = F1`, `b = F0`, `w[23:16]` must be zero (30_encoding.md R82). -/
def formatXY (k : Nat → Nat → Instr) (w : Word) : Decoded := whenZero (f2Field w) (k (f1Field w) (f0Field w))

/-- Format H: `n = N16`, `w[23:16]` must be zero (30_encoding.md R82). -/
def formatH (k : Nat → Instr) (w : Word) : Decoded := whenZero (f2Field w) (k (n16Field w))

/-- Format XYT: `a = F2`, `b = F1`, `t = F0` (30_encoding.md R82). -/
def formatXYT (k : Nat → Nat → Nat → Instr) (w : Word) : Decoded :=
  .command (k (f2Field w) (f1Field w) (f0Field w))

/-- Decoding (30_encoding.md R84): look up `OPC` in the map of R86, then check the format's must-be-zero bits. -/
def decode (w : Word) : Decoded :=
  match opcField w with
  | 0x01 => formatB .wrcmd w
  | 0x02 => formatB .wrdat w
  | 0x10 => formatXY .setpx w
  | 0x11 => formatXY .clrpx w
  | 0x12 => formatXY .qrypx w
  | 0x13 => formatN .clrall w
  | 0x20 => formatXYT .blit w
  | 0x30 => formatB .putc w
  | 0x31 => formatH .puts w
  | 0x32 => formatH .putud w
  | 0x33 => formatH .putd w
  | 0x34 => formatXY .setcur w
  | 0x35 => formatB .putci w
  | 0x36 => formatH .putsi w
  | 0x40 => formatN .init w
  | 0x41 => formatN .flush w
  | 0x42 => formatN .fullimg w
  | _ => .reserved .unknownOpcode

/-- The opcode of a command (30_encoding.md R86). -/
def Instr.opcode : Instr → Nat
  | .wrcmd _ => 0x01
  | .wrdat _ => 0x02
  | .setpx _ _ => 0x10
  | .clrpx _ _ => 0x11
  | .qrypx _ _ => 0x12
  | .clrall => 0x13
  | .blit _ _ _ => 0x20
  | .putc _ => 0x30
  | .puts _ => 0x31
  | .putud _ => 0x32
  | .putd _ => 0x33
  | .setcur _ _ => 0x34
  | .putci _ => 0x35
  | .putsi _ => 0x36
  | .init => 0x40
  | .flush => 0x41
  | .fullimg => 0x42

/-- The format of a command (30_encoding.md R86). -/
def Instr.format : Instr → Format
  | .wrcmd _ => .B
  | .wrdat _ => .B
  | .setpx _ _ => .XY
  | .clrpx _ _ => .XY
  | .qrypx _ _ => .XY
  | .clrall => .N
  | .blit _ _ _ => .XYT
  | .putc _ => .B
  | .puts _ => .H
  | .putud _ => .H
  | .putd _ => .H
  | .setcur _ _ => .XY
  | .putci _ => .B
  | .putsi _ => .H
  | .init => .N
  | .flush => .N
  | .fullimg => .N

/-- Whether a command takes the latched address `ARGL` (30_encoding.md R85, column "uses `ARGL`" of R86). -/
def Instr.usesArgl : Instr → Bool
  | .blit _ _ _ => true
  | .puts _ => true
  | .putsi _ => true
  | .fullimg => true
  | .wrcmd _ => false
  | .wrdat _ => false
  | .setpx _ _ => false
  | .clrpx _ _ => false
  | .qrypx _ _ => false
  | .clrall => false
  | .putc _ => false
  | .putud _ => false
  | .putd _ => false
  | .setcur _ _ => false
  | .putci _ => false
  | .init => false
  | .flush => false

/-- One row of the opcode map (30_encoding.md R86): `w` is the command exactly when `w & mask = match`. -/
structure OpcodeRow where
  opcode : Nat
  pattern : Word
  mask : Word
deriving DecidableEq, Repr

/-- The 17 rows of 30_encoding.md R86, in its order. -/
def opcodeMap : List OpcodeRow :=
  [⟨0x01, 0x01000000, 0xFFFFFF00⟩, ⟨0x02, 0x02000000, 0xFFFFFF00⟩, ⟨0x10, 0x10000000, 0xFFFF0000⟩,
   ⟨0x11, 0x11000000, 0xFFFF0000⟩, ⟨0x12, 0x12000000, 0xFFFF0000⟩, ⟨0x13, 0x13000000, 0xFFFFFFFF⟩] ++
  [⟨0x20, 0x20000000, 0xFF000000⟩] ++
  [⟨0x30, 0x30000000, 0xFFFFFF00⟩, ⟨0x31, 0x31000000, 0xFFFF0000⟩, ⟨0x32, 0x32000000, 0xFFFF0000⟩,
   ⟨0x33, 0x33000000, 0xFFFF0000⟩, ⟨0x34, 0x34000000, 0xFFFF0000⟩, ⟨0x35, 0x35000000, 0xFFFFFF00⟩,
   ⟨0x36, 0x36000000, 0xFFFF0000⟩] ++
  [⟨0x40, 0x40000000, 0xFFFFFFFF⟩, ⟨0x41, 0x41000000, 0xFFFFFFFF⟩, ⟨0x42, 0x42000000, 0xFFFFFFFF⟩]

/-- The word with the four byte fields `OPC`, `F2`, `F1`, `F0` (30_encoding.md R81). -/
def wordOfBytes (opc f2 f1 f0 : Nat) : Word :=
  BitVec.ofNat 8 opc ++ BitVec.ofNat 8 f2 ++ BitVec.ofNat 8 f1 ++ BitVec.ofNat 8 f0

/-- The word with the fields `OPC` and `N16`, bits 23 to 16 zero (30_encoding.md R81, R82 format H). -/
def wordOfHalf (opc n16 : Nat) : Word :=
  BitVec.ofNat 8 opc ++ 0#8 ++ BitVec.ofNat 16 n16

/-- The word of a command (30_encoding.md R82, R86). -/
def encode : Instr → Word
  | .wrcmd b => wordOfBytes 0x01 0 0 b
  | .wrdat b => wordOfBytes 0x02 0 0 b
  | .setpx x y => wordOfBytes 0x10 0 x y
  | .clrpx x y => wordOfBytes 0x11 0 x y
  | .qrypx x y => wordOfBytes 0x12 0 x y
  | .clrall => wordOfBytes 0x13 0 0 0
  | .blit x y t => wordOfBytes 0x20 x y t
  | .putc c => wordOfBytes 0x30 0 0 c
  | .puts n => wordOfHalf 0x31 n
  | .putud n => wordOfHalf 0x32 n
  | .putd n => wordOfHalf 0x33 n
  | .setcur col row => wordOfBytes 0x34 0 col row
  | .putci c => wordOfBytes 0x35 0 0 c
  | .putsi n => wordOfHalf 0x36 n
  | .init => wordOfBytes 0x40 0 0 0
  | .flush => wordOfBytes 0x41 0 0 0
  | .fullimg => wordOfBytes 0x42 0 0 0

/-- The word of an instruction whose bits are `w`, of which the table gives `nbits`: every bit above them is 0. -/
def tableWord (nbits w : Nat) : Word := BitVec.ofNat 32 (w % 2 ^ nbits)

/-- The command the decoder reads from a row's word (`none` where the word is reserved). -/
def decodeTableWord (nbits w : Nat) : Option Instr :=
  match decode (tableWord nbits w) with
  | .command i => some i
  | .reserved _ => none

end Sys2Proof
end

