-- ==== Sys2Proof/Machine/HostPort.lean ====
section
/-! DEFINITION. The host's side: the register window (20_memory.md R58, 10_state.md R27 to R32), the platform's inputs,
which of them the next step takes, and programs as lists of host actions (30_encoding.md R91, R92). -/

namespace Sys2Proof.Machine

/-- What the host reads at an offset of the window: `CMD` and the unused offsets read 0 (10_state.md R27 to R32). -/
def regRead (off : Nat) (s : State) : Word :=
  if off = 0x04 then s.arg
  else if off = 0x08 then statusWord s
  else if off = 0x0C then faultWord s
  else if off = 0x10 then cursorWord s
  else 0

/-- Whether an access is a 32-bit one at a multiple of 4 (20_memory.md R59). -/
def alignedWord (off width : Nat) : Bool := width == 4 && off % 4 == 0

/-- Whether an offset lies in the block's 32-byte window (20_memory.md R58). -/
def inWindow (off : Nat) : Bool := off < 32

/-- What the next step takes. -/
inductive Taken where
  /-- A `CMD` write of `w` is accepted in the state given (10_state.md R32). -/
  | issue (w : Word) (s : State)
  /-- Anything else, with its outcome. -/
  | other (o : Host.Outcome State Fault Refusal)

/-- A host access that the window answers, or the stop it meets (20_memory.md R58, R59; log 15). -/
def checkedAccess (off width : Nat) (ok : Taken) : Taken :=
  if !inWindow off then .other (.fault .outsideWindow)
  else if !alignedWord off width then .other (.refused .narrowOrMisaligned)
  else ok

/-- Whether the block's reset input is asserted (70_reset_and_hazards.md R200). -/
def inReset (s : State) : Bool := s.rst == .asserted

/-- A host write that is no issue of a command: `ARG` takes it, every other offset ignores it (10_state.md R27 to R32).
In reset the block holds its reset values, so that `ARG` ignores it too (70_reset_and_hazards.md R200; log 16). -/
def regWrite (off : Nat) (v : Word) (s : State) : State :=
  if off = 0x04 && !inReset s then s.setArg v else s

/-- Whether an input is the host's issue of a command: an aligned write of `CMD` (10_state.md R32). -/
def Input.isIssue : Input → Bool
  | .write off width _ => off == 0 && width == 4
  | .read _ _ => false
  | .assertReset => false
  | .releaseReset => false
  | .fillRes _ _ => false
  | .pause => false

/-- Whether an input is one of the host's accesses; the others are the platform's. -/
def Input.isHost : Input → Bool
  | .write _ _ _ => true
  | .read _ _ => true
  | .assertReset => false
  | .releaseReset => false
  | .fillRes _ _ => false
  | .pause => false

/-- The platform's first input, behind the accesses of a host that is held, and what is left (log 25). -/
def firstPlatform : List Input → Option (Input × List Input)
  | [] => none
  | a :: rest => if a.isHost then (firstPlatform rest).map fun p => (p.1, a :: p.2) else some (a, rest)

/-- Whether the block holds a host that does this: the issue of a command while `BUSY = 1` (10_state.md R32) or while
the block is in reset, where it accepts no command (70_reset_and_hazards.md R200). -/
def holds (s : State) (a : Input) : Bool := a.isIssue && (s.busy || inReset s)

/-- The input the next step takes, and the inputs left; `none`: the block goes on by itself. A held write stays first and
only the platform's inputs pass it (10_state.md R32; log 25). -/
def nextInput (s : State) : Option (Input × List Input) :=
  match s.inputs with
  | [] => none
  | a :: rest => if holds s a then (firstPlatform rest).map fun p => (p.1, a :: p.2) else some (a, rest)

/-- What taking an input does. -/
def takeInput (a : Input) (s : State) : Taken :=
  match a with
  | .pause => .other (.next (resume s))
  | .assertReset => .other (.next (resetBlock s))
  | .releaseReset => .other (.next (s.setRst .released))
  | .fillRes addr b => .other (.next (s.setRes (Memory.write s.res addr.toNat b)))
  | .read off width => checkedAccess off width (.other (.next (s.setReads (s.reads ++ [regRead off s]))))
  | .write off width v =>
    checkedAccess off width (if off = 0 then .issue v (accept v s) else .other (.next (regWrite off v s)))

/-- The next step: the next input, or the block going on by itself. -/
def nextEvent (s : State) : Taken :=
  match nextInput s with
  | none => .other (.next (resume s))
  | some (a, rest) => takeInput a (s.setInputs rest)

/-- One line of a program (30_encoding.md R91). -/
inductive Line where
  /-- A command: the host's write of its word to `CMD`. -/
  | cmd (i : Instr)
  /-- `ARG <- a`. -/
  | arg (a : Word)
deriving DecidableEq, Repr

/-- The host action of a line (30_encoding.md R91). -/
def Line.input : Line → Input
  | .cmd i => .write 0x00 4 (encode i)
  | .arg a => .write 0x04 4 a

/-- The pseudo-commands (30_encoding.md R92). -/
inductive Pseudo where
  | home
  | blita (a : Word) (x y t : Nat)
  | putsa (a : Word) (n : Nat)
  | putsia (a : Word) (n : Nat)
  | fullimga (a : Word)
deriving DecidableEq, Repr

/-- The commands a pseudo-command stands for (30_encoding.md R92). -/
def Pseudo.expand : Pseudo → List Line
  | .home => [.cmd (.setcur 0 0)]
  | .blita a x y t => [.arg a, .cmd (.blit x y t)]
  | .putsa a n => [.arg a, .cmd (.puts n)]
  | .putsia a n => [.arg a, .cmd (.putsi n)]
  | .fullimga a => [.arg a, .cmd .fullimg]

/-- The host is about to run a program (70_reset_and_hazards.md R216). -/
def loadProgram (p : List Line) (s : State) : State := s.setInputs (s.inputs ++ p.map Line.input)

end Sys2Proof.Machine
end

