-- ==== Sys2Proof/Machine/Step.lean ====
section
/-! DEFINITION. One step of the machine, and how the host's test places a command word before it. -/

namespace Sys2Proof.Machine

/-- One step: the next input, or the running command going on. An accepted word is decoded and executed, or recorded as
reserved (10_state.md R32, 30_encoding.md R84, R88). -/
def step (s : State) : Host.Outcome State Fault Refusal :=
  match nextEvent s with
  | .other o => o
  | .issue w s' =>
    match decode w with
    | .command i => exec i s'
    | .reserved _ => .next (endReserved s')

/-- `s` with the host about to write the command word to `CMD` and the block idle and out of reset, so that the next step
accepts exactly that word (10_state.md R32; log 24). -/
def State.withFetchWord (s : State) (nbits w : Nat) : State :=
  (((s.setInputs (.write 0x00 4 (tableWord nbits w) :: s.inputs)).setBusy false).setSeq Seq.dead).setRst .released

end Sys2Proof.Machine
end

