-- ==== Sys2Proof/Safety.lean ====
section
/-! DEFINITION. The terms claims are stated in: when the block is idle, when the transport is ready, what a run of
commands is, which conditions every step keeps. -/

namespace Sys2Proof.Machine

/-- The peripheral will answer every poll with room and not busy. -/
def AlwaysReady (s : State) : Prop :=
  (∀ l ∈ s.peri.polls, l = ⟨true, false⟩) ∧ s.peri.steady = ⟨true, false⟩

/-- The peripheral after `n` more polls. -/
def spendPolls (n : Nat) (p : Peripheral) : Peripheral := ⟨p.polls.drop n, p.steady⟩

/-- The command has ended: the block is idle and the working registers are dead (10_state.md R32, R34). -/
def Ended (s : State) : Prop := s.busy = false ∧ s.seq = Seq.dead

/-- The events of a list of data bytes. -/
def dataEvents (bytes : List Byte) : List Event := bytes.map Event.D

/-- What `PutChar(c)` or `PutCharInv(c)` sends: the cell of a valid code, nothing for an invalid one (43_text.md R150). -/
def charEvents (inverted : Bool) (p : Params) (c : Nat) : List Event :=
  if validChar c then dataEvents (cellFor inverted p c) else []

/-- The character code at `ARGL + j` (43_text.md R153). -/
def charAt (s : State) (j : Nat) : Nat := (resRead s (resAddr s.argl j)).toNat

/-- No recorded fault (60_exceptions.md R194). -/
def FaultFree (s : State) : Prop := s.fault = FaultBits.none

/-- The run of the program has ended: its last `CMD` write has been taken and its command has ended, whatever else the
host and the platform still do (70_reset_and_hazards.md R216). -/
def RunEnded (s : State) : Prop := (∀ a ∈ s.inputs, a.isIssue = false) ∧ s.busy = false

/-- The next step is the block going on by itself, with the inputs `q` left: nothing is there to take, or the next input
is a pause. -/
def GoesOn (s : State) (q : List Input) : Prop :=
  (nextInput s = none ∧ q = s.inputs) ∨ nextInput s = some (.pause, q)

/-- Execute commands one after the other, stopping at the first that answers no next state. -/
def execAll : List Instr → State → Host.Outcome State Fault Refusal
  | [], s => .next s
  | i :: is, s =>
    match exec i s with
    | .next t => execAll is t
    | .fault r => .fault r
    | .refused r => .refused r

/-- Every field as before but `FB`, `FAULT`, `BUSY` and the working registers, which are dead between commands: all that
a command that sends nothing and moves no cursor may write (60_exceptions.md R182). -/
structure SameButPicture (s t : State) : Prop where
  cur : t.cur = s.cur
  arg : t.arg = s.arg
  q : t.q = s.q
  dc : t.dc = s.dc
  lcdrst : t.lcdrst = s.lcdrst
  rst : t.rst = s.rst
  opw : t.opw = s.opw
  argl : t.argl = s.argl
  params : t.params = s.params
  res : t.res = s.res
  peri : t.peri = s.peri
  inputs : t.inputs = s.inputs
  trace : t.trace = s.trace
  reads : t.reads = s.reads
  quiet : t.quiet = s.quiet
  dcSafe : t.dcSafe = s.dcSafe
  resets : t.resets = s.resets

/-- Every field as before but the transport side: `FAULT`, `DC`, `LCDRST`, `BUSY`, the working registers, the
peripheral's polls, the trace and the two observations of the select line. -/
structure SameButTransport (s t : State) : Prop where
  fb : t.fb = s.fb
  cur : t.cur = s.cur
  arg : t.arg = s.arg
  q : t.q = s.q
  rst : t.rst = s.rst
  opw : t.opw = s.opw
  argl : t.argl = s.argl
  params : t.params = s.params
  res : t.res = s.res
  inputs : t.inputs = s.inputs
  reads : t.reads = s.reads
  resets : t.resets = s.resets

/-- A command on a pixel other than `(x, y)`: `SETPX`, `CLRPX` or `QRYPX` (41_framebuffer.md R125). -/
def OnOtherPixel (x y : Nat) (i : Instr) : Prop :=
  ∃ x' y', (x' ≠ x ∨ y' ≠ y) ∧ (i = .setpx x' y' ∨ i = .clrpx x' y' ∨ i = .qrypx x' y')

/-- The commands that send nothing (60_exceptions.md R182). -/
def sendsNothing : Instr → Bool
  | .setpx _ _ => true
  | .clrpx _ _ => true
  | .qrypx _ _ => true
  | .clrall => true
  | .blit _ _ _ => true
  | .wrcmd _ => false
  | .wrdat _ => false
  | .putc _ => false
  | .puts _ => false
  | .putud _ => false
  | .putd _ => false
  | .setcur _ _ => false
  | .putci _ => false
  | .putsi _ => false
  | .init => false
  | .flush => false
  | .fullimg => false

/-- The commands that may write `FB` (10_state.md R21). -/
def drawsInFb : Instr → Bool
  | .setpx _ _ => true
  | .clrpx _ _ => true
  | .clrall => true
  | .blit _ _ _ => true
  | .qrypx _ _ => false
  | .wrcmd _ => false
  | .wrdat _ => false
  | .putc _ => false
  | .puts _ => false
  | .putud _ => false
  | .putd _ => false
  | .setcur _ _ => false
  | .putci _ => false
  | .putsi _ => false
  | .init => false
  | .flush => false
  | .fullimg => false

/-- The commands that may write `CUR` (10_state.md R25). -/
def movesCursor : Instr → Bool
  | .setcur _ _ => true
  | .clrall => true
  | .flush => true
  | .fullimg => true
  | .setpx _ _ => false
  | .clrpx _ _ => false
  | .qrypx _ _ => false
  | .blit _ _ _ => false
  | .wrcmd _ => false
  | .wrdat _ => false
  | .putc _ => false
  | .puts _ => false
  | .putud _ => false
  | .putd _ => false
  | .putci _ => false
  | .putsi _ => false
  | .init => false

/-- The commands that may set `OOR` (60_exceptions.md R182). -/
def mayRaiseOor : Instr → Bool
  | .setpx _ _ => true
  | .clrpx _ _ => true
  | .qrypx _ _ => true
  | .blit _ _ _ => true
  | .clrall => false
  | .wrcmd _ => false
  | .wrdat _ => false
  | .putc _ => false
  | .puts _ => false
  | .putud _ => false
  | .putd _ => false
  | .setcur _ _ => false
  | .putci _ => false
  | .putsi _ => false
  | .init => false
  | .flush => false
  | .fullimg => false

/-- The commands that may set `BADCHAR` (60_exceptions.md R182). -/
def mayRaiseBadchar : Instr → Bool
  | .putc _ => true
  | .putci _ => true
  | .puts _ => true
  | .putsi _ => true
  | .setpx _ _ => false
  | .clrpx _ _ => false
  | .qrypx _ _ => false
  | .clrall => false
  | .blit _ _ _ => false
  | .wrcmd _ => false
  | .wrdat _ => false
  | .putud _ => false
  | .putd _ => false
  | .setcur _ _ => false
  | .init => false
  | .flush => false
  | .fullimg => false

/-- Whether a step of a sending command sends a byte of `FB`. -/
def Act.readsFb : Act → Bool
  | .fbByte _ => true
  | .cmd _ => false
  | .drain => false
  | .dat _ => false
  | .resByte _ => false
  | .put _ _ => false
  | .putRes _ _ => false
  | .cell _ => false
  | .pulse => false

/-- Whether a step is the reset pulse. -/
def Act.isPulse : Act → Bool
  | .pulse => true
  | .cmd _ => false
  | .drain => false
  | .dat _ => false
  | .fbByte _ => false
  | .resByte _ => false
  | .put _ _ => false
  | .putRes _ _ => false
  | .cell _ => false

/-- Whether a step may meet an invalid character: one it is given, or any it reads from `RES` (43_text.md R150). -/
def Act.mayBeBad : Act → Bool
  | .put _ c => !validChar c
  | .putRes _ _ => true
  | .cmd _ => false
  | .drain => false
  | .dat _ => false
  | .fbByte _ => false
  | .resByte _ => false
  | .cell _ => false
  | .pulse => false

/-- What the rest of a command waits for at its next poll, `none` where its next step is no wait (40_transport.md
R112). -/
def waitsFor : List Act → Option Cond
  | .cmd _ :: _ => some .quiescent
  | .drain :: _ => some .quiescent
  | .pulse :: _ => some .quiescent
  | .dat _ :: _ => some .room
  | .fbByte _ :: _ => some .room
  | .resByte _ :: _ => some .room
  | .cell (_ :: _) :: _ => some .room
  | .cell [] :: _ => none
  | .put _ _ :: _ => none
  | .putRes _ _ :: _ => none
  | [] => none

/-- `CUR` lies in the 12 by 6 grid (10_state.md R25). -/
def CursorInGrid (s : State) : Prop := s.cur.col.toNat < 12 ∧ s.cur.row.toNat < 6

/-- The block's bookkeeping: between commands the working registers are dead, and during one something is left to do
that waits (10_state.md R30, R34; log 7, log 10). -/
def SequencerSound (s : State) : Prop :=
  (s.busy = false → s.seq = Seq.dead) ∧ (s.busy = true → (waitsFor s.seq.work).isSome = true)

/-- What 40_transport.md R116 keeps: without a `TIMEOUT`, `DC` has only changed while the peripheral was quiescent, and
while `DC` is at "command" nothing is in flight unless the drain of a command write is still to come. -/
def SelectLineSound (s : State) : Prop :=
  s.fault.timeout = false →
    s.dcSafe = true ∧ (s.dc = .command → s.quiet = true ∨ (s.busy = true ∧ s.seq.work.head? = some .drain))

/-- The registers have the values of 10_state.md R38. -/
structure AtReset (s : State) : Prop where
  cursor : s.cur = ⟨0, 0⟩
  arg : s.arg = 0
  q : s.q = false
  busy : s.busy = false
  fault : s.fault = FaultBits.none
  lcdrst : s.lcdrst = .released
  trace : s.trace = []

/-- The invariant of the machine: the parameters meet their constraints (00_scope.md R7), the cursor is on its grid
(10_state.md R25), `LCDRST` released between steps (R35), the reset values held while the block is in reset
(70_reset_and_hazards.md R200), the sequencer's bookkeeping, and `RES` in its canonical form. -/
structure Inv (s : State) : Prop where
  parameters : s.params.wf = true
  held : s.rst = .asserted → AtReset s
  cursor : CursorInGrid s
  resetLine : s.lcdrst = .released
  sequencer : SequencerSound s
  resource : Memory.wf s.res

/-! ### The bitmap a blit reads (42_blit.md R130) -/

/-- Header byte 18 of the resource at `ARGL`: the width in pixels. -/
def bitmapWidth (s : State) : Nat := (resRead s (s.argl + 18)).toNat

/-- Header byte 22: the height in pixels. -/
def bitmapHeight (s : State) : Nat := (resRead s (s.argl + 22)).toNat

/-- Header byte 10: the offset to the pixel data. -/
def bitmapOffset (s : State) : Nat := (resRead s (s.argl + 10)).toNat

/-- The distance of two stored rows: `width / 2` bytes and the padding to a multiple of 4. -/
def bitmapStride (s : State) : Nat := bitmapWidth s / 2 + (4 - bitmapWidth s / 2 % 4) % 4

/-- Pixel byte `k` of stored row `r`. -/
def bitmapByte (s : State) (r k : Nat) : Byte :=
  resRead s (s.argl + BitVec.ofNat 32 (bitmapOffset s + r * bitmapStride s + k))

/-- The nibble of picture column `c` in stored row `r`: the high one for an even column (42_blit.md R139). -/
def bitmapNibble (s : State) (r c : Nat) : Nat :=
  if c % 2 = 0 then (bitmapByte s r (c / 2)).toNat / 16 else (bitmapByte s r (c / 2)).toNat % 16

/-- The acceptance test of 42_blit.md R132, all five conditions. -/
def BlitAccepted (s : State) (x y : Nat) : Prop :=
  0 < bitmapHeight s ∧ bitmapWidth s % 2 = 0 ∧ x + bitmapWidth s ≤ 84 ∧ bitmapHeight s - 1 ≤ y ∧ y ≤ 48

/-- Pixel `(x', y')` lies in the rectangle of the blit at `(x, y)` (42_blit.md R133). -/
def Covered (s : State) (x y x' y' : Nat) : Prop :=
  x ≤ x' ∧ x' < x + bitmapWidth s ∧ y' ≤ y ∧ y < y' + bitmapHeight s

end Sys2Proof.Machine
end

