-- ==== Sys2Proof/Certificates/Slice0/Obligations.lean ====
section
/-! DEFINITION. The statements about the model, each formalising rules of spec/ as its docstring says. -/

open Sys2Proof Sys2Proof.Machine

/-! ### Encoding (30_encoding.md) -/

/-- Decoding the word of a well-formed command gives the command back, with every operand at every value its field
admits (30_encoding.md R82, R84, R86). -/
def Obligations.DecodeOfEncode : Prop :=
  ∀ i : Instr, i.wf = true → decode (encode i) = .command i

/-- A word that decodes to a command is that command's only word, and the command is well-formed (R82, R84, R87). -/
def Obligations.EncodeOfDecode : Prop :=
  ∀ (w : Word) (i : Instr), decode w = .command i → i.wf = true ∧ encode i = w

/-- The masks and matches of the opcode map: `w` is a command of the row exactly when `w & mask = match` (R86). -/
def Obligations.OpcodeMapDecides : Prop :=
  ∀ row ∈ opcodeMap, ∀ w : Word,
    (∃ i, decode w = .command i ∧ i.opcode = row.opcode) ↔ w &&& row.mask = row.pattern

/-- The two ways a word is reserved: its opcode is in no row, or it is in a row and a bit of the row's mask below the
opcode is set (R87, and the definition of a reserved word in R88). -/
def Obligations.ReservedWordsAreNoCommand : Prop :=
  ∀ w : Word,
    (decode w = .reserved .unknownOpcode ↔ ∀ row ∈ opcodeMap, (w >>> 24).toNat ≠ row.opcode) ∧
    (decode w = .reserved .nonzeroMbz ↔
      ∃ row ∈ opcodeMap, (w >>> 24).toNat = row.opcode ∧ w &&& row.mask &&& 0x00FFFFFF ≠ 0)

/-- Words written out in the spec and the commands they stand for (vectors V3, V11, V12, V15 to V36). -/
def Obligations.SpecWordsDecode : Prop :=
  decode 0x0100000C = .command (.wrcmd 0x0C) ∧ decode 0x02000000 = .command (.wrdat 0) ∧
  decode 0x1000532F = .command (.setpx 83 47) ∧ decode 0x11000A09 = .command (.clrpx 10 9) ∧
  decode 0x12000A09 = .command (.qrypx 10 9) ∧ decode 0x13000000 = .command .clrall ∧
  decode 0x20020907 = .command (.blit 2 9 7) ∧ decode 0x30000041 = .command (.putc 65) ∧
  decode 0x31000002 = .command (.puts 2) ∧ decode 0x32003039 = .command (.putud 12345) ∧
  decode 0x3300038B = .command (.putd 907) ∧ decode 0x34000B05 = .command (.setcur 11 5) ∧
  decode 0x35000041 = .command (.putci 65) ∧ decode 0x36000002 = .command (.putsi 2) ∧
  decode 0x40000000 = .command .init ∧ decode 0x41000000 = .command .flush ∧
  decode 0x42000000 = .command .fullimg ∧ decode 0x00000000 = .reserved .unknownOpcode ∧
  decode 0x30000141 = .reserved .nonzeroMbz ∧ decode 0x10010A09 = .reserved .nonzeroMbz

/-! ### Accepting a word (10_state.md R32) -/

/-- An idle block out of reset that takes a `CMD` write of a command's word runs exactly that command, in the state with
the word and `ARG` latched, `BUSY` set and the write taken (R32, R84). -/
def Obligations.StepRunsDecodedCommand : Prop :=
  ∀ (s : State) (w : Word) (rest : List Input) (i : Instr),
    s.busy = false → s.rst = .released → s.inputs = .write 0x00 4 w :: rest → decode w = .command i →
    ∃ a : State, step s = exec i a ∧ a.opw = w ∧ a.argl = s.arg ∧ a.busy = true ∧ a.inputs = rest ∧
      a.fb = s.fb ∧ a.cur = s.cur ∧ a.arg = s.arg ∧ a.q = s.q ∧ a.fault = s.fault ∧ a.dc = s.dc ∧
      a.lcdrst = s.lcdrst ∧ a.rst = s.rst ∧ a.seq = s.seq ∧ a.params = s.params ∧ a.res = s.res ∧
      a.peri = s.peri ∧ a.trace = s.trace ∧ a.reads = s.reads ∧ a.quiet = s.quiet ∧ a.dcSafe = s.dcSafe ∧
      a.resets = s.resets

/-- A reserved word that an idle block out of reset accepts sets `BADCMD` and does nothing else; the block is idle again at once (R88, R184; that the
dead latches take the word is log 13). -/
def Obligations.ReservedWordOnlyRaisesBadcmd : Prop :=
  ∀ (s : State) (w : Word) (rest : List Input) (why : Reserved),
    s.busy = false → s.rst = .released → s.inputs = .write 0x00 4 w :: rest → decode w = .reserved why →
    ∃ t, step s = .next t ∧ t.fault = { s.fault with badcmd := true } ∧ Ended t ∧ t.inputs = rest ∧
      t.fb = s.fb ∧ t.cur = s.cur ∧ t.arg = s.arg ∧ t.q = s.q ∧ t.dc = s.dc ∧ t.lcdrst = s.lcdrst ∧ t.rst = s.rst ∧
      t.params = s.params ∧ t.res = s.res ∧ t.peri = s.peri ∧ t.trace = s.trace ∧ t.reads = s.reads ∧
      t.quiet = s.quiet ∧ t.dcSafe = s.dcSafe ∧ t.resets = s.resets ∧ t.opw = w ∧ t.argl = s.arg

/-! ### The framebuffer (41_framebuffer.md) -/

/-- `SETPX` and `CLRPX`: in range, the pixel takes its value by a read-modify-write of its one byte, every other pixel
and byte stays; out of range, `FB` stays and `OOR` is set (R120, R121, R122). -/
def Obligations.PixelWriteCommands : Prop :=
  ∀ (s : State) (v : Bool) (x y : Nat),
    ∃ t, exec (if v then .setpx x y else .clrpx x y) s = .next t ∧ Ended t ∧ SameButPicture s t ∧
      (x < 84 ∧ y < 48 →
        t.fault = s.fault ∧ pix t x y = v ∧
        (∀ x' y', x' < 84 → y' < 48 → (x' ≠ x ∨ y' ≠ y) → pix t x' y' = pix s x' y') ∧
        fbRead t (84 * (y / 8) + x) =
          (if v then fbRead s (84 * (y / 8) + x) ||| (1#8 <<< (y % 8))
            else fbRead s (84 * (y / 8) + x) &&& ~~~(1#8 <<< (y % 8))) ∧
        ∀ i, i ≠ 84 * (y / 8) + x → fbRead t i = fbRead s i) ∧
      (¬ (x < 84 ∧ y < 48) → t.fb = s.fb ∧ t.fault = { s.fault with oor := true })

/-- `QRYPX`: in range, `Q` takes the pixel and no fault is recorded; out of range, `Q` stays and `OOR` is set; `FB`,
`CUR` and the trace stay (R123). -/
def Obligations.QrypxReadsPixel : Prop :=
  ∀ (s : State) (x y : Nat),
    ∃ t, exec (.qrypx x y) s = .next t ∧ Ended t ∧ t.fb = s.fb ∧
      t.q = (if x < 84 ∧ y < 48 then pix s x y else s.q) ∧
      t.fault = (if x < 84 ∧ y < 48 then s.fault else { s.fault with oor := true }) ∧
      SameButPicture (s.setQ t.q) t

/-- `CLRALL` zeroes every byte and homes the cursor; it can fail in no state and sends nothing (R124). -/
def Obligations.ClrallBlanksScreen : Prop :=
  ∀ s : State,
    ∃ t, exec .clrall s = .next t ∧ Ended t ∧ (∀ i, i < 504 → fbRead t i = 0) ∧
      (∀ x y, x < 84 → y < 48 → pix t x y = false) ∧ t.cur = ⟨0, 0⟩ ∧ t.fault = s.fault ∧
      SameButPicture (s.setCur ⟨0, 0⟩) t

/-- The five laws of R125: set or clear then query; set then clear is off whatever pixel commands on other pixels stand
around; writes to different pixels commute; `CLRALL` then query is 0 and `CURSOR` reads 0; no trace event. -/
def Obligations.PixelLaws : Prop :=
  (∀ (s : State) (x y : Nat), x < 84 → y < 48 →
    (∃ t, execAll [.setpx x y, .qrypx x y] s = .next t ∧ t.q = true) ∧
    (∃ t, execAll [.clrpx x y, .qrypx x y] s = .next t ∧ t.q = false)) ∧
  (∀ (s : State) (x y : Nat) (before between after : List Instr), x < 84 → y < 48 →
    (∀ i ∈ before ++ between ++ after, OnOtherPixel x y i) →
    ∃ t, execAll (before ++ .setpx x y :: between ++ .clrpx x y :: after) s = .next t ∧ pix t x y = false) ∧
  (∀ (s : State) (v v' : Bool) (x y x' y' : Nat), x < 84 → y < 48 → x' < 84 → y' < 48 → (x ≠ x' ∨ y ≠ y') →
    ∃ t u, execAll [if v then .setpx x y else .clrpx x y, if v' then .setpx x' y' else .clrpx x' y'] s = .next t ∧
      execAll [if v' then .setpx x' y' else .clrpx x' y', if v then .setpx x y else .clrpx x y] s = .next u ∧
      t.fb = u.fb) ∧
  (∀ (s : State) (x y : Nat), x < 84 → y < 48 →
    ∃ t, execAll [.clrall, .qrypx x y] s = .next t ∧ t.q = false ∧ cursorWord t = 0) ∧
  (∀ (s t : State) (i : Instr) (x y : Nat),
    (i = .setpx x y ∨ i = .clrpx x y ∨ i = .qrypx x y ∨ i = .clrall) → exec i s = .next t → t.trace = s.trace)

/-- The pixel predicate, that a byte is its eight pixels, and that two framebuffers are equal exactly when the predicate
agrees on all pixels of the screen (R23). -/
def Obligations.PictureIsItsPixels : Prop :=
  (∀ (s : State) (x y : Nat), x < 84 → y < 48 →
    (pix s x y = true ↔ (fbRead s (84 * (y / 8) + x) >>> (y % 8)) &&& 1 = 1)) ∧
  (∀ (s : State) (x g j : Nat), x < 84 → g < 6 → j < 8 →
    (fbRead s (84 * g + x)).getLsbD j = pix s x (8 * g + j)) ∧
  ∀ s t : State, s.fb = t.fb ↔ ∀ x y, x < 84 → y < 48 → pix s x y = pix t x y

/-- Repeating a command that sends nothing leaves the state as after the first (20_memory.md R60). -/
def Obligations.DrawingIsIdempotent : Prop :=
  ∀ (i : Instr) (s t : State), sendsNothing i = true → exec i s = .next t → exec i t = .next t

/-- Repeating `SETCUR`, the one sending command that 20_memory.md R60 lists, leaves every component of `S` as after the
first, outside the grid too, and sends the same events again: on a ready transport, and on any other where both have
ended and no `TIMEOUT` is recorded (R60, R155). -/
def Obligations.SetcurIsIdempotent : Prop :=
  ∀ (s t u : State) (col row : Nat), exec (.setcur col row) s = .next t → exec (.setcur col row) t = .next u →
    (AlwaysReady s ∨ (Ended t ∧ Ended u ∧ u.fault.timeout = false)) →
    Ended t ∧ Ended u ∧ SameButTransport t u ∧ u.fault = t.fault ∧ u.dc = t.dc ∧ u.lcdrst = t.lcdrst ∧
      ∃ ev, t.trace = s.trace ++ ev ∧ u.trace = t.trace ++ ev

/-! ### The blitter (42_blit.md) -/

/-- A rejected blit is a silent no-op: no byte, no `FAULT` bit, no event (R132, R183). -/
def Obligations.BlitRejectedIsSilent : Prop :=
  ∀ (s : State) (x y t : Nat), ¬ BlitAccepted s x y →
    ∃ u, exec (.blit x y t) s = .next u ∧ Ended u ∧ u.fb = s.fb ∧ u.fault = s.fault ∧ SameButPicture s u

/-- The postcondition of an accepted blit on the screen: every covered pixel takes the comparison of its nibble with
`min(threshold, 14)`, every other pixel and everything else stays (R139). -/
def Obligations.BlitDrawsThePicture : Prop :=
  ∀ (s : State) (x y t : Nat), BlitAccepted s x y → y < 48 →
    ∃ u, exec (.blit x y t) s = .next u ∧ Ended u ∧ u.fault = s.fault ∧ SameButPicture s u ∧
      (∀ c r, c < bitmapWidth s → r < bitmapHeight s →
        pix u (x + c) (y - r) = decide (min t 14 < bitmapNibble s r c)) ∧
      ∀ x' y', x' < 84 → y' < 48 → ¬ Covered s x y x' y' → pix u x' y' = pix s x' y'

/-- `y_origin = H` is accepted: stored row 0 writes nothing and raises `OOR` if there is a column, the rows above are
written as always; `y_origin > H` is a silent no-op (R137). -/
def Obligations.BlitBelowTheScreen : Prop :=
  (∀ (s : State) (x t : Nat), BlitAccepted s x 48 →
    ∃ u, exec (.blit x 48 t) s = .next u ∧ Ended u ∧ SameButPicture s u ∧
      u.fault = (if 0 < bitmapWidth s then { s.fault with oor := true } else s.fault) ∧
      (∀ c r, c < bitmapWidth s → 1 ≤ r → r < bitmapHeight s →
        pix u (x + c) (48 - r) = decide (min t 14 < bitmapNibble s r c)) ∧
      ∀ x' y', x' < 84 → y' < 48 → ¬ Covered s x 48 x' y' → pix u x' y' = pix s x' y') ∧
  ∀ (s : State) (x y t : Nat), 48 < y →
    ∃ u, exec (.blit x y t) s = .next u ∧ Ended u ∧ u.fb = s.fb ∧ u.fault = s.fault ∧ SameButPicture s u

/-- The threshold on every pixel a blit draws on the screen: on exactly when the nibble exceeds `min(threshold, 14)`;
so a nibble of 0 is never on, one of 15 always, one of 1 to 14 exactly when the threshold operand is below it (R136). -/
def Obligations.BlitThresholdTable : Prop :=
  ∀ (s : State) (x y t c r : Nat), BlitAccepted s x y → y - r < 48 → c < bitmapWidth s → r < bitmapHeight s →
    ∃ u, exec (.blit x y t) s = .next u ∧
      (pix u (x + c) (y - r) = true ↔ min t 14 < bitmapNibble s r c) ∧
      (bitmapNibble s r c = 0 → pix u (x + c) (y - r) = false) ∧
      (1 ≤ bitmapNibble s r c ∧ bitmapNibble s r c ≤ 14 →
        (pix u (x + c) (y - r) = true ↔ t < bitmapNibble s r c)) ∧
      (bitmapNibble s r c = 15 → pix u (x + c) (y - r) = true)

/-- The working registers of the walk after `r` row boundaries are those of screen row `y_origin - r`: the band, the
mask with bit 0 on top, the byte index, the read offset past the padding, the bytes still to process, which fit in `CNT`
for every header (R134, R135, 10_state.md R34). -/
def Obligations.BlitWalkFollowsTheRows : Prop :=
  ∀ (q : Seq) (x y t width height off r : Nat), x < 256 → y ≤ 48 → width < 256 → r ≤ y → r ≤ height →
    let w := (fun p => blitRowBoundary x (blitRowDone p))^[r] (blitStart x y t width height off q)
    w.gi.toNat = (y - r) / 8 ∧ w.mask = 1#8 <<< ((y - r) % 8) ∧ w.si.toNat = x + 84 * ((y - r) / 8) ∧
      w.rj = BitVec.ofNat 16 (off + r * (width / 2 + (4 - width / 2 % 4) % 4)) ∧
      w.cnt = BitVec.ofNat 15 (width / 2 * (height - r)) ∧
      (height < 256 → w.cnt.toNat = width / 2 * (height - r)) ∧ w.bw.toNat = width ∧ w.thrc.toNat = min t 14

/-- A blit reads the three header bytes and the pixel bytes, never the padding: two resource spaces that agree on those
bytes give the same result (R130, R135). -/
def Obligations.BlitReadsOnlyItsBytes : Prop :=
  ∀ (s u : State) (m : Memory) (x y t : Nat),
    bitmapWidth (s.setRes m) = bitmapWidth s → bitmapHeight (s.setRes m) = bitmapHeight s →
    bitmapOffset (s.setRes m) = bitmapOffset s →
    (∀ r k, r < bitmapHeight s → k < bitmapWidth s / 2 → bitmapByte (s.setRes m) r k = bitmapByte s r k) →
    exec (.blit x y t) s = .next u → exec (.blit x y t) (s.setRes m) = .next (u.setRes m)

/-! ### The transport (40_transport.md) -/

/-- `WRCMD` on a ready transport: one command event, `DC` at command, drained afterwards (R113). -/
def Obligations.WrcmdSendsCommandByte : Prop :=
  ∀ (s : State) (b : Nat), AlwaysReady s →
    ∃ t, exec (.wrcmd b) s = .next t ∧ Ended t ∧ t.trace = s.trace ++ [.C (BitVec.ofNat 8 b)] ∧ t.dc = .command ∧
      t.quiet = true ∧ t.peri = spendPolls 2 s.peri ∧ t.fault = s.fault ∧ t.lcdrst = s.lcdrst ∧
      t.dcSafe = s.dcSafe ∧ SameButTransport s t

/-- `WRDAT` on a ready transport: one data event, `DC` at data, no drain (R114). -/
def Obligations.WrdatSendsDataByte : Prop :=
  ∀ (s : State) (b : Nat), AlwaysReady s →
    ∃ t, exec (.wrdat b) s = .next t ∧ Ended t ∧ t.trace = s.trace ++ [.D (BitVec.ofNat 8 b)] ∧ t.dc = .data ∧
      t.quiet = false ∧ t.peri = spendPolls 1 s.peri ∧ t.fault = s.fault ∧ t.lcdrst = s.lcdrst ∧ SameButTransport s t

/-- `TIMEOUT`: a running command whose awaited level is absent at a poll with `TOC >= TX_TIMEOUT` ends at once with the
bit set; nothing more is pushed and everything done before stays (R112, R115, 60_exceptions.md R186). -/
def Obligations.TimeoutEndsTheCommand : Prop :=
  ∀ (s : State) (c : Cond) (n : Nat), s.busy = true → s.inputs = [] → waitsFor s.seq.work = some c →
    c.holds (nextLevel s) = false → s.params.txTimeout = some n → n ≤ s.seq.toc →
    ∃ t, step s = .next t ∧ Ended t ∧ t.fault = { s.fault with timeout := true } ∧ t.trace = s.trace ∧ t.dc = s.dc ∧
      t.lcdrst = s.lcdrst ∧ t.peri = spendPolls 1 s.peri ∧ t.quiet = s.quiet ∧ t.dcSafe = s.dcSafe ∧
      SameButTransport s t

/-- An unsuccessful poll that does not time out: `TOC` counts it, the command keeps waiting, nothing is sent and nothing
recorded (R112, 60_exceptions.md R190). -/
def Obligations.UnmetWaitCountsPolls : Prop :=
  ∀ (s : State) (c : Cond), s.busy = true → s.inputs = [] → waitsFor s.seq.work = some c →
    c.holds (nextLevel s) = false → (∀ n, s.params.txTimeout = some n → s.seq.toc < n) →
    ∃ t, step s = .next t ∧ t.busy = true ∧ t.seq.work = s.seq.work ∧ t.seq.toc = s.seq.toc + 1 ∧
      t.seq.dig = s.seq.dig ∧ t.fault = s.fault ∧ t.trace = s.trace ∧ t.dc = s.dc ∧ t.lcdrst = s.lcdrst ∧
      t.peri = spendPolls 1 s.peri ∧ t.quiet = s.quiet ∧ t.dcSafe = s.dcSafe ∧ SameButTransport s t

/-- The hang: with no timeout and a level that never comes, the run has no end, whatever commands the host still holds
ready: `BUSY` stays 1, no write is accepted, nothing is sent and no `FAULT` bit is set (60_exceptions.md R189). -/
def Obligations.HangNeverEnds : Prop :=
  ∀ (s : State) (c : Cond) (k : Nat), s.busy = true → waitsFor s.seq.work = some c → s.params.txTimeout = none →
    (∀ l ∈ s.peri.polls, c.holds l = false) → c.holds s.peri.steady = false →
    (∀ a ∈ s.inputs, ∃ w, a = .write 0x00 4 w) →
    ∃ t, core.run k s = .next t ∧ t.busy = true ∧ t.inputs = s.inputs ∧ t.trace = s.trace ∧ t.fault = s.fault ∧
      SameButTransport s t

/-- What R116 keeps, as an invariant of every step, host and platform inputs included: as long as `FAULT.TIMEOUT` is 0,
`DC` has changed only while nothing was in flight. The observations it speaks of are the model's (log 17), and a reset
starts them afresh (log 16). -/
def Obligations.SelectLineChangesOnlyWhenQuiet : Prop :=
  (∀ s t : State, SelectLineSound s → step s = .next t → SelectLineSound t) ∧ SelectLineSound State.reset

/-- Waiting never changes what is sent: a waiting command whose peripheral becomes ready in the end, without a timeout or
with one that the unsuccessful polls cannot reach, ends after at most as many steps as there are answers before that and
one more, with the trace, the faults, the levels of `DC` and `LCDRST` and every other register it would have had on a
peripheral that is ready at once (R112, 70_reset_and_hazards.md R215). -/
def Obligations.StallsNeverChangeTheBytes : Prop :=
  ∀ s : State, s.busy = true → s.inputs = [] → s.peri.steady = ⟨true, false⟩ →
    (∀ n, s.params.txTimeout = some n → s.seq.toc + s.peri.polls.length ≤ n) →
    ∃ k t u, k ≤ s.peri.polls.length + 1 ∧ core.run k s = .next t ∧ Ended t ∧
      step (s.setPeri ⟨[], ⟨true, false⟩⟩) = .next u ∧ Ended u ∧ t.trace = u.trace ∧ t.fault = u.fault ∧
      t.dc = u.dc ∧ t.lcdrst = u.lcdrst ∧ SameButTransport s t ∧ SameButTransport s u

/-! ### Text (43_text.md) -/

/-- `PUTC` and `PUTCI` on a ready transport: the seven data bytes of the cell or its mirror for a valid code; an invalid
code sends nothing, polls nothing and sets `BADCHAR` (R150, R151, R152). -/
def Obligations.PutcSendsTheCell : Prop :=
  ∀ (s : State) (c : Nat) (inverted : Bool), AlwaysReady s →
    ∃ t, exec (if inverted then .putci c else .putc c) s = .next t ∧ Ended t ∧ t.lcdrst = s.lcdrst ∧
      SameButTransport s t ∧
      (0x20 ≤ c ∧ c ≤ 0x7E →
        t.trace = s.trace ++ dataEvents (if inverted then cellInv s.params c else cell s.params c) ∧
        t.fault = s.fault ∧ t.peri = spendPolls 7 s.peri ∧ t.dc = .data) ∧
      (¬ (0x20 ≤ c ∧ c ≤ 0x7E) →
        t.trace = s.trace ∧ t.fault = { s.fault with badchar := true } ∧ t.peri = s.peri ∧ t.dc = s.dc)

/-- The inverted cell is the cell read backwards with every byte bit-reversed, and doing it again gives the cell
(R156); `rev8` puts bit `7-i` at bit `i` (00_scope.md R8). -/
def Obligations.MirroredCell : Prop :=
  (∀ (p : Params) (c : Nat), cell p c =
    [0x00, glyphByte p (c - 0x20) 0, glyphByte p (c - 0x20) 1, glyphByte p (c - 0x20) 2, glyphByte p (c - 0x20) 3,
     glyphByte p (c - 0x20) 4, 0x00]) ∧
  (∀ (p : Params) (c : Nat), cellInv p c = (cell p c).reverse.map rev8 ∧ (cellInv p c).reverse.map rev8 = cell p c) ∧
  ∀ (b : Byte) (i : Nat), i < 8 → (rev8 b).getLsbD i = b.getLsbD (7 - i)

/-- `PUTS` on a ready transport: the cell of each valid character in order; an invalid one sends nothing for itself,
sets `BADCHAR`, and the string goes on (R153). -/
def Obligations.PutsSendsEachCharacter : Prop :=
  ∀ (s : State) (n : Nat), AlwaysReady s →
    ∃ t, exec (.puts n) s = .next t ∧ Ended t ∧ t.lcdrst = s.lcdrst ∧ SameButTransport s t ∧
      t.trace = s.trace ++ (List.range n).flatMap (fun j => charEvents false s.params (charAt s j)) ∧
      ((∀ j, j < n → 0x20 ≤ charAt s j ∧ charAt s j ≤ 0x7E) → t.fault = s.fault) ∧
      ((∃ j, j < n ∧ ¬ (0x20 ≤ charAt s j ∧ charAt s j ≤ 0x7E)) → t.fault = { s.fault with badchar := true })

/-- `PUTSI` on a ready transport: the mirrored cell of each valid character, the last character first (R154). -/
def Obligations.PutsiSendsReversed : Prop :=
  ∀ (s : State) (n : Nat), AlwaysReady s →
    ∃ t, exec (.putsi n) s = .next t ∧ Ended t ∧ t.lcdrst = s.lcdrst ∧ SameButTransport s t ∧
      t.trace = s.trace ++ (List.range n).flatMap (fun j => charEvents true s.params (charAt s (n - 1 - j))) ∧
      ((∀ j, j < n → 0x20 ≤ charAt s j ∧ charAt s j ≤ 0x7E) → t.fault = s.fault) ∧
      ((∃ j, j < n ∧ ¬ (0x20 ≤ charAt s j ∧ charAt s j ≤ 0x7E)) → t.fault = { s.fault with badchar := true })

/-- On a valid string the byte stream of `PUTSI n` is that of `PUTS n` read backwards with every byte bit-reversed, `7n`
bytes each (R153, R154). -/
def Obligations.PutsiMirrorsPuts : Prop :=
  ∀ (s : State) (n : Nat), AlwaysReady s → (∀ j, j < n → 0x20 ≤ charAt s j ∧ charAt s j ≤ 0x7E) →
    ∃ t u bytes, exec (.puts n) s = .next t ∧ exec (.putsi n) s = .next u ∧ bytes.length = 7 * n ∧
      t.trace = s.trace ++ dataEvents bytes ∧ u.trace = s.trace ++ dataEvents (bytes.reverse.map rev8)

/-- The digits of a 16-bit number: what `DIG` holds, that they are the digits of `n`, how many are significant, and that
the codes the decimal commands put are valid, so that they raise no `BADCHAR` by themselves (R159; the last is stated of
the commands by `PutudSendsFiveCells` and `PutdSendsSignificantCells`). -/
def Obligations.DecimalDigits : Prop :=
  ∀ n, n < 65536 →
    (∀ i, i < 5 → ∀ d, (digitsOf n)[i]? = some d → d.toNat = n / 10 ^ i % 10 ∧ validChar (0x30 + d.toNat) = true) ∧
    n = digit n 4 * 10000 + digit n 3 * 1000 + digit n 2 * 100 + digit n 1 * 10 + digit n 0 ∧
    (sigDigits n = 1 ↔ n < 10) ∧ (sigDigits n = 2 ↔ 10 ≤ n ∧ n < 100) ∧ (sigDigits n = 3 ↔ 100 ≤ n ∧ n < 1000) ∧
    (sigDigits n = 4 ↔ 1000 ≤ n ∧ n < 10000) ∧ (sigDigits n = 5 ↔ 10000 ≤ n) ∧ validChar 0x20 = true

/-- `PUTUD` on a ready transport: five cells, blanks on the left and the `k` significant digits, most significant first:
35 data bytes for every `n` (R157). -/
def Obligations.PutudSendsFiveCells : Prop :=
  ∀ (s : State) (n k : Nat), AlwaysReady s → 1 ≤ k → k ≤ 5 → n < 10 ^ k → (k = 1 ∨ 10 ^ (k - 1) ≤ n) →
    ∃ t bytes, exec (.putud n) s = .next t ∧ Ended t ∧ t.lcdrst = s.lcdrst ∧ SameButTransport s t ∧
      t.fault = s.fault ∧ t.peri = spendPolls 35 s.peri ∧ t.trace = s.trace ++ dataEvents bytes ∧
      bytes.length = 35 ∧
      bytes = (List.replicate (5 - k) 0x20 ++ (List.range k).map (fun i => 0x30 + n / 10 ^ (k - 1 - i) % 10)).flatMap
        (cell s.params)

/-- `PUTD` on a ready transport: the `k` significant digits and no padding, `7k` data bytes (R158). -/
def Obligations.PutdSendsSignificantCells : Prop :=
  ∀ (s : State) (n k : Nat), AlwaysReady s → 1 ≤ k → k ≤ 5 → n < 10 ^ k → (k = 1 ∨ 10 ^ (k - 1) ≤ n) →
    ∃ t bytes, exec (.putd n) s = .next t ∧ Ended t ∧ t.lcdrst = s.lcdrst ∧ SameButTransport s t ∧
      t.fault = s.fault ∧ t.peri = spendPolls (7 * k) s.peri ∧ t.trace = s.trace ++ dataEvents bytes ∧
      bytes.length = 7 * k ∧
      bytes = ((List.range k).map (fun i => 0x30 + n / 10 ^ (k - 1 - i) % 10)).flatMap (cell s.params)

/-- `SETCUR` in the grid on a ready transport: the cursor, then the column command and the row command; with bases that
share no bit with an address the bytes are also the sums (R155, 00_scope.md R7). -/
def Obligations.SetcurMovesAndTells : Prop :=
  ∀ (s : State) (col row : Nat), AlwaysReady s → col ≤ 11 → row ≤ 5 →
    ∃ t, exec (.setcur col row) s = .next t ∧ Ended t ∧ t.cur.col.toNat = col ∧ t.cur.row.toNat = row ∧
      t.trace = s.trace ++ [.C (s.params.setxBase ||| BitVec.ofNat 8 (col * 7)),
        .C (s.params.setyBase ||| BitVec.ofNat 8 row)] ∧
      (s.params.wf = true → t.trace = s.trace ++ [.C (s.params.setxBase + BitVec.ofNat 8 (col * 7)),
        .C (s.params.setyBase + BitVec.ofNat 8 row)]) ∧
      t.dc = .command ∧ t.quiet = true ∧ t.peri = spendPolls 4 s.peri ∧ t.fault = s.fault ∧ t.lcdrst = s.lcdrst ∧
      SameButTransport (s.setCur t.cur) t

/-- `SETCUR` outside the grid is a silent no-op, whatever the transport does (R155, 60_exceptions.md R183). -/
def Obligations.SetcurOutsideGridIsSilent : Prop :=
  ∀ (s : State) (col row : Nat), (11 < col ∨ 5 < row) →
    ∃ t, exec (.setcur col row) s = .next t ∧ Ended t ∧ t.cur = s.cur ∧ t.trace = s.trace ∧ t.fault = s.fault ∧
      t.dc = s.dc ∧ t.lcdrst = s.lcdrst ∧ t.peri = s.peri ∧ t.quiet = s.quiet ∧ t.dcSafe = s.dcSafe ∧
      SameButTransport s t

/-- `CUR` is written before the first byte is sent: when the peripheral is busy at the first poll, `SETCUR`, `FLUSH` and
`FULLIMG` leave the cursor moved, nothing sent and the command running, or ended by `TIMEOUT` (R155, 44_session.md R171,
R172, 20_memory.md R60). -/
def Obligations.CursorMovesBeforeSending : Prop :=
  ∀ (s : State) (i : Instr) (col row : Nat), col ≤ 11 → row ≤ 5 →
    (i = .setcur col row ∨ ((i = .flush ∨ i = .fullimg) ∧ col = 0 ∧ row = 0)) → (nextLevel s).busy = true →
    ∃ t, exec i s = .next t ∧ t.cur.col.toNat = col ∧ t.cur.row.toNat = row ∧ t.trace = s.trace ∧
      (s.params.txTimeout ≠ some 0 → t.busy = true ∧ t.fault = s.fault)

/-! ### The session (44_session.md) -/

/-- `INIT` on a ready transport: the reset pulse, then the script's bytes as commands, in order; `FB`, `CUR`, `Q` and
`ARG` stay (R170). -/
def Obligations.InitSendsScript : Prop :=
  ∀ s : State, AlwaysReady s →
    ∃ t, exec .init s = .next t ∧ Ended t ∧ t.trace = s.trace ++ .RSTP :: s.params.initScript.map Event.C ∧
      t.lcdrst = .released ∧ t.fault = s.fault ∧ t.peri = spendPolls (1 + 2 * s.params.initScript.length) s.peri ∧
      SameButTransport s t

/-- `FLUSH` on a ready transport: cursor home, the two address commands, then the 504 bytes of `FB` in ascending index;
`FB` and `Q` stay (R171). -/
def Obligations.FlushSendsPicture : Prop :=
  ∀ s : State, AlwaysReady s →
    ∃ t, exec .flush s = .next t ∧ Ended t ∧ t.cur = ⟨0, 0⟩ ∧
      t.trace = s.trace ++ (.C s.params.setxBase :: .C s.params.setyBase ::
        (List.range 504).map (fun i => .D (fbRead s i))) ∧
      t.fault = s.fault ∧ t.lcdrst = s.lcdrst ∧ t.peri = spendPolls 508 s.peri ∧
      SameButTransport (s.setCur ⟨0, 0⟩) t

/-- `FULLIMG` on a ready transport: as `FLUSH`, the 504 bytes from `RES` at `ARGL`, addresses wrapping at `2^32`
(R172, 20_memory.md R54). -/
def Obligations.FullimgSendsImage : Prop :=
  ∀ s : State, AlwaysReady s →
    ∃ t, exec .fullimg s = .next t ∧ Ended t ∧ t.cur = ⟨0, 0⟩ ∧
      t.trace = s.trace ++ (.C s.params.setxBase :: .C s.params.setyBase ::
        (List.range 504).map (fun i => .D (Memory.read s.res ((s.argl.toNat + i) % 2 ^ 32)))) ∧
      t.fault = s.fault ∧ t.lcdrst = s.lcdrst ∧ t.peri = spendPolls 508 s.peri ∧
      SameButTransport (s.setCur ⟨0, 0⟩) t

/-! ### The whole machine -/

/-- Every step, of the block, the host or the platform, keeps the invariant: the parameters within their constraints
(00_scope.md R7), the reset values held while the block is in reset (70_reset_and_hazards.md R200), the cursor on its 12
by 6 grid (10_state.md R25), `LCDRST` released between steps (R35), the working registers dead when idle and a wait
pending when busy (R34, log 7, log 10), `RES` in its canonical form (log 5). -/
def Obligations.StepKeepsInvariant : Prop :=
  ∀ s t : State, Inv s → step s = .next t → Inv t

/-- The constraints between the parameters hold, of the constants and, in the invariant, of the open parameters
(00_scope.md R7), and the state after reset meets the invariant. -/
def Obligations.ResetMeetsInvariant : Prop := Config.constraintsHold = true ∧ Inv State.reset

/-- A `FAULT` bit that is 1 stays 1 through every step but a reset: no command and no register write clears it
(10_state.md R29, 60_exceptions.md R181). -/
def Obligations.FaultBitsAreSticky : Prop :=
  ∀ s t : State, step s = .next t → (∀ q, nextInput s ≠ some (.assertReset, q)) →
    (s.fault.badcmd = true → t.fault.badcmd = true) ∧ (s.fault.oor = true → t.fault.oor = true) ∧
    (s.fault.badchar = true → t.fault.badchar = true) ∧ (s.fault.timeout = true → t.fault.timeout = true)

/-- No command tests a `FAULT` bit, neither when it is executed nor when a running one goes on: with other bits set
before it, it does exactly the same and adds exactly the same bits (10_state.md R29, 60_exceptions.md R181). -/
def Obligations.FaultBitsNeverSteer : Prop :=
  (∀ (i : Instr) (s : State) (f : FaultBits),
    ∃ t new, exec i s = .next t ∧ t.fault = s.fault.or new ∧ exec i (s.setFault f) = .next (t.setFault (f.or new))) ∧
  ∀ (s : State) (q : List Input) (f : FaultBits), GoesOn s q →
    ∃ t new, step s = .next t ∧ t.fault = s.fault.or new ∧ step (s.setFault f) = .next (t.setFault (f.or new))

/-- What each command may write, for all 17 and whatever the transport does, up to its end or its first unsuccessful
poll: only `SETCUR`, `CLRALL`, `FLUSH`, `FULLIMG` write `CUR` (10_state.md R25); only `QRYPX` writes `Q` (R28); only
`SETPX`, `CLRPX`, `CLRALL`, `BLIT` write `FB` (R21); the commands that send nothing touch neither the trace nor a line
and can neither time out nor stay busy; only the commands that 60_exceptions.md R182 names may set `OOR` or `BADCHAR`,
and none sets `BADCMD`; only `INIT` pulses `LCDRST`; no command writes `ARG`, the latches, `RES` (20_memory.md R54) or
the parameters. What is still to do keeps the two promises about `BADCHAR` and `LCDRST`, which is what
`ResumedCommandFrame` goes on from. -/
def Obligations.CommandFrame : Prop :=
  ∀ (i : Instr) (s t : State), exec i s = .next t →
    (movesCursor i = false → t.cur = s.cur) ∧ ((∀ x y, i ≠ .qrypx x y) → t.q = s.q) ∧
    (drawsInFb i = false → ∀ k, fbRead t k = fbRead s k) ∧
    (sendsNothing i = true → Ended t ∧ t.trace = s.trace ∧ t.dc = s.dc ∧ t.lcdrst = s.lcdrst ∧ t.peri = s.peri ∧
      t.quiet = s.quiet ∧ t.dcSafe = s.dcSafe ∧ t.fault.timeout = s.fault.timeout) ∧
    t.fault.badcmd = s.fault.badcmd ∧ (mayRaiseOor i = false → t.fault.oor = s.fault.oor) ∧
    (mayRaiseBadchar i = false → t.fault.badchar = s.fault.badchar ∧ ∀ a ∈ t.seq.work, a.mayBeBad = false) ∧
    (i ≠ .init → t.lcdrst = s.lcdrst ∧ ∀ a ∈ t.seq.work, a.isPulse = false) ∧
    t.arg = s.arg ∧ t.rst = s.rst ∧ t.opw = s.opw ∧ t.argl = s.argl ∧ (∀ a, resRead t a = resRead s a) ∧
    t.params = s.params ∧ t.inputs = s.inputs ∧ t.reads = s.reads ∧ t.resets = s.resets

/-- What a running command may write when it goes on after a wait: neither `FB`, `CUR`, `Q` nor anything else but the
transport side; never `BADCMD` or `OOR`; `BADCHAR` only where what it had to do may meet an invalid character, `LCDRST`
only where a pulse was to come, and what is still to do after the step keeps both (10_state.md R21, R25, R28,
60_exceptions.md R182). -/
def Obligations.ResumedCommandFrame : Prop :=
  ∀ (s t : State) (q : List Input), GoesOn s q → step s = .next t →
    SameButTransport (s.setInputs q) t ∧ t.fault.badcmd = s.fault.badcmd ∧ t.fault.oor = s.fault.oor ∧
    ((∀ a ∈ s.seq.work, a.mayBeBad = false) →
      t.fault.badchar = s.fault.badchar ∧ ∀ a ∈ t.seq.work, a.mayBeBad = false) ∧
    ((∀ a ∈ s.seq.work, a.isPulse = false) → t.lcdrst = s.lcdrst ∧ ∀ a ∈ t.seq.work, a.isPulse = false)

/-- The text commands, `WRCMD`, `WRDAT`, `INIT` and `FULLIMG` neither read nor write `FB`: with another framebuffer they
do exactly the same, when they are executed and at every later step, since no byte of `FB` is among what is still to do
(43_text.md, opening paragraph; R160; 44_session.md R170, R172). -/
def Obligations.SendingIgnoresPicture : Prop :=
  (∀ (i : Instr) (s t : State) (f : Vector Byte 504), sendsNothing i = false → i ≠ .flush → exec i s = .next t →
    exec i (s.setFb f) = .next (t.setFb f) ∧ t.fb = s.fb ∧ ∀ a ∈ t.seq.work, a.readsFb = false) ∧
  ∀ (s t : State) (q : List Input) (f : Vector Byte 504), GoesOn s q → (∀ a ∈ s.seq.work, a.readsFb = false) →
    step s = .next t →
    step (s.setFb f) = .next (t.setFb f) ∧ t.fb = s.fb ∧ ∀ a ∈ t.seq.work, a.readsFb = false

/-- On a ready transport every one of the 17 commands runs to its end, without a `TIMEOUT` (70_reset_and_hazards.md
R215). -/
def Obligations.ReadyCommandsEnd : Prop :=
  ∀ (i : Instr) (s : State), AlwaysReady s →
    ∃ t, exec i s = .next t ∧ Ended t ∧ t.fault.timeout = s.fault.timeout ∧ AlwaysReady t

/-! ### The host's side (10_state.md section 4, 20_memory.md R58, R59) -/

/-- The register window: what an aligned read of each offset returns, at any time and without any other effect, and that
a write of `STATUS`, `FAULT`, `CURSOR` or an unused offset is ignored while one of `ARG` is taken as written, but in reset,
where the reset value is held (10_state.md R27, R28, R29, R31, R32, 20_memory.md R58, R60, log 16). -/
def Obligations.RegisterWindow : Prop :=
  (∀ (s : State) (off : Nat) (rest : List Input), s.inputs = .read off 4 :: rest → off < 32 → off % 4 = 0 →
    ∃ v, step s = .next ((s.setInputs rest).setReads (s.reads ++ [v])) ∧
      (off = 0x00 → v = 0) ∧ (off = 0x04 → v = s.arg) ∧ (off = 0x08 → v.toNat = s.busy.toNat + 2 * s.q.toNat) ∧
      (off = 0x0C → v.toNat = s.fault.badcmd.toNat + 2 * s.fault.oor.toNat + 4 * s.fault.badchar.toNat +
        8 * s.fault.timeout.toNat) ∧
      (off = 0x10 → v.toNat = s.cur.col.toNat + 256 * s.cur.row.toNat) ∧ (0x14 ≤ off → v = 0)) ∧
  ∀ (s : State) (off : Nat) (v : Word) (rest : List Input), s.inputs = .write off 4 v :: rest → off < 32 →
    off % 4 = 0 → off ≠ 0 →
    step s = .next (if off = 0x04 ∧ s.rst = .released then (s.setInputs rest).setArg v else s.setInputs rest)

/-- A write of `ARG` during a command does not reach it: `ARGL`, the latched word and the rest of the command stay, and
the command goes on as it would have with the old `ARG` (10_state.md R27, R33, 20_memory.md R64). -/
def Obligations.ArgWriteSparesRunningCommand : Prop :=
  ∀ (s : State) (v : Word) (rest : List Input), s.rst = .released → s.inputs = .write 0x04 4 v :: rest →
    (∃ t, step s = .next t ∧ t.arg = v ∧ t.argl = s.argl ∧ t.opw = s.opw ∧ t.seq = s.seq ∧ t.busy = s.busy ∧
      t.inputs = rest ∧ t.fb = s.fb ∧ t.cur = s.cur ∧ t.q = s.q ∧ t.fault = s.fault ∧ t.trace = s.trace ∧
      t.dc = s.dc ∧ t.lcdrst = s.lcdrst ∧ t.res = s.res ∧ t.peri = s.peri ∧ t.params = s.params) ∧
    resume (s.setArg v) = (resume s).setArg v

/-- A `CMD` write while `BUSY = 1` is held (10_state.md R32), and so is one while the block is in reset and accepts no
command (70_reset_and_hazards.md R200, log 16): it stays first, neither taken nor dropped, and the block goes on exactly
as if it were not there. Only what the platform does next passes it (log 25). -/
def Obligations.HeldCommandWaits : Prop :=
  ∀ (s : State) (w : Word) (rest : List Input), (s.busy = true ∨ s.rst = .asserted) →
    s.inputs = .write 0x00 4 w :: rest →
    (firstPlatform rest = none →
      ∃ t, step (s.setInputs []) = .next t ∧ step s = .next (t.setInputs (.write 0x00 4 w :: rest)) ∧
        t.opw = s.opw ∧ t.argl = s.argl) ∧
    ∀ a q, firstPlatform rest = some (a, q) →
      ∃ t, step (s.setInputs (a :: q)) = .next t ∧ step s = .next (t.setInputs (.write 0x00 4 w :: q)) ∧
        (a ≠ .assertReset → t.opw = s.opw ∧ t.argl = s.argl)

/-- The stops of the model: a host access that is narrower or wider than 32 bits or not at a multiple of 4 is refused, an
access outside the 32-byte window faults (20_memory.md R58, R59; the model's choice of stop, log 15). -/
def Obligations.UndefinedAccessesStop : Prop :=
  ∀ (s : State) (off width : Nat) (v : Word) (rest : List Input),
    (s.inputs = .read off width :: rest ∨ s.inputs = .write off width v :: rest) →
    (32 ≤ off → step s = .fault .outsideWindow) ∧
    (off < 32 → (width ≠ 4 ∨ off % 4 ≠ 0) → step s = .refused .narrowOrMisaligned)

/-- The platform's byte, placed at any time: the address reads it, every other byte of `RES` and the whole block stay,
and `RES` keeps its canonical form (the model's, log 5). A running command that has still to read the byte reads the new
one: the step that sends it and the step that puts it as a character use the new byte (20_memory.md R53, R55; log 14). -/
def Obligations.PlacedByteIsRead : Prop :=
  ∀ (s : State) (a : Word) (b : Byte) (q : List Input), nextInput s = some (.fillRes a b, q) → Memory.wf s.res →
    ∃ m t, step s = .next t ∧ t = (s.setInputs q).setRes m ∧ Memory.wf m ∧ resRead t a = b ∧
      (∀ a' : Word, a' ≠ a → resRead t a' = resRead s a') ∧
      doAct (.resByte a) t = emitData (.resByte a) b t ∧
      ∀ inverted, doAct (.putRes inverted a) t = putChar inverted b.toNat t

/-- The reset input asserted, in any state: the registers the spec gives a reset value have it, the environment is
untouched, the block is in reset, and a running command is abandoned: with no further input nothing more is ever sent
(10_state.md R38, 70_reset_and_hazards.md R200, R201, R202). -/
def Obligations.ResetInputAbandonsCommand : Prop :=
  ∀ (s : State) (q : List Input), nextInput s = some (.assertReset, q) →
    ∃ t, step s = .next t ∧ t.cur = ⟨0, 0⟩ ∧ t.arg = 0 ∧ t.q = false ∧ t.busy = false ∧
      t.fault = ⟨false, false, false, false⟩ ∧ t.lcdrst = .released ∧ t.trace = [] ∧ t.rst = .asserted ∧
      t.inputs = q ∧ t.params = s.params ∧ t.res = s.res ∧ t.peri = s.peri ∧
      (q = [] → ∀ k, core.run k t = .next t)

/-- While its reset input is asserted the block holds the reset values, whatever the host and the platform do: every
register reads 0, nothing is sent, and no `CMD` write is accepted or dropped. It ends only with the release, which leaves
the block idle with those values (10_state.md R38, 70_reset_and_hazards.md R200; the held writes are log 16). -/
def Obligations.ResetHoldsTheBlock : Prop :=
  ∀ s t : State, Inv s → s.rst = .asserted → step s = .next t →
    AtReset t ∧ (∀ off, regRead off t = 0) ∧ t.inputs.filter Input.isIssue = s.inputs.filter Input.isIssue ∧
    (t.rst = .released ↔ ∃ q, nextInput s = some (.releaseReset, q))

/-- After the end of a run nothing more happens to the block unless the platform resets it: no further event, and `FB`,
`CUR`, `Q` and `FAULT` stay, whatever is still read, placed or written to `ARG` (70_reset_and_hazards.md R216). -/
def Obligations.RunEndedIsFinal : Prop :=
  ∀ s t : State, RunEnded s → step s = .next t →
    RunEnded t ∧ ((∀ q, nextInput s ≠ some (.assertReset, q)) →
      t.trace = s.trace ∧ t.fb = s.fb ∧ t.cur = s.cur ∧ t.q = s.q ∧ t.fault = s.fault ∧ t.dc = s.dc ∧
      t.lcdrst = s.lcdrst)

/-- The state after reset has the values the spec gives, and the reset input is released (10_state.md R38,
70_reset_and_hazards.md R200). -/
def Obligations.ResetValues : Prop :=
  State.reset.cur = ⟨0, 0⟩ ∧ State.reset.arg = 0 ∧ State.reset.q = false ∧ State.reset.busy = false ∧
    State.reset.fault = ⟨false, false, false, false⟩ ∧ State.reset.lcdrst = .released ∧ State.reset.trace = [] ∧
    State.reset.rst = .released

/-- No step changes the parameters, and only the platform changes `RES`: the block never writes it (10_state.md R37,
20_memory.md R54). -/
def Obligations.EnvironmentIsFixed : Prop :=
  ∀ s t : State, step s = .next t →
    t.params = s.params ∧ ((∀ a b q, nextInput s ≠ some (.fillRes a b, q)) → t.res = s.res)

/-- Resource addresses wrap at `2^32`: the address of a character and that of a bitmap's pixel byte are such sums
(20_memory.md R54). -/
def Obligations.ResourceAddressesWrap : Prop :=
  (∀ (base : Word) (off : Nat), (resAddr base off).toNat = (base.toNat + off) % 2 ^ 32) ∧
  (∀ (s : State) (j : Nat), charAt s j = (Memory.read s.res ((s.argl.toNat + j) % 2 ^ 32)).toNat) ∧
  ∀ (s : State) (r k : Nat), bitmapByte s r k =
    Memory.read s.res ((s.argl.toNat + (bitmapOffset s + r * bitmapStride s + k)) % 2 ^ 32)
end

