-- ==== Sys2Proof/Laws/State.lean ====
section
/-! SUPPORT. One lemma per field per named update of State, so that no later proof unfolds an update. -/

namespace Sys2Proof.Machine.State

@[simp] theorem fb_setFb (s : State) (v : Vector Byte 504) : (s.setFb v).fb = v := rfl
@[simp] theorem cur_setFb (s : State) (v : Vector Byte 504) : (s.setFb v).cur = s.cur := rfl
@[simp] theorem arg_setFb (s : State) (v : Vector Byte 504) : (s.setFb v).arg = s.arg := rfl
@[simp] theorem q_setFb (s : State) (v : Vector Byte 504) : (s.setFb v).q = s.q := rfl
@[simp] theorem busy_setFb (s : State) (v : Vector Byte 504) : (s.setFb v).busy = s.busy := rfl
@[simp] theorem fault_setFb (s : State) (v : Vector Byte 504) : (s.setFb v).fault = s.fault := rfl
@[simp] theorem dc_setFb (s : State) (v : Vector Byte 504) : (s.setFb v).dc = s.dc := rfl
@[simp] theorem lcdrst_setFb (s : State) (v : Vector Byte 504) : (s.setFb v).lcdrst = s.lcdrst := rfl
@[simp] theorem rst_setFb (s : State) (v : Vector Byte 504) : (s.setFb v).rst = s.rst := rfl
@[simp] theorem opw_setFb (s : State) (v : Vector Byte 504) : (s.setFb v).opw = s.opw := rfl
@[simp] theorem argl_setFb (s : State) (v : Vector Byte 504) : (s.setFb v).argl = s.argl := rfl
@[simp] theorem seq_setFb (s : State) (v : Vector Byte 504) : (s.setFb v).seq = s.seq := rfl
@[simp] theorem params_setFb (s : State) (v : Vector Byte 504) : (s.setFb v).params = s.params := rfl
@[simp] theorem res_setFb (s : State) (v : Vector Byte 504) : (s.setFb v).res = s.res := rfl
@[simp] theorem peri_setFb (s : State) (v : Vector Byte 504) : (s.setFb v).peri = s.peri := rfl
@[simp] theorem inputs_setFb (s : State) (v : Vector Byte 504) : (s.setFb v).inputs = s.inputs := rfl
@[simp] theorem trace_setFb (s : State) (v : Vector Byte 504) : (s.setFb v).trace = s.trace := rfl
@[simp] theorem reads_setFb (s : State) (v : Vector Byte 504) : (s.setFb v).reads = s.reads := rfl
@[simp] theorem quiet_setFb (s : State) (v : Vector Byte 504) : (s.setFb v).quiet = s.quiet := rfl
@[simp] theorem dcSafe_setFb (s : State) (v : Vector Byte 504) : (s.setFb v).dcSafe = s.dcSafe := rfl
@[simp] theorem resets_setFb (s : State) (v : Vector Byte 504) : (s.setFb v).resets = s.resets := rfl

@[simp] theorem fb_setCur (s : State) (v : Cursor) : (s.setCur v).fb = s.fb := rfl
@[simp] theorem cur_setCur (s : State) (v : Cursor) : (s.setCur v).cur = v := rfl
@[simp] theorem arg_setCur (s : State) (v : Cursor) : (s.setCur v).arg = s.arg := rfl
@[simp] theorem q_setCur (s : State) (v : Cursor) : (s.setCur v).q = s.q := rfl
@[simp] theorem busy_setCur (s : State) (v : Cursor) : (s.setCur v).busy = s.busy := rfl
@[simp] theorem fault_setCur (s : State) (v : Cursor) : (s.setCur v).fault = s.fault := rfl
@[simp] theorem dc_setCur (s : State) (v : Cursor) : (s.setCur v).dc = s.dc := rfl
@[simp] theorem lcdrst_setCur (s : State) (v : Cursor) : (s.setCur v).lcdrst = s.lcdrst := rfl
@[simp] theorem rst_setCur (s : State) (v : Cursor) : (s.setCur v).rst = s.rst := rfl
@[simp] theorem opw_setCur (s : State) (v : Cursor) : (s.setCur v).opw = s.opw := rfl
@[simp] theorem argl_setCur (s : State) (v : Cursor) : (s.setCur v).argl = s.argl := rfl
@[simp] theorem seq_setCur (s : State) (v : Cursor) : (s.setCur v).seq = s.seq := rfl
@[simp] theorem params_setCur (s : State) (v : Cursor) : (s.setCur v).params = s.params := rfl
@[simp] theorem res_setCur (s : State) (v : Cursor) : (s.setCur v).res = s.res := rfl
@[simp] theorem peri_setCur (s : State) (v : Cursor) : (s.setCur v).peri = s.peri := rfl
@[simp] theorem inputs_setCur (s : State) (v : Cursor) : (s.setCur v).inputs = s.inputs := rfl
@[simp] theorem trace_setCur (s : State) (v : Cursor) : (s.setCur v).trace = s.trace := rfl
@[simp] theorem reads_setCur (s : State) (v : Cursor) : (s.setCur v).reads = s.reads := rfl
@[simp] theorem quiet_setCur (s : State) (v : Cursor) : (s.setCur v).quiet = s.quiet := rfl
@[simp] theorem dcSafe_setCur (s : State) (v : Cursor) : (s.setCur v).dcSafe = s.dcSafe := rfl
@[simp] theorem resets_setCur (s : State) (v : Cursor) : (s.setCur v).resets = s.resets := rfl

@[simp] theorem fb_setArg (s : State) (v : Word) : (s.setArg v).fb = s.fb := rfl
@[simp] theorem cur_setArg (s : State) (v : Word) : (s.setArg v).cur = s.cur := rfl
@[simp] theorem arg_setArg (s : State) (v : Word) : (s.setArg v).arg = v := rfl
@[simp] theorem q_setArg (s : State) (v : Word) : (s.setArg v).q = s.q := rfl
@[simp] theorem busy_setArg (s : State) (v : Word) : (s.setArg v).busy = s.busy := rfl
@[simp] theorem fault_setArg (s : State) (v : Word) : (s.setArg v).fault = s.fault := rfl
@[simp] theorem dc_setArg (s : State) (v : Word) : (s.setArg v).dc = s.dc := rfl
@[simp] theorem lcdrst_setArg (s : State) (v : Word) : (s.setArg v).lcdrst = s.lcdrst := rfl
@[simp] theorem rst_setArg (s : State) (v : Word) : (s.setArg v).rst = s.rst := rfl
@[simp] theorem opw_setArg (s : State) (v : Word) : (s.setArg v).opw = s.opw := rfl
@[simp] theorem argl_setArg (s : State) (v : Word) : (s.setArg v).argl = s.argl := rfl
@[simp] theorem seq_setArg (s : State) (v : Word) : (s.setArg v).seq = s.seq := rfl
@[simp] theorem params_setArg (s : State) (v : Word) : (s.setArg v).params = s.params := rfl
@[simp] theorem res_setArg (s : State) (v : Word) : (s.setArg v).res = s.res := rfl
@[simp] theorem peri_setArg (s : State) (v : Word) : (s.setArg v).peri = s.peri := rfl
@[simp] theorem inputs_setArg (s : State) (v : Word) : (s.setArg v).inputs = s.inputs := rfl
@[simp] theorem trace_setArg (s : State) (v : Word) : (s.setArg v).trace = s.trace := rfl
@[simp] theorem reads_setArg (s : State) (v : Word) : (s.setArg v).reads = s.reads := rfl
@[simp] theorem quiet_setArg (s : State) (v : Word) : (s.setArg v).quiet = s.quiet := rfl
@[simp] theorem dcSafe_setArg (s : State) (v : Word) : (s.setArg v).dcSafe = s.dcSafe := rfl
@[simp] theorem resets_setArg (s : State) (v : Word) : (s.setArg v).resets = s.resets := rfl

@[simp] theorem fb_setQ (s : State) (v : Bool) : (s.setQ v).fb = s.fb := rfl
@[simp] theorem cur_setQ (s : State) (v : Bool) : (s.setQ v).cur = s.cur := rfl
@[simp] theorem arg_setQ (s : State) (v : Bool) : (s.setQ v).arg = s.arg := rfl
@[simp] theorem q_setQ (s : State) (v : Bool) : (s.setQ v).q = v := rfl
@[simp] theorem busy_setQ (s : State) (v : Bool) : (s.setQ v).busy = s.busy := rfl
@[simp] theorem fault_setQ (s : State) (v : Bool) : (s.setQ v).fault = s.fault := rfl
@[simp] theorem dc_setQ (s : State) (v : Bool) : (s.setQ v).dc = s.dc := rfl
@[simp] theorem lcdrst_setQ (s : State) (v : Bool) : (s.setQ v).lcdrst = s.lcdrst := rfl
@[simp] theorem rst_setQ (s : State) (v : Bool) : (s.setQ v).rst = s.rst := rfl
@[simp] theorem opw_setQ (s : State) (v : Bool) : (s.setQ v).opw = s.opw := rfl
@[simp] theorem argl_setQ (s : State) (v : Bool) : (s.setQ v).argl = s.argl := rfl
@[simp] theorem seq_setQ (s : State) (v : Bool) : (s.setQ v).seq = s.seq := rfl
@[simp] theorem params_setQ (s : State) (v : Bool) : (s.setQ v).params = s.params := rfl
@[simp] theorem res_setQ (s : State) (v : Bool) : (s.setQ v).res = s.res := rfl
@[simp] theorem peri_setQ (s : State) (v : Bool) : (s.setQ v).peri = s.peri := rfl
@[simp] theorem inputs_setQ (s : State) (v : Bool) : (s.setQ v).inputs = s.inputs := rfl
@[simp] theorem trace_setQ (s : State) (v : Bool) : (s.setQ v).trace = s.trace := rfl
@[simp] theorem reads_setQ (s : State) (v : Bool) : (s.setQ v).reads = s.reads := rfl
@[simp] theorem quiet_setQ (s : State) (v : Bool) : (s.setQ v).quiet = s.quiet := rfl
@[simp] theorem dcSafe_setQ (s : State) (v : Bool) : (s.setQ v).dcSafe = s.dcSafe := rfl
@[simp] theorem resets_setQ (s : State) (v : Bool) : (s.setQ v).resets = s.resets := rfl

@[simp] theorem fb_setBusy (s : State) (v : Bool) : (s.setBusy v).fb = s.fb := rfl
@[simp] theorem cur_setBusy (s : State) (v : Bool) : (s.setBusy v).cur = s.cur := rfl
@[simp] theorem arg_setBusy (s : State) (v : Bool) : (s.setBusy v).arg = s.arg := rfl
@[simp] theorem q_setBusy (s : State) (v : Bool) : (s.setBusy v).q = s.q := rfl
@[simp] theorem busy_setBusy (s : State) (v : Bool) : (s.setBusy v).busy = v := rfl
@[simp] theorem fault_setBusy (s : State) (v : Bool) : (s.setBusy v).fault = s.fault := rfl
@[simp] theorem dc_setBusy (s : State) (v : Bool) : (s.setBusy v).dc = s.dc := rfl
@[simp] theorem lcdrst_setBusy (s : State) (v : Bool) : (s.setBusy v).lcdrst = s.lcdrst := rfl
@[simp] theorem rst_setBusy (s : State) (v : Bool) : (s.setBusy v).rst = s.rst := rfl
@[simp] theorem opw_setBusy (s : State) (v : Bool) : (s.setBusy v).opw = s.opw := rfl
@[simp] theorem argl_setBusy (s : State) (v : Bool) : (s.setBusy v).argl = s.argl := rfl
@[simp] theorem seq_setBusy (s : State) (v : Bool) : (s.setBusy v).seq = s.seq := rfl
@[simp] theorem params_setBusy (s : State) (v : Bool) : (s.setBusy v).params = s.params := rfl
@[simp] theorem res_setBusy (s : State) (v : Bool) : (s.setBusy v).res = s.res := rfl
@[simp] theorem peri_setBusy (s : State) (v : Bool) : (s.setBusy v).peri = s.peri := rfl
@[simp] theorem inputs_setBusy (s : State) (v : Bool) : (s.setBusy v).inputs = s.inputs := rfl
@[simp] theorem trace_setBusy (s : State) (v : Bool) : (s.setBusy v).trace = s.trace := rfl
@[simp] theorem reads_setBusy (s : State) (v : Bool) : (s.setBusy v).reads = s.reads := rfl
@[simp] theorem quiet_setBusy (s : State) (v : Bool) : (s.setBusy v).quiet = s.quiet := rfl
@[simp] theorem dcSafe_setBusy (s : State) (v : Bool) : (s.setBusy v).dcSafe = s.dcSafe := rfl
@[simp] theorem resets_setBusy (s : State) (v : Bool) : (s.setBusy v).resets = s.resets := rfl

@[simp] theorem fb_setFault (s : State) (v : FaultBits) : (s.setFault v).fb = s.fb := rfl
@[simp] theorem cur_setFault (s : State) (v : FaultBits) : (s.setFault v).cur = s.cur := rfl
@[simp] theorem arg_setFault (s : State) (v : FaultBits) : (s.setFault v).arg = s.arg := rfl
@[simp] theorem q_setFault (s : State) (v : FaultBits) : (s.setFault v).q = s.q := rfl
@[simp] theorem busy_setFault (s : State) (v : FaultBits) : (s.setFault v).busy = s.busy := rfl
@[simp] theorem fault_setFault (s : State) (v : FaultBits) : (s.setFault v).fault = v := rfl
@[simp] theorem dc_setFault (s : State) (v : FaultBits) : (s.setFault v).dc = s.dc := rfl
@[simp] theorem lcdrst_setFault (s : State) (v : FaultBits) : (s.setFault v).lcdrst = s.lcdrst := rfl
@[simp] theorem rst_setFault (s : State) (v : FaultBits) : (s.setFault v).rst = s.rst := rfl
@[simp] theorem opw_setFault (s : State) (v : FaultBits) : (s.setFault v).opw = s.opw := rfl
@[simp] theorem argl_setFault (s : State) (v : FaultBits) : (s.setFault v).argl = s.argl := rfl
@[simp] theorem seq_setFault (s : State) (v : FaultBits) : (s.setFault v).seq = s.seq := rfl
@[simp] theorem params_setFault (s : State) (v : FaultBits) : (s.setFault v).params = s.params := rfl
@[simp] theorem res_setFault (s : State) (v : FaultBits) : (s.setFault v).res = s.res := rfl
@[simp] theorem peri_setFault (s : State) (v : FaultBits) : (s.setFault v).peri = s.peri := rfl
@[simp] theorem inputs_setFault (s : State) (v : FaultBits) : (s.setFault v).inputs = s.inputs := rfl
@[simp] theorem trace_setFault (s : State) (v : FaultBits) : (s.setFault v).trace = s.trace := rfl
@[simp] theorem reads_setFault (s : State) (v : FaultBits) : (s.setFault v).reads = s.reads := rfl
@[simp] theorem quiet_setFault (s : State) (v : FaultBits) : (s.setFault v).quiet = s.quiet := rfl
@[simp] theorem dcSafe_setFault (s : State) (v : FaultBits) : (s.setFault v).dcSafe = s.dcSafe := rfl
@[simp] theorem resets_setFault (s : State) (v : FaultBits) : (s.setFault v).resets = s.resets := rfl

@[simp] theorem fb_setDc (s : State) (v : Select) : (s.setDc v).fb = s.fb := rfl
@[simp] theorem cur_setDc (s : State) (v : Select) : (s.setDc v).cur = s.cur := rfl
@[simp] theorem arg_setDc (s : State) (v : Select) : (s.setDc v).arg = s.arg := rfl
@[simp] theorem q_setDc (s : State) (v : Select) : (s.setDc v).q = s.q := rfl
@[simp] theorem busy_setDc (s : State) (v : Select) : (s.setDc v).busy = s.busy := rfl
@[simp] theorem fault_setDc (s : State) (v : Select) : (s.setDc v).fault = s.fault := rfl
@[simp] theorem dc_setDc (s : State) (v : Select) : (s.setDc v).dc = v := rfl
@[simp] theorem lcdrst_setDc (s : State) (v : Select) : (s.setDc v).lcdrst = s.lcdrst := rfl
@[simp] theorem rst_setDc (s : State) (v : Select) : (s.setDc v).rst = s.rst := rfl
@[simp] theorem opw_setDc (s : State) (v : Select) : (s.setDc v).opw = s.opw := rfl
@[simp] theorem argl_setDc (s : State) (v : Select) : (s.setDc v).argl = s.argl := rfl
@[simp] theorem seq_setDc (s : State) (v : Select) : (s.setDc v).seq = s.seq := rfl
@[simp] theorem params_setDc (s : State) (v : Select) : (s.setDc v).params = s.params := rfl
@[simp] theorem res_setDc (s : State) (v : Select) : (s.setDc v).res = s.res := rfl
@[simp] theorem peri_setDc (s : State) (v : Select) : (s.setDc v).peri = s.peri := rfl
@[simp] theorem inputs_setDc (s : State) (v : Select) : (s.setDc v).inputs = s.inputs := rfl
@[simp] theorem trace_setDc (s : State) (v : Select) : (s.setDc v).trace = s.trace := rfl
@[simp] theorem reads_setDc (s : State) (v : Select) : (s.setDc v).reads = s.reads := rfl
@[simp] theorem quiet_setDc (s : State) (v : Select) : (s.setDc v).quiet = s.quiet := rfl
@[simp] theorem dcSafe_setDc (s : State) (v : Select) : (s.setDc v).dcSafe = s.dcSafe := rfl
@[simp] theorem resets_setDc (s : State) (v : Select) : (s.setDc v).resets = s.resets := rfl

@[simp] theorem fb_setLcdrst (s : State) (v : ResetLine) : (s.setLcdrst v).fb = s.fb := rfl
@[simp] theorem cur_setLcdrst (s : State) (v : ResetLine) : (s.setLcdrst v).cur = s.cur := rfl
@[simp] theorem arg_setLcdrst (s : State) (v : ResetLine) : (s.setLcdrst v).arg = s.arg := rfl
@[simp] theorem q_setLcdrst (s : State) (v : ResetLine) : (s.setLcdrst v).q = s.q := rfl
@[simp] theorem busy_setLcdrst (s : State) (v : ResetLine) : (s.setLcdrst v).busy = s.busy := rfl
@[simp] theorem fault_setLcdrst (s : State) (v : ResetLine) : (s.setLcdrst v).fault = s.fault := rfl
@[simp] theorem dc_setLcdrst (s : State) (v : ResetLine) : (s.setLcdrst v).dc = s.dc := rfl
@[simp] theorem lcdrst_setLcdrst (s : State) (v : ResetLine) : (s.setLcdrst v).lcdrst = v := rfl
@[simp] theorem rst_setLcdrst (s : State) (v : ResetLine) : (s.setLcdrst v).rst = s.rst := rfl
@[simp] theorem opw_setLcdrst (s : State) (v : ResetLine) : (s.setLcdrst v).opw = s.opw := rfl
@[simp] theorem argl_setLcdrst (s : State) (v : ResetLine) : (s.setLcdrst v).argl = s.argl := rfl
@[simp] theorem seq_setLcdrst (s : State) (v : ResetLine) : (s.setLcdrst v).seq = s.seq := rfl
@[simp] theorem params_setLcdrst (s : State) (v : ResetLine) : (s.setLcdrst v).params = s.params := rfl
@[simp] theorem res_setLcdrst (s : State) (v : ResetLine) : (s.setLcdrst v).res = s.res := rfl
@[simp] theorem peri_setLcdrst (s : State) (v : ResetLine) : (s.setLcdrst v).peri = s.peri := rfl
@[simp] theorem inputs_setLcdrst (s : State) (v : ResetLine) : (s.setLcdrst v).inputs = s.inputs := rfl
@[simp] theorem trace_setLcdrst (s : State) (v : ResetLine) : (s.setLcdrst v).trace = s.trace := rfl
@[simp] theorem reads_setLcdrst (s : State) (v : ResetLine) : (s.setLcdrst v).reads = s.reads := rfl
@[simp] theorem quiet_setLcdrst (s : State) (v : ResetLine) : (s.setLcdrst v).quiet = s.quiet := rfl
@[simp] theorem dcSafe_setLcdrst (s : State) (v : ResetLine) : (s.setLcdrst v).dcSafe = s.dcSafe := rfl
@[simp] theorem resets_setLcdrst (s : State) (v : ResetLine) : (s.setLcdrst v).resets = s.resets := rfl

@[simp] theorem fb_setRst (s : State) (v : ResetLine) : (s.setRst v).fb = s.fb := rfl
@[simp] theorem cur_setRst (s : State) (v : ResetLine) : (s.setRst v).cur = s.cur := rfl
@[simp] theorem arg_setRst (s : State) (v : ResetLine) : (s.setRst v).arg = s.arg := rfl
@[simp] theorem q_setRst (s : State) (v : ResetLine) : (s.setRst v).q = s.q := rfl
@[simp] theorem busy_setRst (s : State) (v : ResetLine) : (s.setRst v).busy = s.busy := rfl
@[simp] theorem fault_setRst (s : State) (v : ResetLine) : (s.setRst v).fault = s.fault := rfl
@[simp] theorem dc_setRst (s : State) (v : ResetLine) : (s.setRst v).dc = s.dc := rfl
@[simp] theorem lcdrst_setRst (s : State) (v : ResetLine) : (s.setRst v).lcdrst = s.lcdrst := rfl
@[simp] theorem rst_setRst (s : State) (v : ResetLine) : (s.setRst v).rst = v := rfl
@[simp] theorem opw_setRst (s : State) (v : ResetLine) : (s.setRst v).opw = s.opw := rfl
@[simp] theorem argl_setRst (s : State) (v : ResetLine) : (s.setRst v).argl = s.argl := rfl
@[simp] theorem seq_setRst (s : State) (v : ResetLine) : (s.setRst v).seq = s.seq := rfl
@[simp] theorem params_setRst (s : State) (v : ResetLine) : (s.setRst v).params = s.params := rfl
@[simp] theorem res_setRst (s : State) (v : ResetLine) : (s.setRst v).res = s.res := rfl
@[simp] theorem peri_setRst (s : State) (v : ResetLine) : (s.setRst v).peri = s.peri := rfl
@[simp] theorem inputs_setRst (s : State) (v : ResetLine) : (s.setRst v).inputs = s.inputs := rfl
@[simp] theorem trace_setRst (s : State) (v : ResetLine) : (s.setRst v).trace = s.trace := rfl
@[simp] theorem reads_setRst (s : State) (v : ResetLine) : (s.setRst v).reads = s.reads := rfl
@[simp] theorem quiet_setRst (s : State) (v : ResetLine) : (s.setRst v).quiet = s.quiet := rfl
@[simp] theorem dcSafe_setRst (s : State) (v : ResetLine) : (s.setRst v).dcSafe = s.dcSafe := rfl
@[simp] theorem resets_setRst (s : State) (v : ResetLine) : (s.setRst v).resets = s.resets := rfl

@[simp] theorem fb_setOpw (s : State) (v : Word) : (s.setOpw v).fb = s.fb := rfl
@[simp] theorem cur_setOpw (s : State) (v : Word) : (s.setOpw v).cur = s.cur := rfl
@[simp] theorem arg_setOpw (s : State) (v : Word) : (s.setOpw v).arg = s.arg := rfl
@[simp] theorem q_setOpw (s : State) (v : Word) : (s.setOpw v).q = s.q := rfl
@[simp] theorem busy_setOpw (s : State) (v : Word) : (s.setOpw v).busy = s.busy := rfl
@[simp] theorem fault_setOpw (s : State) (v : Word) : (s.setOpw v).fault = s.fault := rfl
@[simp] theorem dc_setOpw (s : State) (v : Word) : (s.setOpw v).dc = s.dc := rfl
@[simp] theorem lcdrst_setOpw (s : State) (v : Word) : (s.setOpw v).lcdrst = s.lcdrst := rfl
@[simp] theorem rst_setOpw (s : State) (v : Word) : (s.setOpw v).rst = s.rst := rfl
@[simp] theorem opw_setOpw (s : State) (v : Word) : (s.setOpw v).opw = v := rfl
@[simp] theorem argl_setOpw (s : State) (v : Word) : (s.setOpw v).argl = s.argl := rfl
@[simp] theorem seq_setOpw (s : State) (v : Word) : (s.setOpw v).seq = s.seq := rfl
@[simp] theorem params_setOpw (s : State) (v : Word) : (s.setOpw v).params = s.params := rfl
@[simp] theorem res_setOpw (s : State) (v : Word) : (s.setOpw v).res = s.res := rfl
@[simp] theorem peri_setOpw (s : State) (v : Word) : (s.setOpw v).peri = s.peri := rfl
@[simp] theorem inputs_setOpw (s : State) (v : Word) : (s.setOpw v).inputs = s.inputs := rfl
@[simp] theorem trace_setOpw (s : State) (v : Word) : (s.setOpw v).trace = s.trace := rfl
@[simp] theorem reads_setOpw (s : State) (v : Word) : (s.setOpw v).reads = s.reads := rfl
@[simp] theorem quiet_setOpw (s : State) (v : Word) : (s.setOpw v).quiet = s.quiet := rfl
@[simp] theorem dcSafe_setOpw (s : State) (v : Word) : (s.setOpw v).dcSafe = s.dcSafe := rfl
@[simp] theorem resets_setOpw (s : State) (v : Word) : (s.setOpw v).resets = s.resets := rfl

@[simp] theorem fb_setArgl (s : State) (v : Word) : (s.setArgl v).fb = s.fb := rfl
@[simp] theorem cur_setArgl (s : State) (v : Word) : (s.setArgl v).cur = s.cur := rfl
@[simp] theorem arg_setArgl (s : State) (v : Word) : (s.setArgl v).arg = s.arg := rfl
@[simp] theorem q_setArgl (s : State) (v : Word) : (s.setArgl v).q = s.q := rfl
@[simp] theorem busy_setArgl (s : State) (v : Word) : (s.setArgl v).busy = s.busy := rfl
@[simp] theorem fault_setArgl (s : State) (v : Word) : (s.setArgl v).fault = s.fault := rfl
@[simp] theorem dc_setArgl (s : State) (v : Word) : (s.setArgl v).dc = s.dc := rfl
@[simp] theorem lcdrst_setArgl (s : State) (v : Word) : (s.setArgl v).lcdrst = s.lcdrst := rfl
@[simp] theorem rst_setArgl (s : State) (v : Word) : (s.setArgl v).rst = s.rst := rfl
@[simp] theorem opw_setArgl (s : State) (v : Word) : (s.setArgl v).opw = s.opw := rfl
@[simp] theorem argl_setArgl (s : State) (v : Word) : (s.setArgl v).argl = v := rfl
@[simp] theorem seq_setArgl (s : State) (v : Word) : (s.setArgl v).seq = s.seq := rfl
@[simp] theorem params_setArgl (s : State) (v : Word) : (s.setArgl v).params = s.params := rfl
@[simp] theorem res_setArgl (s : State) (v : Word) : (s.setArgl v).res = s.res := rfl
@[simp] theorem peri_setArgl (s : State) (v : Word) : (s.setArgl v).peri = s.peri := rfl
@[simp] theorem inputs_setArgl (s : State) (v : Word) : (s.setArgl v).inputs = s.inputs := rfl
@[simp] theorem trace_setArgl (s : State) (v : Word) : (s.setArgl v).trace = s.trace := rfl
@[simp] theorem reads_setArgl (s : State) (v : Word) : (s.setArgl v).reads = s.reads := rfl
@[simp] theorem quiet_setArgl (s : State) (v : Word) : (s.setArgl v).quiet = s.quiet := rfl
@[simp] theorem dcSafe_setArgl (s : State) (v : Word) : (s.setArgl v).dcSafe = s.dcSafe := rfl
@[simp] theorem resets_setArgl (s : State) (v : Word) : (s.setArgl v).resets = s.resets := rfl

@[simp] theorem fb_setSeq (s : State) (v : Seq) : (s.setSeq v).fb = s.fb := rfl
@[simp] theorem cur_setSeq (s : State) (v : Seq) : (s.setSeq v).cur = s.cur := rfl
@[simp] theorem arg_setSeq (s : State) (v : Seq) : (s.setSeq v).arg = s.arg := rfl
@[simp] theorem q_setSeq (s : State) (v : Seq) : (s.setSeq v).q = s.q := rfl
@[simp] theorem busy_setSeq (s : State) (v : Seq) : (s.setSeq v).busy = s.busy := rfl
@[simp] theorem fault_setSeq (s : State) (v : Seq) : (s.setSeq v).fault = s.fault := rfl
@[simp] theorem dc_setSeq (s : State) (v : Seq) : (s.setSeq v).dc = s.dc := rfl
@[simp] theorem lcdrst_setSeq (s : State) (v : Seq) : (s.setSeq v).lcdrst = s.lcdrst := rfl
@[simp] theorem rst_setSeq (s : State) (v : Seq) : (s.setSeq v).rst = s.rst := rfl
@[simp] theorem opw_setSeq (s : State) (v : Seq) : (s.setSeq v).opw = s.opw := rfl
@[simp] theorem argl_setSeq (s : State) (v : Seq) : (s.setSeq v).argl = s.argl := rfl
@[simp] theorem seq_setSeq (s : State) (v : Seq) : (s.setSeq v).seq = v := rfl
@[simp] theorem params_setSeq (s : State) (v : Seq) : (s.setSeq v).params = s.params := rfl
@[simp] theorem res_setSeq (s : State) (v : Seq) : (s.setSeq v).res = s.res := rfl
@[simp] theorem peri_setSeq (s : State) (v : Seq) : (s.setSeq v).peri = s.peri := rfl
@[simp] theorem inputs_setSeq (s : State) (v : Seq) : (s.setSeq v).inputs = s.inputs := rfl
@[simp] theorem trace_setSeq (s : State) (v : Seq) : (s.setSeq v).trace = s.trace := rfl
@[simp] theorem reads_setSeq (s : State) (v : Seq) : (s.setSeq v).reads = s.reads := rfl
@[simp] theorem quiet_setSeq (s : State) (v : Seq) : (s.setSeq v).quiet = s.quiet := rfl
@[simp] theorem dcSafe_setSeq (s : State) (v : Seq) : (s.setSeq v).dcSafe = s.dcSafe := rfl
@[simp] theorem resets_setSeq (s : State) (v : Seq) : (s.setSeq v).resets = s.resets := rfl

@[simp] theorem fb_setRes (s : State) (v : Memory) : (s.setRes v).fb = s.fb := rfl
@[simp] theorem cur_setRes (s : State) (v : Memory) : (s.setRes v).cur = s.cur := rfl
@[simp] theorem arg_setRes (s : State) (v : Memory) : (s.setRes v).arg = s.arg := rfl
@[simp] theorem q_setRes (s : State) (v : Memory) : (s.setRes v).q = s.q := rfl
@[simp] theorem busy_setRes (s : State) (v : Memory) : (s.setRes v).busy = s.busy := rfl
@[simp] theorem fault_setRes (s : State) (v : Memory) : (s.setRes v).fault = s.fault := rfl
@[simp] theorem dc_setRes (s : State) (v : Memory) : (s.setRes v).dc = s.dc := rfl
@[simp] theorem lcdrst_setRes (s : State) (v : Memory) : (s.setRes v).lcdrst = s.lcdrst := rfl
@[simp] theorem rst_setRes (s : State) (v : Memory) : (s.setRes v).rst = s.rst := rfl
@[simp] theorem opw_setRes (s : State) (v : Memory) : (s.setRes v).opw = s.opw := rfl
@[simp] theorem argl_setRes (s : State) (v : Memory) : (s.setRes v).argl = s.argl := rfl
@[simp] theorem seq_setRes (s : State) (v : Memory) : (s.setRes v).seq = s.seq := rfl
@[simp] theorem params_setRes (s : State) (v : Memory) : (s.setRes v).params = s.params := rfl
@[simp] theorem res_setRes (s : State) (v : Memory) : (s.setRes v).res = v := rfl
@[simp] theorem peri_setRes (s : State) (v : Memory) : (s.setRes v).peri = s.peri := rfl
@[simp] theorem inputs_setRes (s : State) (v : Memory) : (s.setRes v).inputs = s.inputs := rfl
@[simp] theorem trace_setRes (s : State) (v : Memory) : (s.setRes v).trace = s.trace := rfl
@[simp] theorem reads_setRes (s : State) (v : Memory) : (s.setRes v).reads = s.reads := rfl
@[simp] theorem quiet_setRes (s : State) (v : Memory) : (s.setRes v).quiet = s.quiet := rfl
@[simp] theorem dcSafe_setRes (s : State) (v : Memory) : (s.setRes v).dcSafe = s.dcSafe := rfl
@[simp] theorem resets_setRes (s : State) (v : Memory) : (s.setRes v).resets = s.resets := rfl

@[simp] theorem fb_setPeri (s : State) (v : Peripheral) : (s.setPeri v).fb = s.fb := rfl
@[simp] theorem cur_setPeri (s : State) (v : Peripheral) : (s.setPeri v).cur = s.cur := rfl
@[simp] theorem arg_setPeri (s : State) (v : Peripheral) : (s.setPeri v).arg = s.arg := rfl
@[simp] theorem q_setPeri (s : State) (v : Peripheral) : (s.setPeri v).q = s.q := rfl
@[simp] theorem busy_setPeri (s : State) (v : Peripheral) : (s.setPeri v).busy = s.busy := rfl
@[simp] theorem fault_setPeri (s : State) (v : Peripheral) : (s.setPeri v).fault = s.fault := rfl
@[simp] theorem dc_setPeri (s : State) (v : Peripheral) : (s.setPeri v).dc = s.dc := rfl
@[simp] theorem lcdrst_setPeri (s : State) (v : Peripheral) : (s.setPeri v).lcdrst = s.lcdrst := rfl
@[simp] theorem rst_setPeri (s : State) (v : Peripheral) : (s.setPeri v).rst = s.rst := rfl
@[simp] theorem opw_setPeri (s : State) (v : Peripheral) : (s.setPeri v).opw = s.opw := rfl
@[simp] theorem argl_setPeri (s : State) (v : Peripheral) : (s.setPeri v).argl = s.argl := rfl
@[simp] theorem seq_setPeri (s : State) (v : Peripheral) : (s.setPeri v).seq = s.seq := rfl
@[simp] theorem params_setPeri (s : State) (v : Peripheral) : (s.setPeri v).params = s.params := rfl
@[simp] theorem res_setPeri (s : State) (v : Peripheral) : (s.setPeri v).res = s.res := rfl
@[simp] theorem peri_setPeri (s : State) (v : Peripheral) : (s.setPeri v).peri = v := rfl
@[simp] theorem inputs_setPeri (s : State) (v : Peripheral) : (s.setPeri v).inputs = s.inputs := rfl
@[simp] theorem trace_setPeri (s : State) (v : Peripheral) : (s.setPeri v).trace = s.trace := rfl
@[simp] theorem reads_setPeri (s : State) (v : Peripheral) : (s.setPeri v).reads = s.reads := rfl
@[simp] theorem quiet_setPeri (s : State) (v : Peripheral) : (s.setPeri v).quiet = s.quiet := rfl
@[simp] theorem dcSafe_setPeri (s : State) (v : Peripheral) : (s.setPeri v).dcSafe = s.dcSafe := rfl
@[simp] theorem resets_setPeri (s : State) (v : Peripheral) : (s.setPeri v).resets = s.resets := rfl

@[simp] theorem fb_setInputs (s : State) (v : List Input) : (s.setInputs v).fb = s.fb := rfl
@[simp] theorem cur_setInputs (s : State) (v : List Input) : (s.setInputs v).cur = s.cur := rfl
@[simp] theorem arg_setInputs (s : State) (v : List Input) : (s.setInputs v).arg = s.arg := rfl
@[simp] theorem q_setInputs (s : State) (v : List Input) : (s.setInputs v).q = s.q := rfl
@[simp] theorem busy_setInputs (s : State) (v : List Input) : (s.setInputs v).busy = s.busy := rfl
@[simp] theorem fault_setInputs (s : State) (v : List Input) : (s.setInputs v).fault = s.fault := rfl
@[simp] theorem dc_setInputs (s : State) (v : List Input) : (s.setInputs v).dc = s.dc := rfl
@[simp] theorem lcdrst_setInputs (s : State) (v : List Input) : (s.setInputs v).lcdrst = s.lcdrst := rfl
@[simp] theorem rst_setInputs (s : State) (v : List Input) : (s.setInputs v).rst = s.rst := rfl
@[simp] theorem opw_setInputs (s : State) (v : List Input) : (s.setInputs v).opw = s.opw := rfl
@[simp] theorem argl_setInputs (s : State) (v : List Input) : (s.setInputs v).argl = s.argl := rfl
@[simp] theorem seq_setInputs (s : State) (v : List Input) : (s.setInputs v).seq = s.seq := rfl
@[simp] theorem params_setInputs (s : State) (v : List Input) : (s.setInputs v).params = s.params := rfl
@[simp] theorem res_setInputs (s : State) (v : List Input) : (s.setInputs v).res = s.res := rfl
@[simp] theorem peri_setInputs (s : State) (v : List Input) : (s.setInputs v).peri = s.peri := rfl
@[simp] theorem inputs_setInputs (s : State) (v : List Input) : (s.setInputs v).inputs = v := rfl
@[simp] theorem trace_setInputs (s : State) (v : List Input) : (s.setInputs v).trace = s.trace := rfl
@[simp] theorem reads_setInputs (s : State) (v : List Input) : (s.setInputs v).reads = s.reads := rfl
@[simp] theorem quiet_setInputs (s : State) (v : List Input) : (s.setInputs v).quiet = s.quiet := rfl
@[simp] theorem dcSafe_setInputs (s : State) (v : List Input) : (s.setInputs v).dcSafe = s.dcSafe := rfl
@[simp] theorem resets_setInputs (s : State) (v : List Input) : (s.setInputs v).resets = s.resets := rfl

@[simp] theorem fb_setTrace (s : State) (v : List Event) : (s.setTrace v).fb = s.fb := rfl
@[simp] theorem cur_setTrace (s : State) (v : List Event) : (s.setTrace v).cur = s.cur := rfl
@[simp] theorem arg_setTrace (s : State) (v : List Event) : (s.setTrace v).arg = s.arg := rfl
@[simp] theorem q_setTrace (s : State) (v : List Event) : (s.setTrace v).q = s.q := rfl
@[simp] theorem busy_setTrace (s : State) (v : List Event) : (s.setTrace v).busy = s.busy := rfl
@[simp] theorem fault_setTrace (s : State) (v : List Event) : (s.setTrace v).fault = s.fault := rfl
@[simp] theorem dc_setTrace (s : State) (v : List Event) : (s.setTrace v).dc = s.dc := rfl
@[simp] theorem lcdrst_setTrace (s : State) (v : List Event) : (s.setTrace v).lcdrst = s.lcdrst := rfl
@[simp] theorem rst_setTrace (s : State) (v : List Event) : (s.setTrace v).rst = s.rst := rfl
@[simp] theorem opw_setTrace (s : State) (v : List Event) : (s.setTrace v).opw = s.opw := rfl
@[simp] theorem argl_setTrace (s : State) (v : List Event) : (s.setTrace v).argl = s.argl := rfl
@[simp] theorem seq_setTrace (s : State) (v : List Event) : (s.setTrace v).seq = s.seq := rfl
@[simp] theorem params_setTrace (s : State) (v : List Event) : (s.setTrace v).params = s.params := rfl
@[simp] theorem res_setTrace (s : State) (v : List Event) : (s.setTrace v).res = s.res := rfl
@[simp] theorem peri_setTrace (s : State) (v : List Event) : (s.setTrace v).peri = s.peri := rfl
@[simp] theorem inputs_setTrace (s : State) (v : List Event) : (s.setTrace v).inputs = s.inputs := rfl
@[simp] theorem trace_setTrace (s : State) (v : List Event) : (s.setTrace v).trace = v := rfl
@[simp] theorem reads_setTrace (s : State) (v : List Event) : (s.setTrace v).reads = s.reads := rfl
@[simp] theorem quiet_setTrace (s : State) (v : List Event) : (s.setTrace v).quiet = s.quiet := rfl
@[simp] theorem dcSafe_setTrace (s : State) (v : List Event) : (s.setTrace v).dcSafe = s.dcSafe := rfl
@[simp] theorem resets_setTrace (s : State) (v : List Event) : (s.setTrace v).resets = s.resets := rfl

@[simp] theorem fb_setReads (s : State) (v : List Word) : (s.setReads v).fb = s.fb := rfl
@[simp] theorem cur_setReads (s : State) (v : List Word) : (s.setReads v).cur = s.cur := rfl
@[simp] theorem arg_setReads (s : State) (v : List Word) : (s.setReads v).arg = s.arg := rfl
@[simp] theorem q_setReads (s : State) (v : List Word) : (s.setReads v).q = s.q := rfl
@[simp] theorem busy_setReads (s : State) (v : List Word) : (s.setReads v).busy = s.busy := rfl
@[simp] theorem fault_setReads (s : State) (v : List Word) : (s.setReads v).fault = s.fault := rfl
@[simp] theorem dc_setReads (s : State) (v : List Word) : (s.setReads v).dc = s.dc := rfl
@[simp] theorem lcdrst_setReads (s : State) (v : List Word) : (s.setReads v).lcdrst = s.lcdrst := rfl
@[simp] theorem rst_setReads (s : State) (v : List Word) : (s.setReads v).rst = s.rst := rfl
@[simp] theorem opw_setReads (s : State) (v : List Word) : (s.setReads v).opw = s.opw := rfl
@[simp] theorem argl_setReads (s : State) (v : List Word) : (s.setReads v).argl = s.argl := rfl
@[simp] theorem seq_setReads (s : State) (v : List Word) : (s.setReads v).seq = s.seq := rfl
@[simp] theorem params_setReads (s : State) (v : List Word) : (s.setReads v).params = s.params := rfl
@[simp] theorem res_setReads (s : State) (v : List Word) : (s.setReads v).res = s.res := rfl
@[simp] theorem peri_setReads (s : State) (v : List Word) : (s.setReads v).peri = s.peri := rfl
@[simp] theorem inputs_setReads (s : State) (v : List Word) : (s.setReads v).inputs = s.inputs := rfl
@[simp] theorem trace_setReads (s : State) (v : List Word) : (s.setReads v).trace = s.trace := rfl
@[simp] theorem reads_setReads (s : State) (v : List Word) : (s.setReads v).reads = v := rfl
@[simp] theorem quiet_setReads (s : State) (v : List Word) : (s.setReads v).quiet = s.quiet := rfl
@[simp] theorem dcSafe_setReads (s : State) (v : List Word) : (s.setReads v).dcSafe = s.dcSafe := rfl
@[simp] theorem resets_setReads (s : State) (v : List Word) : (s.setReads v).resets = s.resets := rfl

@[simp] theorem fb_setQuiet (s : State) (v : Bool) : (s.setQuiet v).fb = s.fb := rfl
@[simp] theorem cur_setQuiet (s : State) (v : Bool) : (s.setQuiet v).cur = s.cur := rfl
@[simp] theorem arg_setQuiet (s : State) (v : Bool) : (s.setQuiet v).arg = s.arg := rfl
@[simp] theorem q_setQuiet (s : State) (v : Bool) : (s.setQuiet v).q = s.q := rfl
@[simp] theorem busy_setQuiet (s : State) (v : Bool) : (s.setQuiet v).busy = s.busy := rfl
@[simp] theorem fault_setQuiet (s : State) (v : Bool) : (s.setQuiet v).fault = s.fault := rfl
@[simp] theorem dc_setQuiet (s : State) (v : Bool) : (s.setQuiet v).dc = s.dc := rfl
@[simp] theorem lcdrst_setQuiet (s : State) (v : Bool) : (s.setQuiet v).lcdrst = s.lcdrst := rfl
@[simp] theorem rst_setQuiet (s : State) (v : Bool) : (s.setQuiet v).rst = s.rst := rfl
@[simp] theorem opw_setQuiet (s : State) (v : Bool) : (s.setQuiet v).opw = s.opw := rfl
@[simp] theorem argl_setQuiet (s : State) (v : Bool) : (s.setQuiet v).argl = s.argl := rfl
@[simp] theorem seq_setQuiet (s : State) (v : Bool) : (s.setQuiet v).seq = s.seq := rfl
@[simp] theorem params_setQuiet (s : State) (v : Bool) : (s.setQuiet v).params = s.params := rfl
@[simp] theorem res_setQuiet (s : State) (v : Bool) : (s.setQuiet v).res = s.res := rfl
@[simp] theorem peri_setQuiet (s : State) (v : Bool) : (s.setQuiet v).peri = s.peri := rfl
@[simp] theorem inputs_setQuiet (s : State) (v : Bool) : (s.setQuiet v).inputs = s.inputs := rfl
@[simp] theorem trace_setQuiet (s : State) (v : Bool) : (s.setQuiet v).trace = s.trace := rfl
@[simp] theorem reads_setQuiet (s : State) (v : Bool) : (s.setQuiet v).reads = s.reads := rfl
@[simp] theorem quiet_setQuiet (s : State) (v : Bool) : (s.setQuiet v).quiet = v := rfl
@[simp] theorem dcSafe_setQuiet (s : State) (v : Bool) : (s.setQuiet v).dcSafe = s.dcSafe := rfl
@[simp] theorem resets_setQuiet (s : State) (v : Bool) : (s.setQuiet v).resets = s.resets := rfl

@[simp] theorem fb_setDcSafe (s : State) (v : Bool) : (s.setDcSafe v).fb = s.fb := rfl
@[simp] theorem cur_setDcSafe (s : State) (v : Bool) : (s.setDcSafe v).cur = s.cur := rfl
@[simp] theorem arg_setDcSafe (s : State) (v : Bool) : (s.setDcSafe v).arg = s.arg := rfl
@[simp] theorem q_setDcSafe (s : State) (v : Bool) : (s.setDcSafe v).q = s.q := rfl
@[simp] theorem busy_setDcSafe (s : State) (v : Bool) : (s.setDcSafe v).busy = s.busy := rfl
@[simp] theorem fault_setDcSafe (s : State) (v : Bool) : (s.setDcSafe v).fault = s.fault := rfl
@[simp] theorem dc_setDcSafe (s : State) (v : Bool) : (s.setDcSafe v).dc = s.dc := rfl
@[simp] theorem lcdrst_setDcSafe (s : State) (v : Bool) : (s.setDcSafe v).lcdrst = s.lcdrst := rfl
@[simp] theorem rst_setDcSafe (s : State) (v : Bool) : (s.setDcSafe v).rst = s.rst := rfl
@[simp] theorem opw_setDcSafe (s : State) (v : Bool) : (s.setDcSafe v).opw = s.opw := rfl
@[simp] theorem argl_setDcSafe (s : State) (v : Bool) : (s.setDcSafe v).argl = s.argl := rfl
@[simp] theorem seq_setDcSafe (s : State) (v : Bool) : (s.setDcSafe v).seq = s.seq := rfl
@[simp] theorem params_setDcSafe (s : State) (v : Bool) : (s.setDcSafe v).params = s.params := rfl
@[simp] theorem res_setDcSafe (s : State) (v : Bool) : (s.setDcSafe v).res = s.res := rfl
@[simp] theorem peri_setDcSafe (s : State) (v : Bool) : (s.setDcSafe v).peri = s.peri := rfl
@[simp] theorem inputs_setDcSafe (s : State) (v : Bool) : (s.setDcSafe v).inputs = s.inputs := rfl
@[simp] theorem trace_setDcSafe (s : State) (v : Bool) : (s.setDcSafe v).trace = s.trace := rfl
@[simp] theorem reads_setDcSafe (s : State) (v : Bool) : (s.setDcSafe v).reads = s.reads := rfl
@[simp] theorem quiet_setDcSafe (s : State) (v : Bool) : (s.setDcSafe v).quiet = s.quiet := rfl
@[simp] theorem dcSafe_setDcSafe (s : State) (v : Bool) : (s.setDcSafe v).dcSafe = v := rfl
@[simp] theorem resets_setDcSafe (s : State) (v : Bool) : (s.setDcSafe v).resets = s.resets := rfl

@[simp] theorem fb_setResets (s : State) (v : Nat) : (s.setResets v).fb = s.fb := rfl
@[simp] theorem cur_setResets (s : State) (v : Nat) : (s.setResets v).cur = s.cur := rfl
@[simp] theorem arg_setResets (s : State) (v : Nat) : (s.setResets v).arg = s.arg := rfl
@[simp] theorem q_setResets (s : State) (v : Nat) : (s.setResets v).q = s.q := rfl
@[simp] theorem busy_setResets (s : State) (v : Nat) : (s.setResets v).busy = s.busy := rfl
@[simp] theorem fault_setResets (s : State) (v : Nat) : (s.setResets v).fault = s.fault := rfl
@[simp] theorem dc_setResets (s : State) (v : Nat) : (s.setResets v).dc = s.dc := rfl
@[simp] theorem lcdrst_setResets (s : State) (v : Nat) : (s.setResets v).lcdrst = s.lcdrst := rfl
@[simp] theorem rst_setResets (s : State) (v : Nat) : (s.setResets v).rst = s.rst := rfl
@[simp] theorem opw_setResets (s : State) (v : Nat) : (s.setResets v).opw = s.opw := rfl
@[simp] theorem argl_setResets (s : State) (v : Nat) : (s.setResets v).argl = s.argl := rfl
@[simp] theorem seq_setResets (s : State) (v : Nat) : (s.setResets v).seq = s.seq := rfl
@[simp] theorem params_setResets (s : State) (v : Nat) : (s.setResets v).params = s.params := rfl
@[simp] theorem res_setResets (s : State) (v : Nat) : (s.setResets v).res = s.res := rfl
@[simp] theorem peri_setResets (s : State) (v : Nat) : (s.setResets v).peri = s.peri := rfl
@[simp] theorem inputs_setResets (s : State) (v : Nat) : (s.setResets v).inputs = s.inputs := rfl
@[simp] theorem trace_setResets (s : State) (v : Nat) : (s.setResets v).trace = s.trace := rfl
@[simp] theorem reads_setResets (s : State) (v : Nat) : (s.setResets v).reads = s.reads := rfl
@[simp] theorem quiet_setResets (s : State) (v : Nat) : (s.setResets v).quiet = s.quiet := rfl
@[simp] theorem dcSafe_setResets (s : State) (v : Nat) : (s.setResets v).dcSafe = s.dcSafe := rfl
@[simp] theorem resets_setResets (s : State) (v : Nat) : (s.setResets v).resets = v := rfl

end Sys2Proof.Machine.State
end

