-- ==== Sys2Proof/Laws/Ops.lean ====
section
/-! SUPPORT. What the shared operations do: the bytes and pixels of `FB` after a write, what a pixel write leaves
alone, recording a fault, ending a command. -/

namespace Sys2Proof.Machine

/-! ### Byte reads and writes -/

theorem fbRead_congr {s t : State} (h : s.fb = t.fb) (i : Nat) : fbRead s i = fbRead t i := by
  unfold fbRead; rw [h]

theorem fbRead_fbWrite (s : State) (i : Nat) (v : Byte) (j : Nat) :
    fbRead (fbWrite i v s) j = if i = j ∧ i < Config.fbSize then v else fbRead s j := by
  unfold fbRead fbWrite
  simp only [State.fb_setFb, Vector.getElem?_setIfInBounds]
  by_cases h : i = j
  · subst h
    by_cases hi : i < 504
    · simp [hi]
    · simp [hi]
  · simp [h]

/-- Two framebuffers that read alike at every index are equal. -/
theorem fb_ext {s t : State} (h : ∀ i, i < Config.fbSize → fbRead s i = fbRead t i) : s.fb = t.fb := by
  apply Vector.ext
  intro i hi
  have := h i hi
  unfold fbRead at this
  simpa [hi] using this

/-! ### Pixels -/

theorem inRange_iff (x y : Nat) : inRange x y = true ↔ x < 84 ∧ y < 48 := by
  simp [inRange]

theorem fbIndex_eq (x y : Nat) : fbIndex x y = 84 * (y / 8) + x := rfl

theorem fbIndex_lt {x y : Nat} (h : inRange x y = true) : fbIndex x y < Config.fbSize := by
  rw [inRange_iff] at h
  rw [fbIndex_eq]
  show _ < 504
  omega

theorem fbIndex_inj {x y x' y' : Nat} (hx : x < 84) (hx' : x' < 84) (h : fbIndex x y = fbIndex x' y') :
    x = x' ∧ y / 8 = y' / 8 := by
  rw [fbIndex_eq, fbIndex_eq] at h
  omega

theorem pix_congr {s t : State} (h : s.fb = t.fb) (x y : Nat) : pix s x y = pix t x y := by
  unfold pix; rw [fbRead_congr h]

theorem pixelMask_bit (y j : Nat) (hj : j < 8) : (pixelMask y).getLsbD j = decide (j = y % 8) := by
  unfold pixelMask
  have hy : y % 8 < 8 := Nat.mod_lt _ (by omega)
  by_cases h : j = y % 8
  · subst h; simp [hj]
  · simp only [BitVec.getLsbD_shiftLeft, hj, decide_true, Bool.true_and, BitVec.getLsbD_one]
    simp only [h, decide_false]
    by_cases h2 : j < y % 8
    · simp [h2]
    · have : j - y % 8 ≠ 0 := by omega
      simp [this]

/-- Two framebuffers that agree on all pixels of the screen are equal (10_state.md R23). -/
theorem fb_ext_pix {s t : State} (h : ∀ x y, x < 84 → y < 48 → pix s x y = pix t x y) : s.fb = t.fb := by
  refine fb_ext fun i hi => BitVec.eq_of_getLsbD_eq fun j hj => ?_
  have hi : i < 504 := hi
  have := h (i % 84) (8 * (i / 84) + j) (by omega) (by omega)
  unfold pix at this
  rwa [fbIndex_eq, show (8 * (i / 84) + j) / 8 = i / 84 by omega, show (8 * (i / 84) + j) % 8 = j by omega,
    Nat.div_add_mod] at this

/-- In range, a pixel write sets its own pixel and no other (41_framebuffer.md R120). -/
theorem pix_pixelWrite {x y : Nat} (h : inRange x y = true) (v : Bool) (s : State) {x' y' : Nat} (hx' : x' < 84) :
    pix (pixelWrite x y v s) x' y' = if x = x' ∧ y = y' then v else pix s x' y' := by
  have hr := (inRange_iff x y).mp h
  have hy8 : y' % 8 < 8 := Nat.mod_lt _ (by omega)
  unfold pix pixelWrite
  rw [if_pos h, fbRead_fbWrite]
  by_cases hi : fbIndex x y = fbIndex x' y'
  · obtain ⟨rfl, hg⟩ := fbIndex_inj hr.1 hx' hi
    rw [if_pos ⟨hi, fbIndex_lt h⟩, hi]
    by_cases hyy : y = y'
    · subst hyy
      cases v <;> simp only [BitVec.getLsbD_or, BitVec.getLsbD_and, BitVec.getLsbD_not, pixelMask_bit _ _ hy8, hy8,
        decide_true, and_self, if_true, Bool.or_true, Bool.not_true, Bool.and_false]
    · have hne : ¬ y' % 8 = y % 8 := by omega
      cases v <;> simp only [BitVec.getLsbD_or, BitVec.getLsbD_and, BitVec.getLsbD_not, pixelMask_bit _ _ hy8, hy8,
        hyy, hne, decide_true, decide_false, and_false, if_false, Bool.or_false, Bool.not_false, Bool.and_true]
  · rw [if_neg (by simp [hi])]
    have : ¬ (x = x' ∧ y = y') := fun ⟨a, b⟩ => hi (by rw [a, b])
    rw [if_neg this]

/-- Out of range, a pixel write touches no byte and raises `OOR` (41_framebuffer.md R120). -/
theorem pixelWrite_out {x y : Nat} (h : inRange x y = false) (v : Bool) (s : State) :
    pixelWrite x y v s = raiseFault .oor s := by
  unfold pixelWrite; simp [h]

theorem pixelWrite_in {x y : Nat} (h : inRange x y = true) (v : Bool) (s : State) :
    pixelWrite x y v s = s.setFb (pixelWrite x y v s).fb := by
  unfold pixelWrite fbWrite; simp [h]

/-- The byte a pixel write leaves at every index (20_memory.md R51). -/
theorem fbRead_pixelWrite (x y : Nat) (v : Bool) (s : State) (j : Nat) :
    fbRead (pixelWrite x y v s) j =
      if inRange x y = true ∧ fbIndex x y = j then
        (match v with | true => fbRead s j ||| pixelMask y | false => fbRead s j &&& ~~~pixelMask y)
      else fbRead s j := by
  by_cases h : inRange x y = true
  · unfold pixelWrite
    rw [if_pos h, fbRead_fbWrite]
    by_cases hj : fbIndex x y = j
    · subst hj
      refine (if_pos ⟨rfl, fbIndex_lt h⟩).trans (Eq.trans ?_ (if_pos ⟨h, rfl⟩).symm)
      cases v <;> rfl
    · rw [if_neg (by simp [hj]), if_neg (by simp [hj])]
  · unfold pixelWrite
    simp [h, raiseFault, fbRead]

/-! ### What a drawing step leaves alone -/

theorem SameButPicture.refl (s : State) : SameButPicture s s := by constructor <;> rfl

theorem SameButPicture.trans {s t u : State} (h : SameButPicture s t) (k : SameButPicture t u) :
    SameButPicture s u where
  cur := k.cur.trans h.cur
  arg := k.arg.trans h.arg
  q := k.q.trans h.q
  dc := k.dc.trans h.dc
  lcdrst := k.lcdrst.trans h.lcdrst
  rst := k.rst.trans h.rst
  opw := k.opw.trans h.opw
  argl := k.argl.trans h.argl
  params := k.params.trans h.params
  res := k.res.trans h.res
  peri := k.peri.trans h.peri
  inputs := k.inputs.trans h.inputs
  trace := k.trace.trans h.trace
  reads := k.reads.trans h.reads
  quiet := k.quiet.trans h.quiet
  dcSafe := k.dcSafe.trans h.dcSafe
  resets := k.resets.trans h.resets

theorem sameButPicture_pixelWrite (x y : Nat) (v : Bool) (s : State) : SameButPicture s (pixelWrite x y v s) := by
  unfold pixelWrite
  split <;> constructor <;> rfl

theorem sameButPicture_setSeq (s : State) (q : Seq) : SameButPicture s (s.setSeq q) := by constructor <;> rfl

theorem sameButPicture_foldl {α : Type} (f : State → α → State) (hf : ∀ s a, SameButPicture s (f s a)) (l : List α)
    (s : State) : SameButPicture s (l.foldl f s) := by
  induction l generalizing s with
  | nil => exact .refl s
  | cons a l ih => exact (hf s a).trans (ih _)

@[simp] theorem seq_pixelWrite (x y : Nat) (v : Bool) (s : State) : (pixelWrite x y v s).seq = s.seq := by
  unfold pixelWrite fbWrite raiseFault
  split <;> rfl

theorem fault_pixelWrite (x y : Nat) (v : Bool) (s : State) :
    (pixelWrite x y v s).fault = if inRange x y then s.fault else s.fault.raise .oor := by
  unfold pixelWrite fbWrite raiseFault
  split <;> rfl

/-! ### Faults -/

/-- A raised bit is set, the others stay (60_exceptions.md R181). -/
theorem raise_spec (f : FaultBits) (c : FaultCode) :
    f.raise c = f.or (FaultBits.none.raise c) := by
  obtain ⟨a, b, d, e⟩ := f
  cases c <;> simp [FaultBits.raise, FaultBits.or, FaultBits.none]

theorem raise_raise (f : FaultBits) (c : FaultCode) : (f.raise c).raise c = f.raise c := by
  cases c <;> rfl

theorem FaultBits.or_none (f : FaultBits) : f.or .none = f := by
  obtain ⟨a, b, d, e⟩ := f
  simp [FaultBits.or, FaultBits.none]

theorem FaultBits.or_assoc (f g h : FaultBits) : (f.or g).or h = f.or (g.or h) := by
  simp [FaultBits.or, Bool.or_assoc]

/-! ### The count register -/

/-- A count that fits is held exactly (10_state.md R34). -/
theorem cntOf_toNat {n : Nat} (h : n < 2 ^ 15) : (cntOf n).toNat = n := by
  unfold cntOf
  rw [if_pos h, BitVec.toNat_ofNat, Nat.mod_eq_of_lt h]

/-! ### Recording a fault -/

@[simp] theorem raiseFault_fb (c : FaultCode) (s : State) : (raiseFault c s).fb = s.fb := rfl
@[simp] theorem raiseFault_cur (c : FaultCode) (s : State) : (raiseFault c s).cur = s.cur := rfl
@[simp] theorem raiseFault_arg (c : FaultCode) (s : State) : (raiseFault c s).arg = s.arg := rfl
@[simp] theorem raiseFault_q (c : FaultCode) (s : State) : (raiseFault c s).q = s.q := rfl
@[simp] theorem raiseFault_busy (c : FaultCode) (s : State) : (raiseFault c s).busy = s.busy := rfl
@[simp] theorem raiseFault_fault (c : FaultCode) (s : State) : (raiseFault c s).fault = s.fault.raise c := rfl
@[simp] theorem raiseFault_dc (c : FaultCode) (s : State) : (raiseFault c s).dc = s.dc := rfl
@[simp] theorem raiseFault_lcdrst (c : FaultCode) (s : State) : (raiseFault c s).lcdrst = s.lcdrst := rfl
@[simp] theorem raiseFault_rst (c : FaultCode) (s : State) : (raiseFault c s).rst = s.rst := rfl
@[simp] theorem raiseFault_opw (c : FaultCode) (s : State) : (raiseFault c s).opw = s.opw := rfl
@[simp] theorem raiseFault_argl (c : FaultCode) (s : State) : (raiseFault c s).argl = s.argl := rfl
@[simp] theorem raiseFault_seq (c : FaultCode) (s : State) : (raiseFault c s).seq = s.seq := rfl
@[simp] theorem raiseFault_params (c : FaultCode) (s : State) : (raiseFault c s).params = s.params := rfl
@[simp] theorem raiseFault_res (c : FaultCode) (s : State) : (raiseFault c s).res = s.res := rfl
@[simp] theorem raiseFault_peri (c : FaultCode) (s : State) : (raiseFault c s).peri = s.peri := rfl
@[simp] theorem raiseFault_inputs (c : FaultCode) (s : State) : (raiseFault c s).inputs = s.inputs := rfl
@[simp] theorem raiseFault_trace (c : FaultCode) (s : State) : (raiseFault c s).trace = s.trace := rfl
@[simp] theorem raiseFault_reads (c : FaultCode) (s : State) : (raiseFault c s).reads = s.reads := rfl
@[simp] theorem raiseFault_quiet (c : FaultCode) (s : State) : (raiseFault c s).quiet = s.quiet := rfl
@[simp] theorem raiseFault_dcSafe (c : FaultCode) (s : State) : (raiseFault c s).dcSafe = s.dcSafe := rfl
@[simp] theorem raiseFault_resets (c : FaultCode) (s : State) : (raiseFault c s).resets = s.resets := rfl

/-! ### The acceptance of a word -/

@[simp] theorem accept_fb (w : Word) (s : State) : (accept w s).fb = s.fb := rfl
@[simp] theorem accept_cur (w : Word) (s : State) : (accept w s).cur = s.cur := rfl
@[simp] theorem accept_arg (w : Word) (s : State) : (accept w s).arg = s.arg := rfl
@[simp] theorem accept_q (w : Word) (s : State) : (accept w s).q = s.q := rfl
@[simp] theorem accept_busy (w : Word) (s : State) : (accept w s).busy = true := rfl
@[simp] theorem accept_fault (w : Word) (s : State) : (accept w s).fault = s.fault := rfl
@[simp] theorem accept_dc (w : Word) (s : State) : (accept w s).dc = s.dc := rfl
@[simp] theorem accept_lcdrst (w : Word) (s : State) : (accept w s).lcdrst = s.lcdrst := rfl
@[simp] theorem accept_rst (w : Word) (s : State) : (accept w s).rst = s.rst := rfl
@[simp] theorem accept_opw (w : Word) (s : State) : (accept w s).opw = w := rfl
@[simp] theorem accept_argl (w : Word) (s : State) : (accept w s).argl = s.arg := rfl
@[simp] theorem accept_seq (w : Word) (s : State) : (accept w s).seq = s.seq := rfl
@[simp] theorem accept_params (w : Word) (s : State) : (accept w s).params = s.params := rfl
@[simp] theorem accept_res (w : Word) (s : State) : (accept w s).res = s.res := rfl
@[simp] theorem accept_peri (w : Word) (s : State) : (accept w s).peri = s.peri := rfl
@[simp] theorem accept_inputs (w : Word) (s : State) : (accept w s).inputs = s.inputs := rfl
@[simp] theorem accept_trace (w : Word) (s : State) : (accept w s).trace = s.trace := rfl
@[simp] theorem accept_reads (w : Word) (s : State) : (accept w s).reads = s.reads := rfl
@[simp] theorem accept_quiet (w : Word) (s : State) : (accept w s).quiet = s.quiet := rfl
@[simp] theorem accept_dcSafe (w : Word) (s : State) : (accept w s).dcSafe = s.dcSafe := rfl
@[simp] theorem accept_resets (w : Word) (s : State) : (accept w s).resets = s.resets := rfl

/-! ### The end of a command -/

@[simp] theorem finish_busy (s : State) : (finish s).busy = false := rfl
@[simp] theorem finish_seq (s : State) : (finish s).seq = Seq.dead := rfl
@[simp] theorem finish_fb (s : State) : (finish s).fb = s.fb := rfl
@[simp] theorem finish_cur (s : State) : (finish s).cur = s.cur := rfl
@[simp] theorem finish_arg (s : State) : (finish s).arg = s.arg := rfl
@[simp] theorem finish_q (s : State) : (finish s).q = s.q := rfl
@[simp] theorem finish_fault (s : State) : (finish s).fault = s.fault := rfl
@[simp] theorem finish_dc (s : State) : (finish s).dc = s.dc := rfl
@[simp] theorem finish_lcdrst (s : State) : (finish s).lcdrst = s.lcdrst := rfl
@[simp] theorem finish_rst (s : State) : (finish s).rst = s.rst := rfl
@[simp] theorem finish_opw (s : State) : (finish s).opw = s.opw := rfl
@[simp] theorem finish_argl (s : State) : (finish s).argl = s.argl := rfl
@[simp] theorem finish_params (s : State) : (finish s).params = s.params := rfl
@[simp] theorem finish_res (s : State) : (finish s).res = s.res := rfl
@[simp] theorem finish_peri (s : State) : (finish s).peri = s.peri := rfl
@[simp] theorem finish_inputs (s : State) : (finish s).inputs = s.inputs := rfl
@[simp] theorem finish_trace (s : State) : (finish s).trace = s.trace := rfl
@[simp] theorem finish_reads (s : State) : (finish s).reads = s.reads := rfl
@[simp] theorem finish_quiet (s : State) : (finish s).quiet = s.quiet := rfl
@[simp] theorem finish_dcSafe (s : State) : (finish s).dcSafe = s.dcSafe := rfl
@[simp] theorem finish_resets (s : State) : (finish s).resets = s.resets := rfl

/-- Ending a command twice is ending it once. -/
theorem finish_finish (s : State) : finish (finish s) = finish s := rfl

/-! ### The reset of the block -/

@[simp] theorem resetBlock_fb (s : State) : (resetBlock s).fb = freeFb (s.resets + 1) := by unfold resetBlock; rfl
@[simp] theorem resetBlock_cur (s : State) : (resetBlock s).cur = ⟨0, 0⟩ := by unfold resetBlock; rfl
@[simp] theorem resetBlock_arg (s : State) : (resetBlock s).arg = 0 := by unfold resetBlock; rfl
@[simp] theorem resetBlock_q (s : State) : (resetBlock s).q = false := by unfold resetBlock; rfl
@[simp] theorem resetBlock_busy (s : State) : (resetBlock s).busy = false := by unfold resetBlock; rfl
@[simp] theorem resetBlock_fault (s : State) : (resetBlock s).fault = FaultBits.none := by unfold resetBlock; rfl
@[simp] theorem resetBlock_dc (s : State) : (resetBlock s).dc = .command := by unfold resetBlock; rfl
@[simp] theorem resetBlock_lcdrst (s : State) : (resetBlock s).lcdrst = .released := by unfold resetBlock; rfl
@[simp] theorem resetBlock_rst (s : State) : (resetBlock s).rst = .asserted := by unfold resetBlock; rfl
@[simp] theorem resetBlock_opw (s : State) : (resetBlock s).opw = 0 := by unfold resetBlock; rfl
@[simp] theorem resetBlock_argl (s : State) : (resetBlock s).argl = 0 := by unfold resetBlock; rfl
@[simp] theorem resetBlock_seq (s : State) : (resetBlock s).seq = Seq.dead := by unfold resetBlock; rfl
@[simp] theorem resetBlock_params (s : State) : (resetBlock s).params = s.params := by unfold resetBlock; rfl
@[simp] theorem resetBlock_res (s : State) : (resetBlock s).res = s.res := by unfold resetBlock; rfl
@[simp] theorem resetBlock_peri (s : State) : (resetBlock s).peri = s.peri := by unfold resetBlock; rfl
@[simp] theorem resetBlock_inputs (s : State) : (resetBlock s).inputs = s.inputs := by unfold resetBlock; rfl
@[simp] theorem resetBlock_trace (s : State) : (resetBlock s).trace = [] := by unfold resetBlock; rfl
@[simp] theorem resetBlock_reads (s : State) : (resetBlock s).reads = s.reads := by unfold resetBlock; rfl
@[simp] theorem resetBlock_quiet (s : State) : (resetBlock s).quiet = true := by unfold resetBlock; rfl
@[simp] theorem resetBlock_dcSafe (s : State) : (resetBlock s).dcSafe = true := by unfold resetBlock; rfl
@[simp] theorem resetBlock_resets (s : State) : (resetBlock s).resets = s.resets + 1 := by unfold resetBlock; rfl

end Sys2Proof.Machine
end

