-- ==== Sys2Proof/Laws/Blit.lean ====
section
/-! SUPPORT. What the loops of `BLIT` do: the pixels, the faults and the registers after some bytes of a row and after
some rows. -/

namespace Sys2Proof.Machine

theorem highNibble_eq (b : Byte) : highNibble b = b.toNat / 16 := by
  unfold highNibble
  have := b.isLt
  rw [BitVec.extractLsb'_toNat, Nat.shiftRight_eq_div_pow]
  omega

theorem lowNibble_eq (b : Byte) : lowNibble b = b.toNat % 16 := by
  unfold lowNibble
  rw [BitVec.extractLsb'_toNat, Nat.shiftRight_eq_div_pow]
  simp

/-- The nibble of column `c` in a row whose pixel bytes are `bytes`. -/
def nibbleOf (bytes : Nat → Byte) (c : Nat) : Nat :=
  if c % 2 = 0 then (bytes (c / 2)).toNat / 16 else (bytes (c / 2)).toNat % 16

/-- The first `m` bytes of a row, drawn at screen row `y`. -/
def drawBytes (x y : Nat) (bytes : Nat → Byte) (m : Nat) (s : State) : State :=
  (List.range m).foldl (fun t k => blitByte (x + 2 * k) y (bytes k) t) s

theorem drawBytes_succ (x y : Nat) (bytes : Nat → Byte) (m : Nat) (s : State) :
    drawBytes x y bytes (m + 1) s = blitByte (x + 2 * m) y (bytes m) (drawBytes x y bytes m s) := by
  unfold drawBytes
  rw [List.range_succ, List.foldl_append, List.foldl_cons, List.foldl_nil]

theorem blitRow_eq (x y off r : Nat) (s : State) :
    blitRow x y off r s =
      drawBytes x (y - r)
        (fun k => resRead s (resAddr s.argl (off + r * rowStride s.seq.bw.toNat + k))) (rowBytes s.seq.bw.toNat) s :=
  rfl

theorem sameButPicture_blitByte (x y : Nat) (b : Byte) (s : State) : SameButPicture s (blitByte x y b s) :=
  (sameButPicture_pixelWrite _ _ _ _).trans (sameButPicture_pixelWrite _ _ _ _)

@[simp] theorem seq_blitByte (x y : Nat) (b : Byte) (s : State) : (blitByte x y b s).seq = s.seq := by
  simp [blitByte]

theorem sameButPicture_drawBytes (x y : Nat) (bytes : Nat → Byte) (m : Nat) (s : State) :
    SameButPicture s (drawBytes x y bytes m s) :=
  sameButPicture_foldl _ (fun _ _ => sameButPicture_blitByte _ _ _ _) _ _

@[simp] theorem seq_drawBytes (x y : Nat) (bytes : Nat → Byte) (m : Nat) (s : State) :
    (drawBytes x y bytes m s).seq = s.seq := by
  induction m with
  | zero => rfl
  | succ m ih => rw [drawBytes_succ, seq_blitByte, ih]

/-- On the screen, the drawn bytes give their pixels and leave every other. -/
theorem pix_drawBytes {x y : Nat} (bytes : Nat → Byte) (m : Nat) (s : State) (hx : x + 2 * m ≤ 84) (hy : y < 48)
    {x' y' : Nat} (hx' : x' < 84) :
    pix (drawBytes x y bytes m s) x' y' =
      if y = y' ∧ x ≤ x' ∧ x' < x + 2 * m then decide (s.seq.thrc.toNat < nibbleOf bytes (x' - x))
      else pix s x' y' := by
  induction m with
  | zero =>
    rw [if_neg (by omega)]
    rfl
  | succ m ih =>
    have ih := ih (by omega)
    rw [drawBytes_succ]
    unfold blitByte
    rw [pix_pixelWrite ((inRange_iff _ _).mpr (by omega)) _ _ hx',
      pix_pixelWrite ((inRange_iff _ _).mpr (by omega)) _ _ hx', ih, seq_drawBytes]
    by_cases h1 : x + 2 * m + 1 = x' ∧ y = y'
    · rw [if_pos h1, if_pos (by omega)]
      unfold nibbleOf
      rw [if_neg (by omega), lowNibble_eq, show (x' - x) / 2 = m by omega]
    · rw [if_neg h1]
      by_cases h2 : x + 2 * m = x' ∧ y = y'
      · rw [if_pos h2, if_pos (by omega)]
        unfold nibbleOf
        rw [if_pos (by omega), highNibble_eq, show (x' - x) / 2 = m by omega]
      · rw [if_neg h2]
        by_cases h3 : y = y' ∧ x ≤ x' ∧ x' < x + 2 * m
        · rw [if_pos h3, if_pos (by omega)]
        · rw [if_neg h3, if_neg (by omega)]

/-- On the screen, drawing records no fault. -/
theorem fault_drawBytes_in {x y : Nat} (bytes : Nat → Byte) (m : Nat) (s : State) (hx : x + 2 * m ≤ 84)
    (hy : y < 48) : (drawBytes x y bytes m s).fault = s.fault := by
  induction m with
  | zero => rfl
  | succ m ih =>
    rw [drawBytes_succ]
    unfold blitByte
    rw [fault_pixelWrite, if_pos ((inRange_iff _ _).mpr (by omega)), fault_pixelWrite,
      if_pos ((inRange_iff _ _).mpr (by omega)), ih (by omega)]

/-- Below the screen, drawing writes nothing and records `OOR` if there is a byte. -/
theorem drawBytes_below {x y : Nat} (bytes : Nat → Byte) (m : Nat) (s : State) (hy : 48 ≤ y) :
    (drawBytes x y bytes m s).fb = s.fb ∧
      (drawBytes x y bytes m s).fault = if 0 < m then s.fault.raise .oor else s.fault := by
  have hr : ∀ x, inRange x y = false := fun x => by
    rw [← Bool.not_eq_true, inRange_iff]; omega
  induction m with
  | zero => exact ⟨rfl, rfl⟩
  | succ m ih =>
    rw [drawBytes_succ]
    unfold blitByte
    rw [pixelWrite_out (hr _), pixelWrite_out (hr _)]
    refine ⟨ih.1, ?_⟩
    show ((drawBytes x y bytes m s).fault.raise .oor).raise .oor = _
    rw [raise_raise, ih.2, if_pos (Nat.succ_pos m)]
    split
    · exact raise_raise _ _
    · rfl

/-! ### Rows -/

/-- The first `n` stored rows. -/
def drawRows (x y off n : Nat) (s : State) : State := (List.range n).foldl (blitRowStep x y off) s

theorem drawRows_succ (x y off n : Nat) (s : State) :
    drawRows x y off (n + 1) s = blitRowStep x y off (drawRows x y off n s) n := by
  unfold drawRows
  rw [List.range_succ, List.foldl_append, List.foldl_cons, List.foldl_nil]

theorem sameButPicture_blitRowStep (x y off : Nat) (s : State) (r : Nat) :
    SameButPicture s (blitRowStep x y off s r) :=
  (sameButPicture_drawBytes _ _ _ _ _).trans (sameButPicture_setSeq _ _)

theorem sameButPicture_drawRows (x y off n : Nat) (s : State) : SameButPicture s (drawRows x y off n s) :=
  sameButPicture_foldl _ (fun _ _ => sameButPicture_blitRowStep _ _ _ _ _) _ _

/-- The registers after a row and its boundary. -/
theorem seq_blitRowStep (x y off : Nat) (s : State) (r : Nat) :
    (blitRowStep x y off s r).seq = blitRowBoundary x (blitRowDone s.seq) := by
  show blitRowBoundary x (blitRowDone (blitRow x y off r s).seq) = _
  rw [blitRow_eq, seq_drawBytes]

/-- The registers follow the walk of 42_blit.md R134. -/
theorem seq_drawRows (x y off n : Nat) (s : State) :
    (drawRows x y off n s).seq = (fun q => blitRowBoundary x (blitRowDone q))^[n] s.seq := by
  induction n with
  | zero => rfl
  | succ n ih => rw [drawRows_succ, seq_blitRowStep, ih, Function.iterate_succ_apply']

theorem walk_keeps (x n : Nat) (q : Seq) :
    ((fun q => blitRowBoundary x (blitRowDone q))^[n] q).bw = q.bw ∧
      ((fun q => blitRowBoundary x (blitRowDone q))^[n] q).thrc = q.thrc := by
  induction n with
  | zero => exact ⟨rfl, rfl⟩
  | succ n ih => rw [Function.iterate_succ_apply']; exact ih

/-- Pixel byte `k` of stored row `r`, as the loops read it. -/
def rowByte (s : State) (off r k : Nat) : Byte :=
  resRead s (resAddr s.argl (off + r * rowStride s.seq.bw.toNat + k))

/-- A row step draws the row's bytes. -/
theorem blitRowStep_draws (x y off n r : Nat) (s : State) :
    ∃ q, blitRowStep x y off (drawRows x y off n s) r =
      (drawBytes x (y - r) (rowByte s off r) (rowBytes s.seq.bw.toNat) (drawRows x y off n s)).setSeq q := by
  have hs := sameButPicture_drawRows x y off n s
  have hw : (drawRows x y off n s).seq.bw = s.seq.bw := by rw [seq_drawRows]; exact (walk_keeps x n s.seq).1
  have hb : rowByte (drawRows x y off n s) off r = rowByte s off r := by
    funext k; unfold rowByte resRead; rw [hs.res, hs.argl, hw]
  refine ⟨blitRowBoundary x (blitRowDone (blitRow x y off r (drawRows x y off n s)).seq), ?_⟩
  show (blitRow x y off r (drawRows x y off n s)).setSeq _ = _
  rw [blitRow_eq]
  show (drawBytes x (y - r) (rowByte (drawRows x y off n s) off r) _ _).setSeq _ = _
  rw [hb, hw]

/-- The picture and the faults after the first `n` rows of a blit that fits: the rows on the screen are drawn, a row
below it raises `OOR`. -/
theorem drawRows_spec {x y off : Nat} (n : Nat) (s : State) (hx : x + 2 * rowBytes s.seq.bw.toNat ≤ 84)
    (hn : n ≤ y + 1) (hy : y ≤ 48) :
    (∀ x' y', x' < 84 → y' < 48 → pix (drawRows x y off n s) x' y' =
      if x ≤ x' ∧ x' < x + 2 * rowBytes s.seq.bw.toNat ∧ y' ≤ y ∧ y < y' + n then
        decide (s.seq.thrc.toNat < nibbleOf (rowByte s off (y - y')) (x' - x))
      else pix s x' y') ∧
    (drawRows x y off n s).fault =
      if y = 48 ∧ 0 < n ∧ 0 < rowBytes s.seq.bw.toNat then s.fault.raise .oor else s.fault := by
  induction n with
  | zero =>
    refine ⟨fun x' y' _ _ => ?_, ?_⟩
    · rw [if_neg (by omega)]; rfl
    · rw [if_neg (by omega)]; rfl
  | succ n ih =>
    obtain ⟨ihp, ihf⟩ := ih (by omega)
    obtain ⟨q, hq⟩ := blitRowStep_draws x y off n n s
    rw [drawRows_succ, hq]
    have hthr : (drawRows x y off n s).seq.thrc = s.seq.thrc := by
      rw [seq_drawRows]; exact (walk_keeps x n s.seq).2
    by_cases hb : y - n < 48
    · refine ⟨fun x' y' hx' hy' => ?_, ?_⟩
      · show pix (drawBytes _ _ _ _ _) x' y' = _
        rw [pix_drawBytes _ _ _ hx hb hx', ihp x' y' hx' hy', hthr]
        by_cases h1 : y - n = y' ∧ x ≤ x' ∧ x' < x + 2 * rowBytes s.seq.bw.toNat
        · rw [if_pos h1, if_pos (by omega), show y - y' = n by omega]
        · rw [if_neg h1]
          by_cases h2 : x ≤ x' ∧ x' < x + 2 * rowBytes s.seq.bw.toNat ∧ y' ≤ y ∧ y < y' + n
          · rw [if_pos h2, if_pos (by omega)]
          · rw [if_neg h2, if_neg (by omega)]
      · show (drawBytes _ _ _ _ _).fault = _
        rw [fault_drawBytes_in _ _ _ hx hb, ihf]
        by_cases h : y = 48
        · have : 0 < n := by omega
          simp [h, this]
        · rw [if_neg (by omega), if_neg (by omega)]
    · have h0 : n = 0 ∧ y = 48 := by omega
      obtain ⟨rfl, rfl⟩ := h0
      obtain ⟨hfb, hfl⟩ := drawBytes_below (x := x) (y := 48 - 0) (rowByte s off 0) (rowBytes s.seq.bw.toNat)
        (drawRows x 48 off 0 s) (by omega)
      refine ⟨fun x' y' hx' hy' => ?_, ?_⟩
      · show pix (drawBytes _ _ _ _ _) x' y' = _
        rw [pix_congr hfb, ihp x' y' hx' hy', if_neg (by omega), if_neg (by omega)]
      · show (drawBytes _ _ _ _ _).fault = _
        rw [hfl, ihf, if_neg (by omega : ¬ (48 = 48 ∧ 0 < 0 ∧ _))]
        by_cases h : 0 < rowBytes s.seq.bw.toNat <;> simp [h]

/-! ### The bytes of `RES` a blit reads -/

theorem setRes_pixelWrite (x y : Nat) (v : Bool) (s : State) (m : Memory) :
    pixelWrite x y v (s.setRes m) = (pixelWrite x y v s).setRes m := by
  unfold pixelWrite fbWrite raiseFault
  split
  · cases v <;> rfl
  · rfl

theorem setRes_drawBytes (x y : Nat) (f : Nat → Byte) (n : Nat) (s : State) (m : Memory) :
    drawBytes x y f n (s.setRes m) = (drawBytes x y f n s).setRes m := by
  induction n with
  | zero => rfl
  | succ n ih =>
    rw [drawBytes_succ, drawBytes_succ, ih]
    unfold blitByte
    rw [setRes_pixelWrite, setRes_pixelWrite]; rfl

theorem drawBytes_congr (x y : Nat) (f g : Nat → Byte) (n : Nat) (s : State) (h : ∀ k, k < n → f k = g k) :
    drawBytes x y f n s = drawBytes x y g n s := by
  induction n with
  | zero => rfl
  | succ n ih => rw [drawBytes_succ, drawBytes_succ, ih (fun k hk => h k (by omega)), h n (by omega)]

/-- Rows whose pixel bytes are the same in another resource space draw the same picture. -/
theorem setRes_drawRows (x y off n : Nat) (s : State) (m : Memory)
    (h : ∀ r k, r < n → k < rowBytes s.seq.bw.toNat → rowByte (s.setRes m) off r k = rowByte s off r k) :
    drawRows x y off n (s.setRes m) = (drawRows x y off n s).setRes m := by
  induction n with
  | zero => rfl
  | succ n ih =>
    have ih := ih (fun r k hr hk => h r k (by omega) hk)
    have e : ∀ t r, blitRowStep x y off t r =
        (drawBytes x (y - r) (rowByte t off r) (rowBytes t.seq.bw.toNat) t).setSeq
          (blitRowBoundary x (blitRowDone t.seq)) := by
      intro t r
      show (blitRow x y off r t).setSeq (blitRowBoundary x (blitRowDone (blitRow x y off r t).seq)) = _
      rw [blitRow_eq, seq_drawBytes]; rfl
    rw [drawRows_succ, drawRows_succ, ih, e, e, setRes_drawBytes]
    have hs := sameButPicture_drawRows x y off n s
    have hw : (drawRows x y off n s).seq.bw = s.seq.bw := by
      rw [seq_drawRows]; exact (walk_keeps x n s.seq).1
    rw [drawBytes_congr _ _ (rowByte ((drawRows x y off n s).setRes m) off n)
      (rowByte (drawRows x y off n s) off n)]
    · rfl
    · intro k hk
      have := h n k (by omega) (by rw [State.seq_setRes, hw] at hk; exact hk)
      unfold rowByte resRead at this ⊢
      rw [State.res_setRes, State.argl_setRes, State.seq_setRes, hw, hs.argl, hs.res]
      exact this

/-! ### The command -/

/-- An accepted blit, rows and all. -/
theorem execBlit_accepted {x y t : Nat} {s : State}
    (h : blitAccept x y (resRead s (resAddr s.argl 18)).toNat (resRead s (resAddr s.argl 22)).toNat = true) :
    execBlit x y t s = .next (finish (drawRows x y (resRead s (resAddr s.argl 10)).toNat
      (resRead s (resAddr s.argl 22)).toNat
      (s.setSeq (blitStart x y t (resRead s (resAddr s.argl 18)).toNat (resRead s (resAddr s.argl 22)).toNat
        (resRead s (resAddr s.argl 10)).toNat Seq.dead)))) := by
  have hh : ∀ n : Byte, (BitVec.ofNat 8 n.toNat).toNat = n.toNat := fun n => by simp
  unfold execBlit
  simp only [h, if_true]
  unfold drawRows
  rw [State.seq_setSeq]
  show Host.Outcome.next (finish ((List.range (BitVec.ofNat 8 (resRead s (resAddr s.argl 22)).toNat).toNat).foldl _ _)) =
    _
  rw [hh]

theorem execBlit_rejected {x y t : Nat} {s : State}
    (h : blitAccept x y (resRead s (resAddr s.argl 18)).toNat (resRead s (resAddr s.argl 22)).toNat = false) :
    execBlit x y t s = .next (finish s) := by
  unfold execBlit
  simp [h]

/-- The acceptance test, in the terms of 42_blit.md R132. -/
theorem blitAccept_iff (s : State) (x y : Nat) :
    blitAccept x y (resRead s (resAddr s.argl 18)).toNat (resRead s (resAddr s.argl 22)).toNat = true ↔
      BlitAccepted s x y := by
  unfold blitAccept BlitAccepted
  show _ ↔ 0 < (resRead s (resAddr s.argl 22)).toNat ∧ (resRead s (resAddr s.argl 18)).toNat % 2 = 0 ∧
    x + (resRead s (resAddr s.argl 18)).toNat ≤ 84 ∧ (resRead s (resAddr s.argl 22)).toNat - 1 ≤ y ∧ y ≤ 48
  simp [and_assoc]

/-- All an accepted `BLIT` does (42_blit.md R131, R136, R137). -/
theorem execBlit_spec {s : State} {x y : Nat} (t : Nat) (h : BlitAccepted s x y) :
    ∃ u, execBlit x y t s = .next u ∧ Ended u ∧ SameButPicture s u ∧
      u.fault = (if y = 48 ∧ 0 < bitmapWidth s then s.fault.raise .oor else s.fault) ∧
      ∀ x' y', x' < 84 → y' < 48 → pix u x' y' =
        if x ≤ x' ∧ x' < x + bitmapWidth s ∧ y' ≤ y ∧ y < y' + bitmapHeight s then
          decide (min t 14 < bitmapNibble s (y - y') (x' - x))
        else pix s x' y' := by
  obtain ⟨h1, h2, h3, h4, h5⟩ := h
  have hacc := (blitAccept_iff s x y).mpr ⟨h1, h2, h3, h4, h5⟩
  refine ⟨_, execBlit_accepted hacc, ⟨rfl, rfl⟩, ?_, ?_⟩
  · exact (sameButPicture_setSeq _ _).trans ((sameButPicture_drawRows _ _ _ _ _).trans (by constructor <;> rfl))
  have hw8 : bitmapWidth s < 256 := (resRead s _).isLt
  generalize hq : blitStart x y t (resRead s (resAddr s.argl 18)).toNat (resRead s (resAddr s.argl 22)).toNat
        (resRead s (resAddr s.argl 10)).toNat Seq.dead = q
  have hbw : q.bw.toNat = bitmapWidth s := by
    subst hq; show (BitVec.ofNat 8 (bitmapWidth s)).toNat = _
    rw [BitVec.toNat_ofNat]; exact Nat.mod_eq_of_lt hw8
  have hrb : rowBytes q.bw.toNat = bitmapWidth s / 2 := by rw [hbw]; rfl
  have hth : q.thrc.toNat = min t 14 := by
    subst hq; show (BitVec.ofNat 4 (min t 14)).toNat = _
    rw [BitVec.toNat_ofNat]; omega
  have hbyte : ∀ r k, rowByte (s.setSeq q) (resRead s (resAddr s.argl 10)).toNat r k = bitmapByte s r k := by
    intro r k
    unfold rowByte bitmapByte
    show resRead s (s.argl + BitVec.ofNat 32 _) = _
    rw [State.seq_setSeq, hbw]; rfl
  have hspec := drawRows_spec (x := x) (y := y) (off := (resRead s (resAddr s.argl 10)).toNat) (bitmapHeight s)
    (s.setSeq q) (by rw [State.seq_setSeq, hrb]; omega) (by omega) h5
  rw [State.seq_setSeq, hrb, hth] at hspec
  obtain ⟨hp, hf⟩ := hspec
  have e2 : 2 * (bitmapWidth s / 2) = bitmapWidth s := by omega
  refine ⟨?_, ?_⟩
  · rw [finish_fault]; show (drawRows _ _ _ (bitmapHeight s) _).fault = _
    rw [hf]
    by_cases hy : y = 48 ∧ 0 < bitmapWidth s
    · rw [if_pos hy, if_pos (by omega)]; rfl
    · rw [if_neg hy, if_neg (by omega)]; rfl
  · intro x' y' hx' hy'
    rw [pix_congr (finish_fb _)]; show pix (drawRows _ _ _ (bitmapHeight s) _) x' y' = _
    rw [hp x' y' hx' hy', e2]
    have : nibbleOf (rowByte (s.setSeq q) (resRead s (resAddr s.argl 10)).toNat (y - y')) (x' - x) = bitmapNibble s (y - y') (x' - x) := by
      unfold nibbleOf bitmapNibble
      rw [hbyte]
    rw [this]; rfl

end Sys2Proof.Machine
end

