-- ==== Sys2Proof/Laws/Bystander.lean ====
section
/-! SUPPORT. A change of the state that a run of steps does not look at goes through the run: the inputs to come, the
picture (where no byte of it is sent), more `FAULT` bits. -/

namespace Sys2Proof.Machine

/-- A change that touches nothing a step of a sending command reads, except possibly `FB`, and commutes with everything
it writes. -/
structure Bystander (g : State → State) : Prop where
  peri : ∀ s, (g s).peri = s.peri
  params : ∀ s, (g s).params = s.params
  res : ∀ s, (g s).res = s.res
  seq : ∀ s, (g s).seq = s.seq
  dc : ∀ s, (g s).dc = s.dc
  dcSafe : ∀ s, (g s).dcSafe = s.dcSafe
  quiet : ∀ s, (g s).quiet = s.quiet
  trace : ∀ s, (g s).trace = s.trace
  setPeri : ∀ s v, (g s).setPeri v = g (s.setPeri v)
  setSeq : ∀ s v, (g s).setSeq v = g (s.setSeq v)
  setDc : ∀ s v, (g s).setDc v = g (s.setDc v)
  setDcSafe : ∀ s v, (g s).setDcSafe v = g (s.setDcSafe v)
  setQuiet : ∀ s v, (g s).setQuiet v = g (s.setQuiet v)
  setTrace : ∀ s v, (g s).setTrace v = g (s.setTrace v)
  setLcdrst : ∀ s v, (g s).setLcdrst v = g (s.setLcdrst v)
  setBusy : ∀ s v, (g s).setBusy v = g (s.setBusy v)
  raise : ∀ s c, raiseFault c (g s) = g (raiseFault c s)

/-- The inputs to come are not looked at. -/
theorem bystander_setInputs (v : List Input) : Bystander fun s => s.setInputs v := by
  constructor <;> intros <;> rfl

/-- Nor is the picture, where no byte of it is sent. -/
theorem bystander_setFb (v : Vector Byte 504) : Bystander fun s => s.setFb v := by
  constructor <;> intros <;> rfl

/-- Nor are the `FAULT` bits (60_exceptions.md R181). -/
theorem bystander_moreFaults (f : FaultBits) : Bystander fun s => s.setFault (s.fault.or f) := by
  constructor
  case raise =>
    intro s c
    show s.setFault _ = s.setFault _
    refine congrArg s.setFault ?_
    show (s.fault.or f).raise c = (s.fault.raise c).or f
    cases c <;> simp [FaultBits.raise, FaultBits.or]
  all_goals intros; rfl

/-- Nor is `ARG`: a running command uses the latched `ARGL` (10_state.md R27). -/
theorem bystander_setArg (v : Word) : Bystander fun s => s.setArg v := by
  constructor <;> intros <;> rfl

/-- The image of what a wait leads to. -/
def Waited.map (g : State → State) : Waited → Waited
  | .met s => .met (g s)
  | .again s => .again (g s)
  | .gaveUp s => .gaveUp (g s)

/-- The image of what a step leads to. -/
def Progress.map (g : State → State) : Progress → Progress
  | .done s => .done (g s)
  | .stalled left s => .stalled left (g s)
  | .ended s => .ended (g s)

theorem Bystander.polled {g : State → State} (h : Bystander g) (s : State) :
    Machine.polled (g s) = g (Machine.polled s) := by
  unfold Machine.polled
  rw [h.peri, h.setPeri]

theorem Bystander.setToc {g : State → State} (h : Bystander g) (n : Nat) (s : State) :
    Machine.setToc n (g s) = g (Machine.setToc n s) := by
  unfold Machine.setToc
  rw [h.seq, h.setSeq]

theorem Bystander.wait {g : State → State} (h : Bystander g) (c : Cond) (s : State) :
    Machine.wait c (g s) = (Machine.wait c s).map g := by
  have h1 : nextLevel (g s) = nextLevel s := by unfold nextLevel; rw [h.peri]
  have h2 : outOfPolls (g s) = outOfPolls s := by unfold outOfPolls; rw [h.params, h.seq]
  unfold Machine.wait
  rw [h1, h2, h.polled, h.setToc, h.setToc, h.quiet, h.setQuiet, h.raise, h.seq]
  split
  · rfl
  · split <;> rfl

theorem Bystander.push {g : State → State} (h : Bystander g) (sel : Select) (b : Byte) (s : State) :
    Machine.push sel b (g s) = g (Machine.push sel b s) := by
  unfold Machine.push
  rw [h.dc, h.dcSafe, h.quiet, h.trace, h.setDcSafe, h.setDc, h.setTrace, h.setQuiet]

theorem Bystander.resetPulse {g : State → State} (h : Bystander g) (s : State) :
    Machine.resetPulse (g s) = g (Machine.resetPulse s) := by
  unfold Machine.resetPulse
  rw [h.trace, h.setLcdrst, h.setTrace, h.setLcdrst]

theorem Bystander.finish {g : State → State} (h : Bystander g) (s : State) :
    Machine.finish (g s) = g (Machine.finish s) := by
  unfold Machine.finish
  rw [h.setSeq, h.setBusy]

theorem Bystander.suspend {g : State → State} (h : Bystander g) (work : List Act) (s : State) :
    Machine.suspend work (g s) = g (Machine.suspend work s) := by
  unfold Machine.suspend
  rw [h.seq, h.setSeq, h.setBusy]

theorem Bystander.drain {g : State → State} (h : Bystander g) (s : State) :
    Machine.drain (g s) = (Machine.drain s).map g := by
  unfold Machine.drain
  rw [h.wait]
  cases Machine.wait .quiescent s <;> rfl

theorem Bystander.emitCommand {g : State → State} (h : Bystander g) (b : Byte) (s : State) :
    Machine.emitCommand b (g s) = (Machine.emitCommand b s).map g := by
  unfold Machine.emitCommand
  rw [h.wait]
  cases Machine.wait .quiescent s with
  | met t => show Machine.drain (Machine.push .command b (g t)) = _; rw [h.push, h.drain]
  | again t => rfl
  | gaveUp t => rfl

theorem Bystander.emitData {g : State → State} (h : Bystander g) (a : Act) (b : Byte) (s : State) :
    Machine.emitData a b (g s) = (Machine.emitData a b s).map g := by
  unfold Machine.emitData
  rw [h.wait]
  cases Machine.wait .room s with
  | met t => show Progress.done (Machine.push .data b (g t)) = _; rw [h.push]; rfl
  | again t => rfl
  | gaveUp t => rfl

theorem Bystander.sendColumns {g : State → State} (h : Bystander g) (bs : List Byte) (s : State) :
    Machine.sendColumns bs (g s) = (Machine.sendColumns bs s).map g := by
  induction bs generalizing s with
  | nil => rfl
  | cons b bs ih =>
    unfold Machine.sendColumns
    rw [h.wait]
    cases Machine.wait .room s with
    | met t => show Machine.sendColumns bs (Machine.push .data b (g t)) = _; rw [h.push, ih]
    | again t => rfl
    | gaveUp t => rfl

theorem Bystander.putChar {g : State → State} (h : Bystander g) (inverted : Bool) (c : Nat) (s : State) :
    Machine.putChar inverted c (g s) = (Machine.putChar inverted c s).map g := by
  unfold Machine.putChar
  rw [h.params, h.sendColumns, h.raise]
  split <;> rfl

theorem Bystander.pulseDevice {g : State → State} (h : Bystander g) (s : State) :
    Machine.pulseDevice (g s) = (Machine.pulseDevice s).map g := by
  unfold Machine.pulseDevice
  rw [h.wait]
  cases Machine.wait .quiescent s with
  | met t => show Progress.done (Machine.resetPulse (g t)) = _; rw [h.resetPulse]; rfl
  | again t => rfl
  | gaveUp t => rfl

theorem Bystander.doAct {g : State → State} (h : Bystander g) (a : Act) (s : State)
    (ha : a.readsFb = true → ∀ s, (g s).fb = s.fb) : Machine.doAct a (g s) = (Machine.doAct a s).map g := by
  have hr : ∀ addr, resRead (g s) addr = resRead s addr := fun addr => by unfold resRead; rw [h.res]
  cases a with
  | cmd b => exact h.emitCommand b s
  | drain => exact h.drain s
  | dat b => exact h.emitData _ b s
  | fbByte i =>
    show Machine.emitData _ (fbRead (g s) i) (g s) = _
    rw [fbRead_congr (ha rfl s), h.emitData]
    rfl
  | resByte addr =>
    show Machine.emitData _ (resRead (g s) addr) (g s) = _
    rw [hr, h.emitData]
    rfl
  | put inverted c => exact h.putChar inverted c s
  | putRes inverted addr =>
    show Machine.putChar inverted (resRead (g s) addr).toNat (g s) = _
    rw [hr, h.putChar]
    rfl
  | cell columns => exact h.sendColumns columns s
  | pulse => exact h.pulseDevice s

/-- The change goes through a run of steps. -/
theorem Bystander.runActs {g : State → State} (h : Bystander g) (acts : List Act) (s : State)
    (ha : (∃ a ∈ acts, a.readsFb = true) → ∀ s, (g s).fb = s.fb) :
    Machine.runActs acts (g s) = g (Machine.runActs acts s) := by
  induction acts generalizing s with
  | nil => exact h.finish s
  | cons a rest ih =>
    unfold Machine.runActs
    rw [h.doAct a s fun hr => ha ⟨a, List.mem_cons_self, hr⟩]
    cases Machine.doAct a s with
    | done t => exact ih t fun ⟨b, hb, hr⟩ => ha ⟨b, List.mem_cons_of_mem _ hb, hr⟩
    | stalled left t => exact h.suspend _ t
    | ended t => exact h.finish t

/-- The change goes through the running command's going on. -/
theorem Bystander.resume {g : State → State} (h : Bystander g) (s : State) (hb : (g s).busy = s.busy)
    (ha : (∃ a ∈ s.seq.work, a.readsFb = true) → ∀ s, (g s).fb = s.fb) :
    Machine.resume (g s) = g (Machine.resume s) := by
  unfold Machine.resume
  rw [hb, h.seq]
  cases s.busy
  · rfl
  · exact h.runActs _ s ha

end Sys2Proof.Machine
end

