-- ==== Sys2Proof/Laws/Config.lean ====
section
/-! SUPPORT. The constraints on the parameters: what they say of each base, that every constrained choice meets them, and
that every choice that meets them is a constrained one. -/

namespace Sys2Proof

/-- The column addresses use exactly the bits 6 to 0 (00_scope.md R7). -/
theorem columnBase_iff (b : Byte) :
    (List.range Config.cols).all (fun col => b &&& BitVec.ofNat 8 (col * Config.cellW) == 0) = true ↔
      b &&& 0x80 = b := by
  have h : ∀ n : Fin 256, (List.range Config.cols).all
      (fun col => (BitVec.ofFin n : Byte) &&& BitVec.ofNat 8 (col * Config.cellW) == 0) = true ↔
      (BitVec.ofFin n : Byte) &&& 0x80 = BitVec.ofFin n := by decide +kernel
  exact h b.toFin

/-- The row addresses use exactly the bits 2 to 0 (00_scope.md R7). -/
theorem rowBase_iff (b : Byte) :
    (List.range Config.rows).all (fun row => b &&& BitVec.ofNat 8 row == 0) = true ↔ b &&& 0xF8 = b := by
  have h : ∀ n : Fin 256, (List.range Config.rows).all
      (fun row => (BitVec.ofFin n : Byte) &&& BitVec.ofNat 8 row == 0) = true ↔
      (BitVec.ofFin n : Byte) &&& 0xF8 = BitVec.ofFin n := by decide +kernel
  exact h b.toFin

theorem Params.wf_iff (p : Params) :
    p.wf = true ↔
      p.initScript ≠ [] ∧ p.txTimeout ≠ some 0 ∧ p.setxBase &&& 0x80 = p.setxBase ∧ p.setyBase &&& 0xF8 = p.setyBase := by
  unfold Params.wf
  rw [Bool.and_eq_true, Bool.and_eq_true, Bool.and_eq_true, columnBase_iff, rowBase_iff, bne_iff_ne]
  cases p.initScript <;> simp [and_assoc]

/-- Every constrained choice meets the constraints. -/
theorem Params.constrained_wf (head : Byte) (p : Params) : (p.constrained head).wf = true := by
  rw [Params.wf_iff]
  unfold Params.constrained
  refine ⟨List.cons_ne_nil _ _, ?_, ?_, ?_⟩
  · cases p.txTimeout <;> simp
  · exact BitVec.and_assoc _ _ _
  · exact BitVec.and_assoc _ _ _

/-- Every choice that meets the constraints is a constrained one: the model shuts no configuration out. -/
theorem Params.constrained_of_wf {p : Params} (h : p.wf = true) : ∃ head q, p = Params.constrained head q := by
  rw [Params.wf_iff] at h
  obtain ⟨h1, h2, h3, h4⟩ := h
  obtain ⟨glyph, script, x, y, timeout, active, least⟩ := p
  obtain ⟨b, bs, rfl⟩ := List.exists_cons_of_ne_nil h1
  refine ⟨b, ⟨glyph, bs, x, y, timeout.map (· - 1), active, least⟩, ?_⟩
  have ht : (timeout.map (· - 1)).map (· + 1) = timeout := by
    cases timeout with
    | none => rfl
    | some n =>
      have : n ≠ 0 := fun hn => h2 (by rw [hn])
      simp only [Option.map_some]
      congr 1
      omega
  simp only [Params.constrained, ht, h3, h4]

/-- The parameters of the block meet 00_scope.md R7. -/
theorem Config.parameters_wf : Config.parameters.wf = true := Params.constrained_wf _ _

end Sys2Proof
end

