-- ==== Sys2Proof/Laws/Decode.lean ====
section
/-! SUPPORT. The fields of an encoded word (30_encoding.md R81), and its bits under a row's mask (R86). -/

namespace Sys2Proof

/-- Bit by bit, a word put together from four bytes. -/
theorem bit_bytes (a b c d : BitVec 8) (i : Nat) :
    BitVec.getLsbD (w := 32) (a ++ b ++ c ++ d) i =
      if i < 8 then d.getLsbD i else if i < 16 then c.getLsbD (i - 8)
      else if i < 24 then b.getLsbD (i - 16) else a.getLsbD (i - 24) := by
  show BitVec.getLsbD (w := 8 + 8 + 8 + 8) (a ++ b ++ c ++ d) i = _
  rw [BitVec.getLsbD_append, BitVec.getLsbD_append, BitVec.getLsbD_append]
  split
  · rfl
  split
  · rw [if_pos (by omega)]
  split
  · rw [if_neg (by omega), if_pos (by omega), show i - 8 - 8 = i - 16 by omega]
  · rw [if_neg (by omega), if_neg (by omega), show i - 8 - 8 - 8 = i - 24 by omega]

/-- Bit by bit, a word put together from two bytes and a 16-bit operand. -/
theorem bit_half (a b : BitVec 8) (n : BitVec 16) (i : Nat) :
    BitVec.getLsbD (w := 32) (a ++ b ++ n) i =
      if i < 16 then n.getLsbD i else if i < 24 then b.getLsbD (i - 16) else a.getLsbD (i - 24) := by
  show BitVec.getLsbD (w := 8 + 8 + 16) (a ++ b ++ n) i = _
  rw [BitVec.getLsbD_append, BitVec.getLsbD_append]
  split
  · rfl
  split
  · rw [if_pos (by omega)]
  · rw [if_neg (by omega), show i - 16 - 8 = i - 24 by omega]

/-- A field of a word is what its bits say. -/
theorem extract_eq {n lo : Nat} {w : Word} {v : BitVec n} (h : ∀ i, i < n → w.getLsbD (lo + i) = v.getLsbD i) :
    w.extractLsb' lo n = v := by
  apply BitVec.eq_of_getLsbD_eq
  intro i hi
  rw [BitVec.getLsbD_extractLsb', h i hi, decide_eq_true hi, Bool.true_and]

theorem extract_bytes_top (a b c d : BitVec 8) : BitVec.extractLsb' (n := 32) 24 8 (a ++ b ++ c ++ d) = a :=
  extract_eq fun i hi => by
    rw [bit_bytes, if_neg (by omega), if_neg (by omega), if_neg (by omega), show 24 + i - 24 = i by omega]

theorem extract_bytes_high (a b c d : BitVec 8) : BitVec.extractLsb' (n := 32) 16 8 (a ++ b ++ c ++ d) = b :=
  extract_eq fun i hi => by
    rw [bit_bytes, if_neg (by omega), if_neg (by omega), if_pos (by omega), show 16 + i - 16 = i by omega]

theorem extract_bytes_low (a b c d : BitVec 8) : BitVec.extractLsb' (n := 32) 8 8 (a ++ b ++ c ++ d) = c :=
  extract_eq fun i hi => by
    rw [bit_bytes, if_neg (by omega), if_pos (by omega), show 8 + i - 8 = i by omega]

theorem extract_bytes_bottom (a b c d : BitVec 8) : BitVec.extractLsb' (n := 32) 0 8 (a ++ b ++ c ++ d) = d :=
  extract_eq fun i hi => by rw [bit_bytes, if_pos (by omega), Nat.zero_add]

theorem extract_half_top (a b : BitVec 8) (n : BitVec 16) : BitVec.extractLsb' (n := 32) 24 8 (a ++ b ++ n) = a :=
  extract_eq fun i hi => by
    rw [bit_half, if_neg (by omega), if_neg (by omega), show 24 + i - 24 = i by omega]

theorem extract_half_high (a b : BitVec 8) (n : BitVec 16) : BitVec.extractLsb' (n := 32) 16 8 (a ++ b ++ n) = b :=
  extract_eq fun i hi => by
    rw [bit_half, if_neg (by omega), if_pos (by omega), show 16 + i - 16 = i by omega]

theorem extract_half_bottom (a b : BitVec 8) (n : BitVec 16) : BitVec.extractLsb' (n := 32) 0 16 (a ++ b ++ n) = n :=
  extract_eq fun i hi => by rw [bit_half, if_pos (by omega), Nat.zero_add]

/-- `OPC` of a word put together from bytes. -/
@[simp] theorem opcField_wordOfBytes (o a b c : Nat) : opcField (wordOfBytes o a b c) = o % 256 := by
  unfold opcField wordOfBytes; rw [extract_bytes_top, BitVec.toNat_ofNat]

@[simp] theorem f2Field_wordOfBytes (o a b c : Nat) : f2Field (wordOfBytes o a b c) = a % 256 := by
  unfold f2Field wordOfBytes; rw [extract_bytes_high, BitVec.toNat_ofNat]

@[simp] theorem f1Field_wordOfBytes (o a b c : Nat) : f1Field (wordOfBytes o a b c) = b % 256 := by
  unfold f1Field wordOfBytes; rw [extract_bytes_low, BitVec.toNat_ofNat]

@[simp] theorem f0Field_wordOfBytes (o a b c : Nat) : f0Field (wordOfBytes o a b c) = c % 256 := by
  unfold f0Field wordOfBytes; rw [extract_bytes_bottom, BitVec.toNat_ofNat]

/-- `OPC` of a word put together from a 16-bit operand. -/
@[simp] theorem opcField_wordOfHalf (o n : Nat) : opcField (wordOfHalf o n) = o % 256 := by
  unfold opcField wordOfHalf; rw [extract_half_top, BitVec.toNat_ofNat]

@[simp] theorem f2Field_wordOfHalf (o n : Nat) : f2Field (wordOfHalf o n) = 0 := by
  unfold f2Field wordOfHalf; rw [extract_half_high]; rfl

@[simp] theorem n16Field_wordOfHalf (o n : Nat) : n16Field (wordOfHalf o n) = n % 65536 := by
  unfold n16Field wordOfHalf; rw [extract_half_bottom, BitVec.toNat_ofNat]

/-- The mask of format XYT keeps the top byte. -/
theorem bytes_mask8 (a b c d : BitVec 8) :
    ((a ++ b ++ c ++ d : BitVec 32) &&& 0xFF000000) = a ++ 0#8 ++ 0#8 ++ 0#8 := by
  apply BitVec.eq_of_getLsbD_eq
  intro i hi
  rw [BitVec.getLsbD_and, bit_bytes, bit_bytes]
  interval_cases i <;> simp

/-- The mask of formats XY and H keeps the upper half. -/
theorem bytes_mask16 (a b c d : BitVec 8) :
    ((a ++ b ++ c ++ d : BitVec 32) &&& 0xFFFF0000) = a ++ b ++ 0#8 ++ 0#8 := by
  apply BitVec.eq_of_getLsbD_eq
  intro i hi
  rw [BitVec.getLsbD_and, bit_bytes, bit_bytes]
  interval_cases i <;> simp

/-- The mask of format B keeps the upper three bytes. -/
theorem bytes_mask24 (a b c d : BitVec 8) :
    ((a ++ b ++ c ++ d : BitVec 32) &&& 0xFFFFFF00) = a ++ b ++ c ++ 0#8 := by
  apply BitVec.eq_of_getLsbD_eq
  intro i hi
  rw [BitVec.getLsbD_and, bit_bytes, bit_bytes]
  interval_cases i <;> simp

/-- The mask of format H keeps the upper half. -/
theorem half_mask16 (a b : BitVec 8) (n : BitVec 16) :
    ((a ++ b ++ n : BitVec 32) &&& 0xFFFF0000) = a ++ b ++ 0#8 ++ 0#8 := by
  apply BitVec.eq_of_getLsbD_eq
  intro i hi
  rw [BitVec.getLsbD_and, bit_half, bit_bytes]
  interval_cases i <;> simp

end Sys2Proof
end

