-- ==== Sys2Proof/Laws/Framebuffer.lean ====
section
/-! SUPPORT. What `CLRALL`'s loop does. -/

namespace Sys2Proof.Machine

theorem clearLoop_fb (n : Nat) (s : State) (j : Nat) :
    fbRead ((List.range n).foldl (fun t i => fbWrite i 0x00 t) s) j =
      if j < n ∧ j < Config.fbSize then 0 else fbRead s j := by
  have e : Config.fbSize = 504 := rfl
  induction n with
  | zero => simp
  | succ n ih =>
    rw [List.range_succ, List.foldl_append, List.foldl_cons, List.foldl_nil, fbRead_fbWrite, ih]
    by_cases h1 : n = j
    · subst h1
      by_cases h2 : n < 504
      · simp [h2]
      · simp [h2]
    · rw [if_neg (by simp [h1])]
      by_cases h2 : j < n <;> by_cases h3 : j < 504
      · rw [if_pos ⟨h2, h3⟩, if_pos ⟨by omega, h3⟩]
      all_goals rw [if_neg (by omega), if_neg (by omega)]

/-- The loop changes `FB` only. -/
theorem clearLoop_eq (n : Nat) (s : State) :
    (List.range n).foldl (fun t i => fbWrite i 0x00 t) s =
      s.setFb ((List.range n).foldl (fun t i => fbWrite i 0x00 t) s).fb := by
  induction n with
  | zero => rfl
  | succ n ih =>
    rw [List.range_succ, List.foldl_append, List.foldl_cons, List.foldl_nil]
    unfold fbWrite at ih ⊢
    rw [ih]
    rfl

/-- All `CLRALL` does: every byte 0, the cursor home (41_framebuffer.md R124). -/
theorem execClrall_eq (s : State) :
    execClrall s = .next (finish ((s.setFb (Vector.replicate 504 0)).setCur ⟨0, 0⟩)) := by
  have h : (List.range Config.fbSize).foldl (fun t i => fbWrite i 0x00 t) s = s.setFb (Vector.replicate 504 0) := by
    rw [clearLoop_eq]
    refine congrArg s.setFb (fb_ext (t := s.setFb (Vector.replicate 504 0)) fun i hi => ?_)
    rw [clearLoop_fb, if_pos ⟨hi, hi⟩]
    have : i < 504 := hi
    simp [fbRead, this]
  unfold execClrall
  rw [h]

theorem fbRead_cleared (s : State) (i : Nat) : fbRead (s.setFb (Vector.replicate 504 0)) i = 0 := by
  by_cases h : i < 504 <;> simp [fbRead, h]

/-- Two writes of pixels of the screen, in either order, where they are different pixels (41_framebuffer.md R125). -/
theorem pixelWrite_comm {x y x' y' : Nat} (h : inRange x y = true) (h' : inRange x' y' = true)
    (hne : x ≠ x' ∨ y ≠ y') (v v' : Bool) (s : State) :
    (pixelWrite x y v (pixelWrite x' y' v' s)).fb = (pixelWrite x' y' v' (pixelWrite x y v s)).fb := by
  refine fb_ext_pix fun a b ha _ => ?_
  rw [pix_pixelWrite h _ _ ha, pix_pixelWrite h' _ _ ha, pix_pixelWrite h' _ _ ha, pix_pixelWrite h _ _ ha]
  by_cases h1 : x = a ∧ y = b
  · rw [if_pos h1, if_neg (by omega), if_pos h1]
  · rw [if_neg h1, if_neg h1]

/-- A pixel command on another pixel runs and leaves a pixel alone. -/
theorem pix_onOtherPixel {x y : Nat} (hx : x < 84) {i : Instr} (h : OnOtherPixel x y i) (s : State) :
    ∃ t, exec i s = .next t ∧ pix t x y = pix s x y := by
  obtain ⟨x', y', hne, h⟩ := h
  have pw : ∀ v, pix (pixelWrite x' y' v s) x y = pix s x y := fun v => by
    by_cases hr : inRange x' y' = true
    · rw [pix_pixelWrite hr _ _ hx, if_neg (by omega)]
    · rw [pixelWrite_out (by simpa using hr)]
      rfl
  rcases h with rfl | rfl | rfl
  · exact ⟨_, rfl, pw true⟩
  · exact ⟨_, rfl, pw false⟩
  · refine ⟨_, rfl, ?_⟩
    rw [pix_congr (finish_fb _)]
    split <;> rfl

end Sys2Proof.Machine
end

