-- ==== Sys2Proof/Laws/Sequencer.lean ====
section
/-! SUPPORT. What a wait, a push, one step of a sending command and a whole run of steps can do: what they never
change, what a run raises, and the exact result when the transport is always ready. -/

namespace Sys2Proof.Machine

/-! ### What a sending command leaves alone -/

theorem SameButTransport.refl (s : State) : SameButTransport s s := by constructor <;> rfl

theorem SameButTransport.trans {s t u : State} (h : SameButTransport s t) (k : SameButTransport t u) :
    SameButTransport s u where
  fb := k.fb.trans h.fb
  cur := k.cur.trans h.cur
  arg := k.arg.trans h.arg
  q := k.q.trans h.q
  rst := k.rst.trans h.rst
  opw := k.opw.trans h.opw
  argl := k.argl.trans h.argl
  params := k.params.trans h.params
  res := k.res.trans h.res
  inputs := k.inputs.trans h.inputs
  reads := k.reads.trans h.reads
  resets := k.resets.trans h.resets

/-- The state a wait ends in, whichever way it went. -/
def Waited.state : Waited → State
  | .met s => s
  | .again s => s
  | .gaveUp s => s

/-- The state a step ends in, whichever way it went. -/
def Progress.state : Progress → State
  | .done s => s
  | .stalled _ s => s
  | .ended s => s

theorem sameButTransport_wait (c : Cond) (s : State) : SameButTransport s (wait c s).state := by
  unfold wait
  split
  · constructor <;> rfl
  · split <;> constructor <;> rfl

theorem sameButTransport_push (sel : Select) (b : Byte) (s : State) : SameButTransport s (push sel b s) := by
  constructor <;> rfl

theorem sameButTransport_resetPulse (s : State) : SameButTransport s (resetPulse s) := by constructor <;> rfl

theorem sameButTransport_raiseFault (c : FaultCode) (s : State) : SameButTransport s (raiseFault c s) := by
  constructor <;> rfl

theorem sameButTransport_setSeq (q : Seq) (s : State) : SameButTransport s (s.setSeq q) := by constructor <;> rfl

theorem sameButTransport_finish (s : State) : SameButTransport s (finish s) := by constructor <;> rfl

theorem sameButTransport_suspend (work : List Act) (s : State) : SameButTransport s (suspend work s) := by
  constructor <;> rfl

theorem sameButTransport_drain (s : State) : SameButTransport s (drain s).state := by
  have h := sameButTransport_wait .quiescent s
  unfold drain
  cases hw : wait .quiescent s <;> rw [hw] at h <;> exact h

theorem sameButTransport_emitCommand (b : Byte) (s : State) : SameButTransport s (emitCommand b s).state := by
  have h := sameButTransport_wait .quiescent s
  unfold emitCommand
  cases hw : wait .quiescent s <;> rw [hw] at h
  · exact h.trans ((sameButTransport_push _ _ _).trans (sameButTransport_drain _))
  · exact h
  · exact h

theorem sameButTransport_emitData (a : Act) (b : Byte) (s : State) : SameButTransport s (emitData a b s).state := by
  have h := sameButTransport_wait .room s
  unfold emitData
  cases hw : wait .room s <;> rw [hw] at h
  · exact h.trans (sameButTransport_push _ _ _)
  · exact h
  · exact h

theorem sameButTransport_sendColumns (bs : List Byte) (s : State) :
    SameButTransport s (sendColumns bs s).state := by
  induction bs generalizing s with
  | nil => exact .refl s
  | cons b bs ih =>
    have h := sameButTransport_wait .room s
    unfold sendColumns
    cases hw : wait .room s <;> rw [hw] at h
    · exact h.trans ((sameButTransport_push _ _ _).trans (ih _))
    · exact h
    · exact h

theorem sameButTransport_putChar (inverted : Bool) (c : Nat) (s : State) :
    SameButTransport s (putChar inverted c s).state := by
  unfold putChar
  split
  · exact sameButTransport_sendColumns _ _
  · exact sameButTransport_raiseFault _ _

theorem sameButTransport_pulseDevice (s : State) : SameButTransport s (pulseDevice s).state := by
  have h := sameButTransport_wait .quiescent s
  unfold pulseDevice
  cases hw : wait .quiescent s <;> rw [hw] at h
  · exact h.trans (sameButTransport_resetPulse _)
  · exact h
  · exact h

theorem sameButTransport_doAct (a : Act) (s : State) : SameButTransport s (doAct a s).state := by
  cases a with
  | cmd b => exact sameButTransport_emitCommand b s
  | drain => exact sameButTransport_drain s
  | dat b => exact sameButTransport_emitData _ b s
  | fbByte i => exact sameButTransport_emitData _ _ s
  | resByte a => exact sameButTransport_emitData _ _ s
  | put inverted c => exact sameButTransport_putChar inverted c s
  | putRes inverted a => exact sameButTransport_putChar inverted _ s
  | cell columns => exact sameButTransport_sendColumns columns s
  | pulse => exact sameButTransport_pulseDevice s

/-- A run of steps changes the transport side only. -/
theorem sameButTransport_runActs (acts : List Act) (s : State) : SameButTransport s (runActs acts s) := by
  induction acts generalizing s with
  | nil => exact sameButTransport_finish s
  | cons a rest ih =>
    have h := sameButTransport_doAct a s
    unfold runActs
    cases hd : doAct a s <;> rw [hd] at h
    · exact h.trans (ih _)
    · exact h.trans (sameButTransport_suspend _ _)
    · exact h.trans (sameButTransport_finish _)

theorem sameButTransport_transmit (acts : List Act) (s : State) : SameButTransport s (transmit acts s) :=
  (sameButTransport_setSeq Seq.dead s).trans (sameButTransport_runActs _ _)

theorem sameButTransport_transmitDecimal (chars : Vector (BitVec 4) 5 → List Nat) (n : Nat) (s : State) :
    SameButTransport s (transmitDecimal chars n s) :=
  (sameButTransport_setSeq _ s).trans (sameButTransport_runActs _ _)

/-! ### One poll of a wait -/

theorem wait_met {c : Cond} {s : State} (h : c.holds (nextLevel s) = true) :
    wait c s = .met ((setToc 0 (polled s)).setQuiet (s.quiet || c == .quiescent)) := by
  unfold wait; rw [if_pos h]

theorem wait_again {c : Cond} {s : State} (h : c.holds (nextLevel s) = false) (ht : outOfPolls s = false) :
    wait c s = .again (setToc (s.seq.toc + 1) (polled s)) := by
  unfold wait; simp [h, ht]

theorem wait_gaveUp {c : Cond} {s : State} (h : c.holds (nextLevel s) = false) (ht : outOfPolls s = true) :
    wait c s = .gaveUp (raiseFault .timeout (polled s)) := by
  unfold wait; simp [h, ht]

/-- A step whose first wait is not met sends nothing: it is kept, or `TIMEOUT` ends it. -/
theorem doAct_notMet {a : Act} {rest : List Act} {c : Cond} {s : State} (hc : waitsFor (a :: rest) = some c)
    (h : c.holds (nextLevel s) = false) :
    doAct a s = match wait c s with
      | .met s' => .done s'
      | .again s' => .stalled [a] s'
      | .gaveUp s' => .ended s' := by
  rcases a with b | _ | b | i | a | ⟨inv, c'⟩ | ⟨inv, a⟩ | (_ | ⟨b, bs⟩) | _ <;> simp only [waitsFor] at hc <;>
    first
    | contradiction
    | (injection hc with hc; subst hc
       by_cases ht : outOfPolls s = true
       · simp [doAct, emitCommand, drain, emitData, sendColumns, pulseDevice, wait_gaveUp h ht]
       · simp [doAct, emitCommand, drain, emitData, sendColumns, pulseDevice,
           wait_again h (by simpa using ht)])

/-! ### A transport that is always ready -/

theorem nextLevel_ready {s : State} (h : AlwaysReady s) : nextLevel s = ⟨true, false⟩ := by
  unfold nextLevel
  cases hp : s.peri.polls with
  | nil => simpa using h.2
  | cons l ls => simpa using h.1 l (by simp [hp])

theorem alwaysReady_congr {s t : State} (h : AlwaysReady s) (n : Nat) (ht : t.peri = spendPolls n s.peri) :
    AlwaysReady t := by
  unfold AlwaysReady
  rw [ht]
  exact ⟨fun l hl => h.1 l (List.mem_of_mem_drop hl), h.2⟩

theorem spendPolls_zero (p : Peripheral) : spendPolls 0 p = p := by
  unfold spendPolls; simp

theorem spendPolls_add (m n : Nat) (p : Peripheral) : spendPolls n (spendPolls m p) = spendPolls (m + n) p := by
  unfold spendPolls; simp [List.drop_drop]

theorem polled_peri (s : State) : (polled s).peri = spendPolls 1 s.peri := by
  unfold polled spendPolls; simp

theorem wait_ready {s : State} (h : AlwaysReady s) (c : Cond) :
    wait c s = .met ((setToc 0 (polled s)).setQuiet (s.quiet || c == .quiescent)) := by
  apply wait_met
  rw [nextLevel_ready h]
  cases c <;> rfl

/-- The polls a step of a sending command takes when each is met at once. -/
def Act.polls (s : State) : Act → Nat
  | .cmd _ => 2
  | .drain => 1
  | .dat _ => 1
  | .fbByte _ => 1
  | .resByte _ => 1
  | .put _ c => if validChar c then 7 else 0
  | .putRes _ a => if validChar (resRead s a).toNat then 7 else 0
  | .cell columns => columns.length
  | .pulse => 1

/-- The events of a step of a sending command. -/
def Act.events (s : State) : Act → List Event
  | .cmd b => [Event.C b]
  | .drain => []
  | .dat b => [Event.D b]
  | .fbByte i => [Event.D (fbRead s i)]
  | .resByte a => [Event.D (resRead s a)]
  | .put inverted c => charEvents inverted s.params c
  | .putRes inverted a => charEvents inverted s.params (resRead s a).toNat
  | .cell columns => dataEvents columns
  | .pulse => [Event.RSTP]

/-- Whether a step of a sending command meets an invalid character. -/
def Act.bad (s : State) : Act → Bool
  | .put _ c => !validChar c
  | .putRes _ a => !validChar (resRead s a).toNat
  | .cmd _ => false
  | .drain => false
  | .dat _ => false
  | .fbByte _ => false
  | .resByte _ => false
  | .cell _ => false
  | .pulse => false

/-- `BADCHAR` if the flag says so. -/
def badcharBit (b : Bool) : FaultBits := ⟨false, false, b, false⟩

/-- `DC` after an event: a byte selects its level, a reset pulse leaves it. -/
def dcStep (d : Select) : Event → Select
  | .C _ => .command
  | .D _ => .data
  | .RSTP => d

/-- `LCDRST` after an event: a reset pulse ends released, a byte leaves it. -/
def lineStep (l : ResetLine) : Event → ResetLine
  | .C _ => l
  | .D _ => l
  | .RSTP => .released

/-- The polls a wait has spent and those that may still be unmet: what a `TIMEOUT` is paid from when the steady level is
ready. -/
def pollBudget (s : State) : Nat := s.seq.toc + s.peri.polls.length

/-- What an uninterrupted piece of a command did: `n` polls, the given events, `BADCHAR` or not. -/
structure Sent (s t : State) (n : Nat) (ev : List Event) (bad : Bool) : Prop where
  same : SameButTransport s t
  peri : t.peri = spendPolls n s.peri
  trace : t.trace = s.trace ++ ev
  fault : t.fault = s.fault.or (badcharBit bad)
  dc : t.dc = ev.foldl dcStep s.dc
  line : t.lcdrst = ev.foldl lineStep s.lcdrst
  budget : s.peri.steady = ⟨true, false⟩ → pollBudget t ≤ pollBudget s

theorem Sent.polls {s t : State} {n : Nat} {ev : List Event} {b : Bool} (h : Sent s t n ev b) :
    t.peri.polls.length ≤ s.peri.polls.length ∧ t.peri.steady = s.peri.steady := by
  rw [h.peri]
  unfold spendPolls
  simp

theorem lineStep_released (ev : List Event) : ev.foldl lineStep .released = .released := by
  induction ev with
  | nil => rfl
  | cons e ev ih => cases e <;> exact ih

theorem Sent.resetLine {s t : State} {n : Nat} {ev : List Event} {b : Bool} (h : Sent s t n ev b)
    (hs : s.lcdrst = .released) : t.lcdrst = .released := by
  rw [h.line, hs, lineStep_released]

theorem or_badcharBit_false (f : FaultBits) : f.or (badcharBit false) = f := FaultBits.or_none f

theorem Sent.refl (s : State) : Sent s s 0 [] false where
  same := .refl s
  peri := (spendPolls_zero _).symm
  trace := by simp
  fault := (or_badcharBit_false _).symm
  dc := rfl
  line := rfl
  budget _ := Nat.le_refl _

theorem Sent.trans {s t u : State} {m n : Nat} {ev ev' : List Event} {b b' : Bool} (h : Sent s t m ev b)
    (k : Sent t u n ev' b') : Sent s u (m + n) (ev ++ ev') (b || b') where
  same := h.same.trans k.same
  peri := by rw [k.peri, h.peri, spendPolls_add]
  trace := by rw [k.trace, h.trace, List.append_assoc]
  fault := by rw [k.fault, h.fault, FaultBits.or_assoc]; rfl
  dc := by rw [k.dc, h.dc, List.foldl_append]
  line := by rw [k.line, h.line, List.foldl_append]
  budget hs := Nat.le_trans (k.budget (h.polls.2.trans hs)) (h.budget hs)

theorem Sent.ready {s t : State} {n : Nat} {ev : List Event} {b : Bool} (h : Sent s t n ev b) (hs : AlwaysReady s) :
    AlwaysReady t := alwaysReady_congr hs n h.peri

/-- A met wait, as a piece of a command. -/
theorem sent_met (c : Cond) (s : State) :
    Sent s ((setToc 0 (polled s)).setQuiet (s.quiet || c == .quiescent)) 1 [] false where
  same := by constructor <;> rfl
  peri := polled_peri s
  trace := by simp [setToc, polled]
  fault := (or_badcharBit_false _).symm
  dc := rfl
  line := rfl
  budget _ := by
    show 0 + s.peri.polls.tail.length ≤ s.seq.toc + s.peri.polls.length
    rw [List.length_tail]
    omega

/-- A push of a command byte, as a piece of a command. -/
theorem sent_pushCommand (b : Byte) (s : State) : Sent s (push .command b s) 0 [Event.C b] false where
  same := sameButTransport_push _ _ s
  peri := (spendPolls_zero _).symm
  trace := rfl
  fault := (or_badcharBit_false _).symm
  dc := rfl
  line := rfl
  budget _ := Nat.le_refl _

/-- A push of a data byte, as a piece of a command. -/
theorem sent_pushData (b : Byte) (s : State) : Sent s (push .data b s) 0 [Event.D b] false where
  same := sameButTransport_push _ _ s
  peri := (spendPolls_zero _).symm
  trace := rfl
  fault := (or_badcharBit_false _).symm
  dc := rfl
  line := rfl
  budget _ := Nat.le_refl _

theorem sent_resetPulse (s : State) : Sent s (resetPulse s) 0 [Event.RSTP] false where
  same := sameButTransport_resetPulse s
  peri := (spendPolls_zero _).symm
  trace := rfl
  fault := (or_badcharBit_false _).symm
  dc := rfl
  line := rfl
  budget _ := Nat.le_refl _

/-- An invalid character, as a piece of a command. -/
theorem sent_badchar (s : State) : Sent s (raiseFault .badchar s) 0 [] true where
  same := sameButTransport_raiseFault _ s
  peri := (spendPolls_zero _).symm
  trace := by simp [raiseFault]
  fault := raise_spec s.fault .badchar
  dc := rfl
  line := rfl
  budget _ := Nat.le_refl _

/-- The end of a command, as a piece of it. -/
theorem sent_finish (s : State) : Sent s (finish s) 0 [] false where
  same := sameButTransport_finish s
  peri := (spendPolls_zero _).symm
  trace := by simp
  fault := (or_badcharBit_false _).symm
  dc := rfl
  line := rfl
  budget _ := by
    show 0 + s.peri.polls.length ≤ s.seq.toc + s.peri.polls.length
    omega

/-- A suspension, as a piece of a command. -/
theorem sent_suspend (work : List Act) (s : State) : Sent s (suspend work s) 0 [] false where
  same := sameButTransport_suspend work s
  peri := (spendPolls_zero _).symm
  trace := by simp [suspend]
  fault := (or_badcharBit_false _).symm
  dc := rfl
  line := rfl
  budget _ := Nat.le_refl _

theorem sendColumns_ready (bs : List Byte) (s : State) (h : AlwaysReady s) :
    ∃ t, sendColumns bs s = .done t ∧ Sent s t bs.length (dataEvents bs) false := by
  induction bs generalizing s with
  | nil => exact ⟨s, rfl, .refl s⟩
  | cons b bs ih =>
    have h1 := (sent_met .room s).trans (sent_pushData b _)
    obtain ⟨t, ht, hs⟩ := ih _ (h1.ready h)
    refine ⟨t, ?_, ?_⟩
    · unfold sendColumns; rw [wait_ready h]; exact ht
    · have := h1.trans hs
      rwa [show 1 + 0 + bs.length = (b :: bs).length by simp; omega] at this

theorem putChar_ready (inverted : Bool) (c : Nat) (s : State) (h : AlwaysReady s) :
    ∃ t, putChar inverted c s = .done t ∧
      Sent s t (if validChar c then 7 else 0) (charEvents inverted s.params c) (!validChar c) := by
  by_cases hv : validChar c = true
  · obtain ⟨t, ht, hs⟩ := sendColumns_ready (cellFor inverted s.params c) s h
    refine ⟨t, by unfold putChar; rw [if_pos hv]; exact ht, ?_⟩
    have hl : (cellFor inverted s.params c).length = 7 := by cases inverted <;> rfl
    rw [hl] at hs
    simpa [charEvents, hv] using hs
  · have hf : validChar c = false := by simpa using hv
    refine ⟨raiseFault .badchar s, by unfold putChar; simp [hf], ?_⟩
    simp only [charEvents, hf, if_false, Bool.not_false, Bool.false_eq_true]
    exact sent_badchar s

/-- A step of a sending command, the transport always ready. -/
theorem doAct_ready (a : Act) (s : State) (h : AlwaysReady s) :
    ∃ t, doAct a s = .done t ∧ Sent s t (a.polls s) (a.events s) (a.bad s) := by
  have data : ∀ (a : Act) (b : Byte), ∃ t, emitData a b s = .done t ∧ Sent s t 1 [Event.D b] false := fun a b =>
    ⟨_, by unfold emitData; rw [wait_ready h], (sent_met .room s).trans (sent_pushData b _)⟩
  cases a with
  | cmd b =>
    have h1 := (sent_met .quiescent s).trans (sent_pushCommand b _)
    refine ⟨_, ?_, h1.trans (sent_met .quiescent _)⟩
    show emitCommand b s = _
    unfold emitCommand
    rw [wait_ready h]
    show drain _ = _
    unfold drain
    rw [wait_ready (h1.ready h)]
  | drain => exact ⟨_, by show drain s = _; unfold drain; rw [wait_ready h], sent_met .quiescent s⟩
  | dat b => exact data _ b
  | fbByte i => exact data _ _
  | resByte a => exact data _ _
  | put inverted c => exact putChar_ready inverted c s h
  | putRes inverted a => exact putChar_ready inverted _ s h
  | cell columns => exact sendColumns_ready columns s h
  | pulse =>
    exact ⟨_, by show pulseDevice s = _; unfold pulseDevice; rw [wait_ready h],
      (sent_met .quiescent s).trans (sent_resetPulse _)⟩

/-- What a step sends depends only on what a sending command does not change. -/
theorem Act.congr {s t : State} (h : SameButTransport s t) (a : Act) :
    a.polls t = a.polls s ∧ a.events t = a.events s ∧ a.bad t = a.bad s := by
  have hr : ∀ a, resRead t a = resRead s a := fun a => by unfold resRead; rw [h.res]
  have hf : ∀ i, fbRead t i = fbRead s i := fbRead_congr h.fb
  cases a <;> simp only [Act.polls, Act.events, Act.bad, hr, hf, h.params, and_self]

/-- A whole run, the transport always ready: it ends, having sent the events of its steps in order. -/
theorem runActs_ready (acts : List Act) (s : State) (h : AlwaysReady s) :
    (runActs acts s).busy = false ∧ (runActs acts s).seq = Seq.dead ∧
      Sent s (runActs acts s) (acts.map (Act.polls s)).sum (acts.flatMap (Act.events s)) (acts.any (Act.bad s)) := by
  induction acts generalizing s with
  | nil =>
    exact ⟨rfl, rfl, sent_finish s⟩
  | cons a rest ih =>
    obtain ⟨t, ht, hs⟩ := doAct_ready a s h
    obtain ⟨hb, hq, hr⟩ := ih t (hs.ready h)
    have hc : ∀ a : Act, a.polls t = a.polls s ∧ a.events t = a.events s ∧ a.bad t = a.bad s := Act.congr hs.same
    have e1 : Act.polls t = Act.polls s := funext fun a => (hc a).1
    have e2 : Act.events t = Act.events s := funext fun a => (hc a).2.1
    have e3 : Act.bad t = Act.bad s := funext fun a => (hc a).2.2
    rw [e1, e2, e3] at hr
    have : runActs (a :: rest) s = runActs rest t := by
      rw [runActs, ht]
    rw [this]
    exact ⟨hb, hq, by simpa using hs.trans hr⟩

/-- A sending command, the transport always ready. -/
theorem transmit_ready (acts : List Act) (s : State) (h : AlwaysReady s) :
    (transmit acts s).busy = false ∧ (transmit acts s).seq = Seq.dead ∧
      Sent s (transmit acts s) (acts.map (Act.polls s)).sum (acts.flatMap (Act.events s)) (acts.any (Act.bad s)) := by
  obtain ⟨hb, hq, hs⟩ := runActs_ready acts (s.setSeq Seq.dead) h
  refine ⟨hb, hq, ⟨(sameButTransport_setSeq Seq.dead s).trans hs.same, hs.peri, hs.trace, hs.fault, hs.dc, hs.line,
    fun hr => Nat.le_trans (hs.budget hr) ?_⟩⟩
  show 0 + s.peri.polls.length ≤ s.seq.toc + s.peri.polls.length
  omega

/-! ### How a step and a run can end, whatever the transport does -/

/-- The steady level, if ready, is never unmet: an unmet poll is one of the list. -/
theorem polls_of_unmet {c : Cond} {s : State} (h : c.holds (nextLevel s) = false)
    (hs : s.peri.steady = ⟨true, false⟩) : (polled s).peri.polls.length < s.peri.polls.length := by
  cases hp : s.peri.polls with
  | nil =>
    unfold nextLevel at h
    rw [hp, List.headD_nil, hs] at h
    cases c <;> contradiction
  | cons l ls =>
    show s.peri.polls.tail.length < _
    rw [hp]
    exact Nat.lt_succ_self _

/-- An unmet poll, as a piece of a command. -/
theorem sent_again {c : Cond} {s : State} (h : c.holds (nextLevel s) = false) :
    Sent s (setToc (s.seq.toc + 1) (polled s)) 1 [] false where
  same := by constructor <;> rfl
  peri := polled_peri s
  trace := by simp [setToc, polled]
  fault := (or_badcharBit_false _).symm
  dc := rfl
  line := rfl
  budget hs := by
    have := polls_of_unmet h hs
    show s.seq.toc + 1 + (polled s).peri.polls.length ≤ s.seq.toc + s.peri.polls.length
    omega

/-- A timeout that the unmet polls can reach: with a steady level that is ready, the bound is below the poll budget
(40_transport.md R112). -/
def CanTimeOut (s : State) : Prop :=
  ∃ n, s.params.txTimeout = some n ∧ (s.peri.steady = ⟨true, false⟩ → n < pollBudget s)

theorem CanTimeOut.of_sent {s t : State} {n : Nat} {ev : List Event} {b : Bool} (h : Sent s t n ev b)
    (k : CanTimeOut t) : CanTimeOut s := by
  obtain ⟨m, h1, h2⟩ := k
  exact ⟨m, h.same.params ▸ h1, fun hs => Nat.lt_of_lt_of_le (h2 (h.polls.2.trans hs)) (h.budget hs)⟩

/-- What can come of a piece of a command that is to send `ev` and to meet an invalid character or not: it is all done;
or it waits, the rest of it kept, an answer of the list having been used up if the steady level is ready; or `TIMEOUT`
ended it, which takes a timeout within reach. -/
def Progress.Spec (s : State) (ev : List Event) (bad : Bool) : Progress → Prop
  | .done t => ∃ n, Sent s t n ev bad
  | .stalled left t =>
    (∃ n ev', Sent s t n ev' false ∧ ev' ++ left.flatMap (Act.events s) = ev) ∧
      left.any (Act.bad s) = false ∧ bad = false ∧ (waitsFor left).isSome = true ∧
      (s.peri.steady = ⟨true, false⟩ → t.peri.polls.length < s.peri.polls.length)
  | .ended t =>
    SameButTransport s t ∧ t.fault.timeout = true ∧ CanTimeOut s ∧ (s.lcdrst = .released → t.lcdrst = .released)

/-- A finished piece before another. -/
theorem Progress.Spec.after {s m : State} {n : Nat} {ev ev' : List Event} {b : Bool} {p : Progress}
    (h : Sent s m n ev false) (k : Progress.Spec m ev' b p) : Progress.Spec s (ev ++ ev') b p := by
  have e : Act.events m = Act.events s := funext fun a => (Act.congr h.same a).2.1
  have e' : Act.bad m = Act.bad s := funext fun a => (Act.congr h.same a).2.2
  cases p with
  | done t =>
    obtain ⟨n', k⟩ := k
    exact ⟨_, h.trans k⟩
  | stalled left t =>
    obtain ⟨⟨n', ev'', k, rfl⟩, k1, k2, k3, k4⟩ := k
    rw [e'] at k1
    rw [e]
    refine ⟨⟨_, _, h.trans k, List.append_assoc _ _ _⟩, k1, k2, k3, fun hs => ?_⟩
    have := h.polls
    exact Nat.lt_of_lt_of_le (k4 (this.2.trans hs)) this.1
  | ended t =>
    obtain ⟨k1, k2, k3, k4⟩ := k
    exact ⟨h.same.trans k1, k2, k3.of_sent h, fun hs => k4 (h.resetLine hs)⟩

/-- The end of a wait that gives up. -/
theorem spec_gaveUp {c : Cond} {s s' : State} (ev : List Event) (b : Bool) (h : wait c s = .gaveUp s') :
    Progress.Spec s ev b (.ended s') := by
  unfold wait at h
  split at h
  · contradiction
  · split at h
    · injection h with h
      subst h
      rename_i hc ho
      refine ⟨by constructor <;> rfl, rfl, ?_, fun h => h⟩
      unfold outOfPolls at ho
      cases ht : s.params.txTimeout with
      | none => rw [ht] at ho; contradiction
      | some n =>
        rw [ht] at ho
        refine ⟨n, ht, fun hs => ?_⟩
        have h1 : n ≤ s.seq.toc := of_decide_eq_true ho
        have h2 := polls_of_unmet (by simpa using hc) hs
        unfold pollBudget
        omega
    · contradiction

/-- A wait that goes on, its step kept. -/
theorem spec_again {c : Cond} {s s' : State} {left : List Act} (h : wait c s = .again s')
    (hb : left.any (Act.bad s) = false) (hl : (waitsFor left).isSome = true) :
    Progress.Spec s (left.flatMap (Act.events s)) false (.stalled left s') := by
  unfold wait at h
  split at h
  · contradiction
  · split at h
    · contradiction
    · injection h with h
      subst h
      rename_i hc _
      have hc : c.holds (nextLevel s) = false := by simpa using hc
      exact ⟨⟨1, [], sent_again hc, rfl⟩, hb, rfl, hl, polls_of_unmet hc⟩

theorem spec_met {c : Cond} {s s' : State} (h : wait c s = .met s') : Sent s s' 1 [] false := by
  unfold wait at h
  split at h
  · injection h with h
    subst h
    exact sent_met c s
  · split at h <;> contradiction

theorem drain_spec (s : State) : (drain s).Spec s [] false := by
  unfold drain
  cases hw : wait .quiescent s with
  | met s' => exact ⟨_, spec_met hw⟩
  | again s' => exact spec_again hw rfl rfl
  | gaveUp s' => exact spec_gaveUp _ _ hw

theorem emitData_spec {a : Act} {b : Byte} {s : State} (he : a.events s = [Event.D b]) (hb : a.bad s = false)
    (hw : waitsFor [a] = some .room) : (emitData a b s).Spec s [Event.D b] false := by
  unfold emitData
  cases hk : wait .room s with
  | met s' => exact Progress.Spec.after (p := .done _) (spec_met hk) ⟨_, sent_pushData b s'⟩
  | again s' =>
    have := spec_again (left := [a]) hk (by simp [hb]) (by rw [hw]; rfl)
    rwa [List.flatMap_singleton, he] at this
  | gaveUp s' => exact spec_gaveUp _ _ hk

theorem sendColumns_spec (bs : List Byte) (s : State) : (sendColumns bs s).Spec s (dataEvents bs) false := by
  induction bs generalizing s with
  | nil => exact ⟨0, .refl s⟩
  | cons b bs ih =>
    unfold sendColumns
    cases hk : wait .room s with
    | met s' => exact ((ih _).after (sent_pushData b s')).after (spec_met hk)
    | again s' =>
      have := spec_again (left := [.cell (b :: bs)]) hk rfl rfl
      rwa [List.flatMap_singleton] at this
    | gaveUp s' => exact spec_gaveUp _ _ hk

theorem putChar_spec (inverted : Bool) (c : Nat) (s : State) :
    (putChar inverted c s).Spec s (charEvents inverted s.params c) (!validChar c) := by
  unfold putChar charEvents
  by_cases hv : validChar c = true
  · rw [if_pos hv, if_pos hv, hv]
    exact sendColumns_spec _ s
  · rw [if_neg hv, if_neg hv]
    have hf : validChar c = false := by simpa using hv
    rw [hf]
    exact ⟨0, sent_badchar s⟩

/-- A step of a sending command: all it can come to. -/
theorem doAct_spec (a : Act) (s : State) : (doAct a s).Spec s (a.events s) (a.bad s) := by
  cases a with
  | cmd b =>
    show (emitCommand b s).Spec s [Event.C b] false
    unfold emitCommand
    cases hk : wait .quiescent s with
    | met s' => exact ((drain_spec _).after (sent_pushCommand b s')).after (spec_met hk)
    | again s' =>
      have := spec_again (left := [.cmd b]) hk rfl rfl
      rwa [List.flatMap_singleton] at this
    | gaveUp s' => exact spec_gaveUp _ _ hk
  | drain => exact drain_spec s
  | dat b => exact emitData_spec rfl rfl rfl
  | fbByte i => exact emitData_spec rfl rfl rfl
  | resByte a => exact emitData_spec rfl rfl rfl
  | put inverted c => exact putChar_spec inverted c s
  | putRes inverted a => exact putChar_spec inverted _ s
  | cell columns => exact sendColumns_spec columns s
  | pulse =>
    show (pulseDevice s).Spec s [Event.RSTP] false
    unfold pulseDevice
    cases hk : wait .quiescent s with
    | met s' => exact Progress.Spec.after (p := .done _) (spec_met hk) ⟨_, sent_resetPulse s'⟩
    | again s' =>
      have := spec_again (left := [.pulse]) hk rfl rfl
      rwa [List.flatMap_singleton] at this
    | gaveUp s' => exact spec_gaveUp _ _ hk

theorem waitsFor_append {left : List Act} (h : (waitsFor left).isSome = true) (rest : List Act) :
    waitsFor (left ++ rest) = waitsFor left := by
  rcases left with _ | ⟨a, left⟩
  · contradiction
  · rcases a with b | _ | b | i | a | ⟨inv, c⟩ | ⟨inv, a⟩ | (_ | ⟨b, bs⟩) | _ <;> rfl

/-- What a run of steps can come to: the command has ended with everything sent; or it waits, with what is left in
`work`, an answer of the list used up if the steady level is ready; or `TIMEOUT` ended it. -/
def RunSpec (acts : List Act) (s t : State) : Prop :=
  (Ended t ∧ ∃ n, Sent s t n (acts.flatMap (Act.events s)) (acts.any (Act.bad s))) ∨
  (t.busy = true ∧ (waitsFor t.seq.work).isSome = true ∧
    (s.peri.steady = ⟨true, false⟩ → t.peri.polls.length < s.peri.polls.length) ∧
    ∃ n ev b, Sent s t n ev b ∧ ev ++ t.seq.work.flatMap (Act.events s) = acts.flatMap (Act.events s) ∧
      (b || t.seq.work.any (Act.bad s)) = acts.any (Act.bad s)) ∨
  (Ended t ∧ SameButTransport s t ∧ t.fault.timeout = true ∧ CanTimeOut s ∧
    (s.lcdrst = .released → t.lcdrst = .released))

theorem runActs_spec (acts : List Act) (s : State) : RunSpec acts s (runActs acts s) := by
  induction acts generalizing s with
  | nil =>
    exact .inl ⟨⟨rfl, rfl⟩, 0, sent_finish s⟩
  | cons a rest ih =>
    have hd := doAct_spec a s
    unfold runActs RunSpec
    rw [List.flatMap_cons, List.any_cons]
    cases hp : doAct a s with
    | done t =>
      rw [hp] at hd
      obtain ⟨n, hd⟩ := hd
      have e : Act.events t = Act.events s := funext fun a => (Act.congr hd.same a).2.1
      have e' : Act.bad t = Act.bad s := funext fun a => (Act.congr hd.same a).2.2
      have hpl := hd.polls
      rcases ih t with ⟨h1, n', h2⟩ | ⟨h1, h2, h3, n', ev, b, h4, h5, h6⟩ | ⟨h1, h2, h3, h4, h5⟩
      · rw [e, e'] at h2
        exact .inl ⟨h1, _, hd.trans h2⟩
      · rw [e] at h5
        rw [e'] at h6
        refine .inr (.inl ⟨h1, h2, fun hs => Nat.lt_of_lt_of_le (h3 (hpl.2.trans hs)) hpl.1, _, _, _, hd.trans h4,
          ?_, ?_⟩)
        · rw [List.append_assoc, h5]
        · rw [Bool.or_assoc, h6]
      · exact .inr (.inr ⟨h1, hd.same.trans h2, h3, h4.of_sent hd, fun hs => h5 (hd.resetLine hs)⟩)
    | stalled left t =>
      rw [hp] at hd
      obtain ⟨⟨n, ev, h1, h2⟩, h3, h4, h5, h6⟩ := hd
      refine .inr (.inl ⟨rfl, ?_, h6, n, ev, false, ?_, ?_, ?_⟩)
      · show (waitsFor (left ++ rest)).isSome = true
        rw [waitsFor_append h5]
        exact h5
      · have := h1.trans (sent_suspend (left ++ rest) t)
        rwa [List.append_nil] at this
      · show ev ++ (left ++ rest).flatMap _ = _
        rw [List.flatMap_append, ← List.append_assoc, h2]
      · show (false || (left ++ rest).any _) = _
        rw [List.any_append, h3, h4]
        rfl
    | ended t =>
      rw [hp] at hd
      obtain ⟨h1, h2, h3, h4⟩ := hd
      exact .inr (.inr ⟨⟨rfl, rfl⟩, h1.trans (sameButTransport_finish _), h2, h3, h4⟩)

/-! ### What a run never raises, and the reset line -/

/-- `BADCMD` and `OOR` are not raised, `BADCHAR` is not where no step may be bad, and `LCDRST` stays where no pulse is
among the steps. -/
structure Keeps (pulse bad : Bool) (s t : State) : Prop where
  badcmd : t.fault.badcmd = s.fault.badcmd
  oor : t.fault.oor = s.fault.oor
  badchar : bad = false → t.fault.badchar = s.fault.badchar
  line : pulse = false → t.lcdrst = s.lcdrst

theorem Keeps.trans {p b : Bool} {s t u : State} (h : Keeps p b s t) (k : Keeps p b t u) : Keeps p b s u where
  badcmd := k.badcmd.trans h.badcmd
  oor := k.oor.trans h.oor
  badchar hb := (k.badchar hb).trans (h.badchar hb)
  line hp := (k.line hp).trans (h.line hp)

/-- Flags may be added. -/
theorem Keeps.weaken {p b p' b' : Bool} {s t : State} (h : Keeps p b s t) (hp : p' = false → p = false)
    (hb : b' = false → b = false) : Keeps p' b' s t :=
  ⟨h.badcmd, h.oor, fun k => h.badchar (hb k), fun k => h.line (hp k)⟩

theorem keeps_wait (p b : Bool) (c : Cond) (s : State) : Keeps p b s (wait c s).state := by
  unfold wait
  split
  · constructor <;> intros <;> rfl
  · split <;> constructor <;> intros <;> rfl

theorem keeps_push (p b : Bool) (sel : Select) (v : Byte) (s : State) : Keeps p b s (push sel v s) := by
  constructor <;> intros <;> rfl

theorem keeps_finish (p b : Bool) (s : State) : Keeps p b s (finish s) := by
  constructor <;> intros <;> rfl

theorem keeps_suspend (p b : Bool) (work : List Act) (s : State) : Keeps p b s (suspend work s) := by
  constructor <;> intros <;> rfl

theorem keeps_drain (p b : Bool) (s : State) : Keeps p b s (drain s).state := by
  have h := keeps_wait p b .quiescent s
  unfold drain
  cases hw : wait .quiescent s <;> rw [hw] at h <;> exact h

theorem keeps_emitData (p b : Bool) (a : Act) (v : Byte) (s : State) : Keeps p b s (emitData a v s).state := by
  have h := keeps_wait p b .room s
  unfold emitData
  cases hw : wait .room s <;> rw [hw] at h
  · exact h.trans (keeps_push _ _ _ _ _)
  · exact h
  · exact h

theorem keeps_sendColumns (p b : Bool) (bs : List Byte) (s : State) : Keeps p b s (sendColumns bs s).state := by
  induction bs generalizing s with
  | nil => exact ⟨rfl, rfl, fun _ => rfl, fun _ => rfl⟩
  | cons v bs ih =>
    have h := keeps_wait p b .room s
    unfold sendColumns
    cases hw : wait .room s <;> rw [hw] at h
    · exact h.trans ((keeps_push _ _ _ _ _).trans (ih _))
    · exact h
    · exact h

theorem keeps_putChar (p inverted : Bool) (c : Nat) (s : State) :
    Keeps p (!validChar c) s (putChar inverted c s).state := by
  unfold putChar
  split
  · exact keeps_sendColumns _ _ _ _
  · rename_i hv
    refine ⟨rfl, rfl, fun hb => ?_, fun _ => rfl⟩
    rw [Bool.not_eq_false'] at hb
    contradiction

theorem keeps_doAct (a : Act) (s : State) : Keeps a.isPulse a.mayBeBad s (doAct a s).state := by
  cases a with
  | cmd v =>
    have h := keeps_wait false false .quiescent s
    show Keeps false false s (emitCommand v s).state
    unfold emitCommand
    cases hw : wait .quiescent s <;> rw [hw] at h
    · exact h.trans ((keeps_push _ _ _ _ _).trans (keeps_drain _ _ _))
    · exact h
    · exact h
  | drain => exact keeps_drain _ _ s
  | dat b => exact keeps_emitData _ _ _ b s
  | fbByte i => exact keeps_emitData _ _ _ _ s
  | resByte a => exact keeps_emitData _ _ _ _ s
  | put inverted c => exact keeps_putChar _ inverted c s
  | putRes inverted a => exact (keeps_putChar _ inverted _ s).weaken id fun hb => by contradiction
  | cell columns => exact keeps_sendColumns _ _ columns s
  | pulse =>
    have h := keeps_wait true false .quiescent s
    show Keeps true false s (pulseDevice s).state
    unfold pulseDevice
    cases hw : wait .quiescent s <;> rw [hw] at h
    · exact h.trans ⟨rfl, rfl, fun _ => rfl, fun hb => by contradiction⟩
    · exact h
    · exact h

theorem keeps_runActs (acts : List Act) (s : State) :
    Keeps (acts.any Act.isPulse) (acts.any Act.mayBeBad) s (runActs acts s) := by
  induction acts generalizing s with
  | nil => exact keeps_finish _ _ s
  | cons a rest ih =>
    have hd {f : Act → Bool} (hf : (a :: rest).any f = false) : f a = false := (Bool.or_eq_false_iff.mp hf).1
    have tl {f : Act → Bool} (hf : (a :: rest).any f = false) : rest.any f = false := (Bool.or_eq_false_iff.mp hf).2
    have h := (keeps_doAct a s).weaken (p' := (a :: rest).any Act.isPulse) (b' := (a :: rest).any Act.mayBeBad) hd hd
    unfold runActs
    cases hd : doAct a s <;> rw [hd] at h
    · exact h.trans ((ih _).weaken tl tl)
    · exact h.trans (keeps_suspend _ _ _ _)
    · exact h.trans (keeps_finish _ _ _)

/-! ### What a run leaves to do -/

/-- What is left of a step has a property. -/
def Progress.Left (P : Act → Prop) : Progress → Prop
  | .done _ => True
  | .stalled left _ => ∀ a ∈ left, P a
  | .ended _ => True

theorem left_drain {P : Act → Prop} (hd : P .drain) (s : State) : (drain s).Left P := by
  unfold drain
  cases wait .quiescent s <;> first | exact List.forall_mem_singleton.mpr hd | trivial

theorem left_emitData {P : Act → Prop} {a : Act} (ha : P a) (b : Byte) (s : State) : (emitData a b s).Left P := by
  unfold emitData
  cases wait .room s <;> first | exact List.forall_mem_singleton.mpr ha | trivial

theorem left_sendColumns {P : Act → Prop} (hc : ∀ bs, P (.cell bs)) (bs : List Byte) (s : State) :
    (sendColumns bs s).Left P := by
  induction bs generalizing s with
  | nil => trivial
  | cons b bs ih =>
    unfold sendColumns
    cases wait .room s <;> first | exact ih _ | exact List.forall_mem_singleton.mpr (hc _) | trivial

theorem left_putChar {P : Act → Prop} (hc : ∀ bs, P (.cell bs)) (inverted : Bool) (c : Nat) (s : State) :
    (putChar inverted c s).Left P := by
  unfold putChar
  split
  · exact left_sendColumns hc _ s
  · trivial

/-- What is left of a step is the step itself, its drain, or the rest of its cell. -/
theorem left_doAct {P : Act → Prop} (hd : P .drain) (hc : ∀ bs, P (.cell bs)) {a : Act} (ha : P a) (s : State) :
    (doAct a s).Left P := by
  cases a with
  | cmd b =>
    show (emitCommand b s).Left P
    unfold emitCommand
    cases wait .quiescent s <;> first | exact left_drain hd _ | exact List.forall_mem_singleton.mpr ha | trivial
  | drain => exact left_drain hd s
  | dat b => exact left_emitData ha b s
  | fbByte i => exact left_emitData ha _ s
  | resByte a => exact left_emitData ha _ s
  | put inverted c => exact left_putChar hc inverted c s
  | putRes inverted a => exact left_putChar hc inverted _ s
  | cell columns => exact left_sendColumns hc columns s
  | pulse =>
    show (pulseDevice s).Left P
    unfold pulseDevice
    cases wait .quiescent s <;> first | exact List.forall_mem_singleton.mpr ha | trivial

/-- A run leaves to do only steps it was given, a drain, or the rest of a cell. -/
theorem left_runActs {P : Act → Prop} (hd : P .drain) (hc : ∀ bs, P (.cell bs)) {acts : List Act}
    (ha : ∀ a ∈ acts, P a) (s : State) : ∀ a ∈ (runActs acts s).seq.work, P a := by
  induction acts generalizing s with
  | nil => exact List.forall_mem_nil _
  | cons a rest ih =>
    have h := left_doAct hd hc (ha a List.mem_cons_self) s
    have hr : ∀ b ∈ rest, P b := fun b hb => ha b (List.mem_cons_of_mem _ hb)
    unfold runActs
    cases hp : doAct a s with
    | done t => exact ih hr t
    | stalled left t =>
      rw [hp] at h
      exact List.forall_mem_append.mpr ⟨h, hr⟩
    | ended t => exact List.forall_mem_nil _

/-! ### The recorded faults of a run -/

/-- Bits only accumulate. -/
def FaultsGrow (s t : State) : Prop := ∃ g, t.fault = s.fault.or g

theorem FaultsGrow.refl (s : State) : FaultsGrow s s := ⟨.none, (FaultBits.or_none _).symm⟩

theorem FaultsGrow.trans {s t u : State} (h : FaultsGrow s t) (k : FaultsGrow t u) : FaultsGrow s u := by
  obtain ⟨g, hg⟩ := h
  obtain ⟨g', hg'⟩ := k
  exact ⟨g.or g', by rw [hg', hg, FaultBits.or_assoc]⟩

theorem FaultsGrow.of_eq {s t : State} (h : t.fault = s.fault) : FaultsGrow s t := ⟨.none, by rw [h, FaultBits.or_none]⟩

theorem faultsGrow_raise (c : FaultCode) (s : State) : FaultsGrow s (raiseFault c s) := ⟨_, raise_spec _ c⟩

theorem faultsGrow_wait (c : Cond) (s : State) : FaultsGrow s (wait c s).state := by
  unfold wait
  split
  · exact .of_eq rfl
  · split
    · exact (FaultsGrow.of_eq rfl : FaultsGrow s (polled s)).trans (faultsGrow_raise _ _)
    · exact .of_eq rfl

theorem faultsGrow_drain (s : State) : FaultsGrow s (drain s).state := by
  have h := faultsGrow_wait .quiescent s
  unfold drain
  cases hw : wait .quiescent s <;> rw [hw] at h <;> exact h

theorem faultsGrow_emitData (a : Act) (b : Byte) (s : State) : FaultsGrow s (emitData a b s).state := by
  have h := faultsGrow_wait .room s
  unfold emitData
  cases hw : wait .room s <;> rw [hw] at h
  · exact h.trans (.of_eq rfl)
  · exact h
  · exact h

theorem faultsGrow_sendColumns (bs : List Byte) (s : State) : FaultsGrow s (sendColumns bs s).state := by
  induction bs generalizing s with
  | nil => exact .refl s
  | cons b bs ih =>
    have h := faultsGrow_wait .room s
    unfold sendColumns
    cases hw : wait .room s <;> rw [hw] at h
    · exact h.trans ((FaultsGrow.of_eq rfl).trans (ih _))
    · exact h
    · exact h

theorem faultsGrow_putChar (inverted : Bool) (c : Nat) (s : State) : FaultsGrow s (putChar inverted c s).state := by
  unfold putChar
  split
  · exact faultsGrow_sendColumns _ _
  · exact faultsGrow_raise _ _

theorem faultsGrow_doAct (a : Act) (s : State) : FaultsGrow s (doAct a s).state := by
  cases a with
  | cmd b =>
    have h := faultsGrow_wait .quiescent s
    show FaultsGrow s (emitCommand b s).state
    unfold emitCommand
    cases hw : wait .quiescent s <;> rw [hw] at h
    · exact h.trans ((FaultsGrow.of_eq rfl).trans (faultsGrow_drain _))
    · exact h
    · exact h
  | drain => exact faultsGrow_drain s
  | dat b => exact faultsGrow_emitData _ b s
  | fbByte i => exact faultsGrow_emitData _ _ s
  | resByte a => exact faultsGrow_emitData _ _ s
  | put inverted c => exact faultsGrow_putChar inverted c s
  | putRes inverted a => exact faultsGrow_putChar inverted _ s
  | cell columns => exact faultsGrow_sendColumns columns s
  | pulse =>
    have h := faultsGrow_wait .quiescent s
    show FaultsGrow s (pulseDevice s).state
    unfold pulseDevice
    cases hw : wait .quiescent s <;> rw [hw] at h
    · exact h.trans (.of_eq rfl)
    · exact h
    · exact h

theorem faultsGrow_runActs (acts : List Act) (s : State) : FaultsGrow s (runActs acts s) := by
  induction acts generalizing s with
  | nil => exact .of_eq rfl
  | cons a rest ih =>
    have h := faultsGrow_doAct a s
    unfold runActs
    cases hd : doAct a s <;> rw [hd] at h
    · exact h.trans (ih _)
    · exact h.trans (.of_eq rfl)
    · exact h.trans (.of_eq rfl)

end Sys2Proof.Machine
end

