-- ==== Sys2Proof/Laws/Exec.lean ====
section
/-! SUPPORT. What executing a command is, for each of the two kinds: the five that draw and end at once, the twelve that
run a list of transport steps. -/

namespace Sys2Proof.Machine

theorem finish_of_ended {s : State} (h : Ended s) : finish s = s := by
  obtain ⟨h1, h2⟩ := h
  unfold finish
  apply State.ext <;> simp [h1, h2]

/-- What drawing leaves alone: all but `FB`, `CUR`, `Q`, `OOR`, `BUSY` and the working registers. -/
structure Drawn (s t : State) : Prop where
  cursor : t.cur = s.cur ∨ t.cur = ⟨0, 0⟩
  arg : t.arg = s.arg
  badcmd : t.fault.badcmd = s.fault.badcmd
  badchar : t.fault.badchar = s.fault.badchar
  timeout : t.fault.timeout = s.fault.timeout
  dc : t.dc = s.dc
  lcdrst : t.lcdrst = s.lcdrst
  rst : t.rst = s.rst
  opw : t.opw = s.opw
  argl : t.argl = s.argl
  params : t.params = s.params
  res : t.res = s.res
  peri : t.peri = s.peri
  inputs : t.inputs = s.inputs
  trace : t.trace = s.trace
  reads : t.reads = s.reads
  quiet : t.quiet = s.quiet
  dcSafe : t.dcSafe = s.dcSafe
  resets : t.resets = s.resets

theorem SameButPicture.drawn {s t : State} (h : SameButPicture s t)
    (hf : t.fault = s.fault ∨ t.fault = s.fault.raise .oor) : Drawn s t where
  cursor := .inl h.cur
  arg := h.arg
  badcmd := by rcases hf with hf | hf <;> simp [hf, FaultBits.raise]
  badchar := by rcases hf with hf | hf <;> simp [hf, FaultBits.raise]
  timeout := by rcases hf with hf | hf <;> simp [hf, FaultBits.raise]
  dc := h.dc
  lcdrst := h.lcdrst
  rst := h.rst
  opw := h.opw
  argl := h.argl
  params := h.params
  res := h.res
  peri := h.peri
  inputs := h.inputs
  trace := h.trace
  reads := h.reads
  quiet := h.quiet
  dcSafe := h.dcSafe
  resets := h.resets

/-- The five commands that send nothing: they end, having drawn at most. -/
theorem exec_drawing {i : Instr} (h : sendsNothing i = true) (s : State) :
    ∃ t, exec i s = .next (finish t) ∧ Drawn s t ∧ (movesCursor i = false → t.cur = s.cur) ∧
      ((∀ x y, i ≠ .qrypx x y) → t.q = s.q) ∧ (drawsInFb i = false → t.fb = s.fb) ∧
      (mayRaiseOor i = false → t.fault.oor = s.fault.oor) := by
  have pw : ∀ x y v, Drawn s (pixelWrite x y v s) := fun x y v =>
    (sameButPicture_pixelWrite x y v s).drawn (by
      rw [fault_pixelWrite]
      split
      · exact .inl rfl
      · exact .inr rfl)
  cases i <;> try contradiction
  case setpx x y =>
    exact ⟨_, rfl, pw x y true, fun _ => (sameButPicture_pixelWrite x y true s).cur,
      fun _ => (sameButPicture_pixelWrite x y true s).q, fun hd => by contradiction, fun ho => by contradiction⟩
  case clrpx x y =>
    exact ⟨_, rfl, pw x y false, fun _ => (sameButPicture_pixelWrite x y false s).cur,
      fun _ => (sameButPicture_pixelWrite x y false s).q, fun hd => by contradiction, fun ho => by contradiction⟩
  case qrypx x y =>
    refine ⟨_, rfl, ?_, fun _ => ?_, fun hq => absurd rfl (hq x y), fun _ => ?_,
      fun ho => by contradiction⟩
    · split
      · constructor <;> first | exact .inl rfl | rfl
      · constructor <;> first | exact .inl rfl | rfl
    · split <;> rfl
    · split <;> rfl
  case clrall =>
    refine ⟨_, execClrall_eq s, ?_, fun hm => by contradiction, fun _ => rfl, fun hd => by contradiction,
      fun _ => rfl⟩
    constructor <;> first | exact .inr rfl | rfl
  case blit x y t =>
    by_cases ha : BlitAccepted s x y
    · obtain ⟨u, h1, h2, h3, h4, -⟩ := execBlit_spec t ha
      refine ⟨u, ?_, h3.drawn ?_, fun _ => h3.cur, fun _ => h3.q, fun hd => by contradiction,
        fun ho => by contradiction⟩
      · rw [finish_of_ended h2]
        exact h1
      · rw [h4]
        split
        · exact .inr rfl
        · exact .inl rfl
    · rw [← blitAccept_iff, Bool.not_eq_true] at ha
      exact ⟨s, execBlit_rejected ha, (SameButPicture.refl s).drawn (.inl rfl), fun _ => rfl, fun _ => rfl,
        fun hd => by contradiction, fun ho => by contradiction⟩

/-- A digit is a character of the table, whatever the register holds (43_text.md R159). -/
theorem digitChars_valid (dig : Vector (BitVec 4) 5) (k : Nat) : ∀ c ∈ digitChars dig k, validChar c = true := by
  intro c hc
  unfold digitChars at hc
  obtain ⟨i, -, rfl⟩ := List.mem_map.mp hc
  have := (dig[i]?.getD 0).isLt
  unfold validChar
  rw [Bool.and_eq_true, decide_eq_true_iff, decide_eq_true_iff]
  show 0x20 ≤ _ ∧ _ < 0x20 + 95
  omega

theorem fieldChars_valid (dig : Vector (BitVec 4) 5) (k : Nat) : ∀ c ∈ fieldChars dig k, validChar c = true := by
  intro c hc
  rcases List.mem_append.mp hc with hc | hc
  · rw [(List.mem_replicate.mp hc).2]
    rfl
  · exact digitChars_valid dig k c hc

/-- Putting valid characters meets no invalid one. -/
theorem mayBeBad_put {inverted : Bool} {l : List Nat} (h : ∀ c ∈ l, validChar c = true) :
    ∀ a ∈ l.map (Act.put inverted), a.mayBeBad = false := by
  intro a ha
  obtain ⟨c, hc, rfl⟩ := List.mem_map.mp ha
  show (!validChar c) = false
  rw [h c hc]
  rfl

/-- The twelve other commands: a list of transport steps, found from the operands, the parameters, `ARGL` and, for a
silent no-op, the registers themselves. -/
theorem exec_sending {i : Instr} (h : sendsNothing i = false) (s : State) :
    ∃ acts q c,
      (∀ s' : State, s'.params = s.params → s'.argl = s.argl → s'.cur = s.cur → s'.seq = s.seq →
        exec i s' = .next (runActs acts ((s'.setCur c).setSeq q))) ∧
      (movesCursor i = false → c = s.cur) ∧ (CursorInGrid s → c.col.toNat < 12 ∧ c.row.toNat < 6) ∧
      (i ≠ .init → ∀ a ∈ acts, a.isPulse = false) ∧ (i ≠ .flush → ∀ a ∈ acts, a.readsFb = false) ∧
      (mayRaiseBadchar i = false → ∀ a ∈ acts, a.mayBeBad = false) := by
  have one : ∀ {P : Act → Prop} {a : Act}, P a → ∀ b ∈ [a], P b := fun ha b hb => by
    rw [List.mem_singleton] at hb
    exact hb ▸ ha
  have many : ∀ {α : Type} {P : Act → Prop} {f : α → Act} {l : List α}, (∀ x, P (f x)) → ∀ b ∈ l.map f, P b :=
    fun hf b hb => by
      obtain ⟨x, -, rfl⟩ := List.mem_map.mp hb
      exact hf x
  have cons : ∀ {P : Act → Prop} {a : Act} {l : List Act}, P a → (∀ b ∈ l, P b) → ∀ b ∈ a :: l, P b :=
    fun ha hl => List.forall_mem_cons.mpr ⟨ha, hl⟩
  have both : ∀ {P : Act → Prop} {k l : List Act}, (∀ b ∈ k, P b) → (∀ b ∈ l, P b) → ∀ b ∈ k ++ l, P b :=
    fun hk hl => List.forall_mem_append.mpr ⟨hk, hl⟩
  have plain : ∀ (acts : List Act) (q : Seq),
      (∀ s' : State, s'.params = s.params → s'.argl = s.argl → s'.cur = s.cur → s'.seq = s.seq →
        exec i s' = .next (runActs acts ((s'.setCur s'.cur).setSeq q))) →
      (i ≠ .init → ∀ a ∈ acts, a.isPulse = false) → (i ≠ .flush → ∀ a ∈ acts, a.readsFb = false) →
      (mayRaiseBadchar i = false → ∀ a ∈ acts, a.mayBeBad = false) →
      ∃ acts q c,
        (∀ s' : State, s'.params = s.params → s'.argl = s.argl → s'.cur = s.cur → s'.seq = s.seq →
          exec i s' = .next (runActs acts ((s'.setCur c).setSeq q))) ∧
        (movesCursor i = false → c = s.cur) ∧ (CursorInGrid s → c.col.toNat < 12 ∧ c.row.toNat < 6) ∧
        (i ≠ .init → ∀ a ∈ acts, a.isPulse = false) ∧ (i ≠ .flush → ∀ a ∈ acts, a.readsFb = false) ∧
        (mayRaiseBadchar i = false → ∀ a ∈ acts, a.mayBeBad = false) :=
    fun acts q he hp hr hb =>
      ⟨acts, q, s.cur, fun s' h1 h2 h3 h4 => h3 ▸ he s' h1 h2 h3 h4, fun _ => rfl, id, hp, hr, hb⟩
  cases i <;> try contradiction
  case wrcmd b => exact plain _ _ (fun _ _ _ _ _ => rfl) (fun _ => one rfl) (fun _ => one rfl) (fun _ => one rfl)
  case wrdat b => exact plain _ _ (fun _ _ _ _ _ => rfl) (fun _ => one rfl) (fun _ => one rfl) (fun _ => one rfl)
  case putc c =>
    exact plain _ _ (fun _ _ _ _ _ => rfl) (fun _ => one rfl) (fun _ => one rfl) (fun hb => by contradiction)
  case putci c =>
    exact plain _ _ (fun _ _ _ _ _ => rfl) (fun _ => one rfl) (fun _ => one rfl) (fun hb => by contradiction)
  case puts n =>
    exact plain ((List.range n).map fun j => .putRes false (resAddr s.argl j)) Seq.dead
      (fun s' _ ha _ _ => by rw [← ha]; rfl) (fun _ => many fun _ => rfl) (fun _ => many fun _ => rfl)
      (fun hb => by contradiction)
  case putsi n =>
    exact plain ((List.range n).reverse.map fun j => .putRes true (resAddr s.argl j)) Seq.dead
      (fun s' _ ha _ _ => by rw [← ha]; rfl) (fun _ => many fun _ => rfl) (fun _ => many fun _ => rfl)
      (fun hb => by contradiction)
  case putud n =>
    exact plain ((fieldChars (digitsOf n) (sigDigits n)).map (Act.put false)) { Seq.dead with dig := digitsOf n }
      (fun _ _ _ _ _ => rfl) (fun _ => many fun _ => rfl) (fun _ => many fun _ => rfl)
      (fun _ => mayBeBad_put (fieldChars_valid _ _))
  case putd n =>
    exact plain ((digitChars (digitsOf n) (sigDigits n)).map (Act.put false)) { Seq.dead with dig := digitsOf n }
      (fun _ _ _ _ _ => rfl) (fun _ => many fun _ => rfl) (fun _ => many fun _ => rfl)
      (fun _ => mayBeBad_put (digitChars_valid _ _))
  case init =>
    exact plain (.pulse :: s.params.initScript.map Act.cmd) Seq.dead (fun s' hp _ _ _ => by rw [← hp]; rfl)
      (fun hn => absurd rfl hn) (fun _ => cons rfl (many fun _ => rfl)) (fun _ => cons rfl (many fun _ => rfl))
  case flush =>
    exact ⟨setAddressActs s.params 0 0 ++ (List.range Config.fbSize).map Act.fbByte, Seq.dead, ⟨0, 0⟩,
      fun s' hp _ _ _ => by rw [← hp]; rfl, fun hm => by contradiction, fun _ => by decide,
      fun _ => both (cons rfl (one rfl)) (many fun _ => rfl), fun hn => absurd rfl hn,
      fun _ => both (cons rfl (one rfl)) (many fun _ => rfl)⟩
  case fullimg =>
    exact ⟨setAddressActs s.params 0 0 ++ (List.range Config.fbSize).map fun i => .resByte (resAddr s.argl i),
      Seq.dead, ⟨0, 0⟩, fun s' hp ha _ _ => by rw [← hp, ← ha]; rfl, fun hm => by contradiction, fun _ => by decide,
      fun _ => both (cons rfl (one rfl)) (many fun _ => rfl), fun _ => both (cons rfl (one rfl)) (many fun _ => rfl),
      fun _ => both (cons rfl (one rfl)) (many fun _ => rfl)⟩
  case setcur col row =>
    by_cases hg : cellInGrid col row = true
    · refine ⟨setAddressActs s.params col row, Seq.dead, ⟨BitVec.ofNat 4 col, BitVec.ofNat 3 row⟩,
        fun s' hp _ _ _ => by rw [← hp]; show execSetcur col row s' = _; unfold execSetcur; rw [if_pos hg]; rfl,
        fun hm => by contradiction, fun _ => ?_, fun _ => cons rfl (one rfl), fun _ => cons rfl (one rfl),
        fun _ => cons rfl (one rfl)⟩
      have hc : col < 12 ∧ row < 6 := by
        unfold cellInGrid at hg
        simpa using hg
      show (BitVec.ofNat 4 col).toNat < 12 ∧ (BitVec.ofNat 3 row).toNat < 6
      rw [BitVec.toNat_ofNat, BitVec.toNat_ofNat]
      omega
    · refine plain [] s.seq (fun s' _ _ _ hq => ?_) (fun _ => List.forall_mem_nil _) (fun _ => List.forall_mem_nil _)
        (fun _ => List.forall_mem_nil _)
      rw [← hq]
      show execSetcur col row s' = _
      unfold execSetcur
      rw [if_neg hg]
      rfl

end Sys2Proof.Machine
end

