-- ==== Sys2Proof/Laws/Memory.lean ====
section
/-! SUPPORT. The laws of the canonical byte memory: read after write, and the canonical form is kept. -/

namespace Sys2Proof.Machine

theorem Memory.read_cons (k : Nat) (b : Byte) (m : Memory) (a : Nat) :
    Memory.read ((k, b) :: m) a = if k = a then b else Memory.read m a := rfl

/-- An address below every listed one is unlisted. -/
theorem Memory.read_of_lt (m : Memory) (a : Nat) (h : ∀ c ∈ m, a < c.1) : Memory.read m a = Config.resUnlisted := by
  induction m with
  | nil => rfl
  | cons c m ih =>
    obtain ⟨k, b⟩ := c
    have hk : a < k := h (k, b) (by simp)
    rw [Memory.read_cons, if_neg (by omega)]
    exact ih fun c hc => h c (List.mem_cons_of_mem _ hc)

/-- Reading back what was written, and every other address as before. -/
theorem Memory.read_write (m : Memory) (hm : Memory.wf m) (a : Nat) (v : Byte) (a' : Nat) :
    Memory.read (Memory.write m a v) a' = if a = a' then v else Memory.read m a' := by
  induction m with
  | nil =>
    unfold Memory.write
    split <;> rename_i hv <;> simp [Memory.read, hv]
  | cons c m ih =>
    obtain ⟨k, b⟩ := c
    have hp := List.pairwise_cons.mp hm.1
    have ihm := ih ⟨hp.2, fun c hc => hm.2 c (List.mem_cons_of_mem _ hc)⟩
    unfold Memory.write
    by_cases h1 : k < a
    · rw [if_pos h1, Memory.read_cons, Memory.read_cons, ihm]
      split <;> split <;> first | rfl | omega
    · rw [if_neg h1]
      by_cases h2 : k = a
      · subst h2
        rw [if_pos rfl]
        split
        · rename_i hv
          rw [Memory.read_cons]
          split
          · rename_i h; rw [← h, hv]; exact Memory.read_of_lt m k fun c hc => hp.1 c hc
          · rfl
        · rw [Memory.read_cons, Memory.read_cons]; split <;> rfl
      · rw [if_neg h2]
        split
        · rename_i hv
          split
          · rename_i h; subst h
            rw [hv]
            refine Memory.read_of_lt _ a fun c hc => ?_
            rcases List.mem_cons.mp hc with rfl | hc
            · show a < k; omega
            · have := hp.1 c hc
              show a < c.1
              simp only at this
              omega
          · rfl
        · rw [Memory.read_cons]

/-- A listed address after a write is the one written or one listed before. -/
theorem Memory.mem_write (m : Memory) (a : Nat) (v : Byte) (c : Host.Cell) (h : c ∈ Memory.write m a v) :
    (c = (a, v) ∧ v ≠ Config.resUnlisted) ∨ c ∈ m := by
  induction m with
  | nil =>
    unfold Memory.write at h
    split at h
    · simp at h
    · rename_i hv; exact .inl ⟨by simpa using h, hv⟩
  | cons d m ih =>
    obtain ⟨k, b⟩ := d
    unfold Memory.write at h
    split at h
    · rcases List.mem_cons.mp h with rfl | h
      · exact .inr (by simp)
      · exact (ih h).imp id (List.mem_cons_of_mem _)
    · split at h <;> split at h <;> rename_i hv
      · exact .inr (List.mem_cons_of_mem _ h)
      · rcases List.mem_cons.mp h with rfl | h
        · exact .inl ⟨rfl, hv⟩
        · exact .inr (List.mem_cons_of_mem _ h)
      · exact .inr h
      · rcases List.mem_cons.mp h with rfl | h
        · exact .inl ⟨rfl, hv⟩
        · exact .inr h

/-- A write keeps the canonical form. -/
theorem Memory.write_wf (m : Memory) (hm : Memory.wf m) (a : Nat) (ha : a < 2 ^ 32) (v : Byte) :
    Memory.wf (Memory.write m a v) := by
  constructor
  · induction m with
    | nil => unfold Memory.write; split <;> simp
    | cons d m ih =>
      obtain ⟨k, b⟩ := d
      have hp := List.pairwise_cons.mp hm.1
      have ihm := ih ⟨hp.2, fun c hc => hm.2 c (List.mem_cons_of_mem _ hc)⟩
      unfold Memory.write
      split
      · rename_i hk
        refine List.pairwise_cons.mpr ⟨fun c hc => ?_, ihm⟩
        rcases Memory.mem_write m a v c hc with ⟨rfl, -⟩ | hc
        · exact hk
        · exact hp.1 c hc
      · split <;> split
        · exact hp.2
        · rename_i hk _
          exact List.pairwise_cons.mpr ⟨fun c hc => hk ▸ hp.1 c hc, hp.2⟩
        · exact hm.1
        · rename_i h1 h2 _
          refine List.pairwise_cons.mpr ⟨fun c hc => ?_, hm.1⟩
          rcases List.mem_cons.mp hc with rfl | hc
          · show a < k; omega
          · have := hp.1 c hc
            simp only at this ⊢
            omega
  · intro c hc
    rcases Memory.mem_write m a v c hc with ⟨rfl, hv⟩ | hc
    · exact ⟨hv, ha⟩
    · exact hm.2 c hc

end Sys2Proof.Machine
end

