-- ==== Sys2Proof/Laws/Invariant.lean ====
section
/-! SUPPORT. Which fields the invariant is about, what a run of steps and the reset of the block make of it, and what
the registers read while the reset values are held. -/

namespace Sys2Proof.Machine

/-- The reset values are a matter of seven fields. -/
theorem AtReset.congr {s t : State} (h : AtReset s) (cur : t.cur = s.cur) (arg : t.arg = s.arg) (q : t.q = s.q)
    (busy : t.busy = s.busy) (fault : t.fault = s.fault) (lcdrst : t.lcdrst = s.lcdrst) (trace : t.trace = s.trace) :
    AtReset t where
  cursor := cur.trans h.cursor
  arg := arg.trans h.arg
  q := q.trans h.q
  busy := busy.trans h.busy
  fault := fault.trans h.fault
  lcdrst := lcdrst.trans h.lcdrst
  trace := trace.trans h.trace

/-- The registers read 0 while the reset values are held (10_state.md R38). -/
theorem AtReset.regRead {s : State} (h : AtReset s) (off : Nat) : regRead off s = 0 := by
  unfold Machine.regRead statusWord faultWord cursorWord
  rw [h.arg, h.q, h.busy, h.fault, h.cursor]
  repeat' split
  all_goals rfl

/-- An asserted reset input leaves the reset values. -/
theorem atReset_resetBlock (s : State) : AtReset (resetBlock s) := by
  constructor <;> simp

/-- The invariant out of reset is a matter of six fields. -/
theorem Inv.congr {s t : State} (h : Inv s) (held : t.rst = .asserted → AtReset t) (params : t.params = s.params)
    (cur : t.cur = s.cur) (lcdrst : t.lcdrst = s.lcdrst) (busy : t.busy = s.busy) (seq : t.seq = s.seq)
    (res : t.res = s.res) : Inv t where
  parameters := params ▸ h.parameters
  held := held
  cursor := by
    unfold CursorInGrid
    rw [cur]
    exact h.cursor
  resetLine := lcdrst.trans h.resetLine
  sequencer := by
    unfold SequencerSound
    rw [busy, seq]
    exact h.sequencer
  resource := res ▸ h.resource

/-- A busy block is out of reset. -/
theorem Inv.released_of_busy {s : State} (h : Inv s) (hb : s.busy = true) : s.rst = .released := by
  cases hr : s.rst with
  | released => rfl
  | asserted =>
    have := (h.held hr).busy
    rw [hb] at this
    contradiction

theorem sequencerSound_of_ended {s : State} (h : Ended s) : SequencerSound s :=
  ⟨fun _ => h.2, fun hb => by rw [h.1] at hb; contradiction⟩

/-- The reset of the block meets the invariant. -/
theorem inv_resetBlock {s : State} (h : Inv s) : Inv (resetBlock s) where
  parameters := by simpa using h.parameters
  held _ := atReset_resetBlock s
  cursor := by
    unfold CursorInGrid
    rw [resetBlock_cur]
    decide
  resetLine := by simp
  sequencer := sequencerSound_of_ended ⟨by simp, by simp⟩
  resource := by simpa using h.resource

/-- A run of steps that starts out of reset, with the line released, ends in the invariant, whatever stood in the
working registers. -/
theorem inv_runActs (acts : List Act) {s : State} (hp : s.params.wf = true) (hr : s.rst = .released)
    (hc : CursorInGrid s) (hl : s.lcdrst = .released) (hm : Memory.wf s.res) : Inv (runActs acts s) where
  parameters := (sameButTransport_runActs acts s).params ▸ hp
  held h := by
    rw [(sameButTransport_runActs acts s).rst, hr] at h
    contradiction
  cursor := by
    unfold CursorInGrid
    rw [(sameButTransport_runActs acts s).cur]
    exact hc
  resetLine := by
    rcases runActs_spec acts s with ⟨-, n, h⟩ | ⟨-, -, -, n, ev, b, h, -, -⟩ | ⟨-, -, -, -, h⟩
    · exact h.resetLine hl
    · exact h.resetLine hl
    · exact h hl
  sequencer := by
    rcases runActs_spec acts s with ⟨h, -⟩ | ⟨hb, hw, -⟩ | ⟨h, -⟩
    · exact sequencerSound_of_ended h
    · exact ⟨fun h => by rw [hb] at h; contradiction, fun _ => hw⟩
    · exact sequencerSound_of_ended h
  resource := (sameButTransport_runActs acts s).res ▸ hm

end Sys2Proof.Machine
end

