-- ==== Sys2Proof/Laws/PerInstr.lean ====
section
/-! SUPPORT. One lemma per constructor of `Instr`: the encoded word lies in the command's own row of the opcode map
(30_encoding.md R86). -/

namespace Sys2Proof.Laws.EncodeRow

/-- The word of the command matches the row of its opcode. -/
def Statement (i : Instr) : Prop :=
  ∃ row ∈ opcodeMap, row.opcode = i.opcode ∧ encode i &&& row.mask = row.pattern

theorem wrcmd (b : Nat) : Statement (.wrcmd b) :=
  ⟨⟨0x01, 0x01000000, 0xFFFFFF00⟩, by decide, rfl, bytes_mask24 _ _ _ _⟩

theorem wrdat (b : Nat) : Statement (.wrdat b) :=
  ⟨⟨0x02, 0x02000000, 0xFFFFFF00⟩, by decide, rfl, bytes_mask24 _ _ _ _⟩

theorem setpx (x y : Nat) : Statement (.setpx x y) :=
  ⟨⟨0x10, 0x10000000, 0xFFFF0000⟩, by decide, rfl, bytes_mask16 _ _ _ _⟩

theorem clrpx (x y : Nat) : Statement (.clrpx x y) :=
  ⟨⟨0x11, 0x11000000, 0xFFFF0000⟩, by decide, rfl, bytes_mask16 _ _ _ _⟩

theorem qrypx (x y : Nat) : Statement (.qrypx x y) :=
  ⟨⟨0x12, 0x12000000, 0xFFFF0000⟩, by decide, rfl, bytes_mask16 _ _ _ _⟩

theorem clrall : Statement .clrall :=
  ⟨⟨0x13, 0x13000000, 0xFFFFFFFF⟩, by decide, rfl, by decide⟩

theorem blit (x y t : Nat) : Statement (.blit x y t) :=
  ⟨⟨0x20, 0x20000000, 0xFF000000⟩, by decide, rfl, bytes_mask8 _ _ _ _⟩

theorem putc (c : Nat) : Statement (.putc c) :=
  ⟨⟨0x30, 0x30000000, 0xFFFFFF00⟩, by decide, rfl, bytes_mask24 _ _ _ _⟩

theorem puts (n : Nat) : Statement (.puts n) :=
  ⟨⟨0x31, 0x31000000, 0xFFFF0000⟩, by decide, rfl, half_mask16 _ _ _⟩

theorem putud (n : Nat) : Statement (.putud n) :=
  ⟨⟨0x32, 0x32000000, 0xFFFF0000⟩, by decide, rfl, half_mask16 _ _ _⟩

theorem putd (n : Nat) : Statement (.putd n) :=
  ⟨⟨0x33, 0x33000000, 0xFFFF0000⟩, by decide, rfl, half_mask16 _ _ _⟩

theorem setcur (col row : Nat) : Statement (.setcur col row) :=
  ⟨⟨0x34, 0x34000000, 0xFFFF0000⟩, by decide, rfl, bytes_mask16 _ _ _ _⟩

theorem putci (c : Nat) : Statement (.putci c) :=
  ⟨⟨0x35, 0x35000000, 0xFFFFFF00⟩, by decide, rfl, bytes_mask24 _ _ _ _⟩

theorem putsi (n : Nat) : Statement (.putsi n) :=
  ⟨⟨0x36, 0x36000000, 0xFFFF0000⟩, by decide, rfl, half_mask16 _ _ _⟩

theorem init : Statement .init :=
  ⟨⟨0x40, 0x40000000, 0xFFFFFFFF⟩, by decide, rfl, by decide⟩

theorem flush : Statement .flush :=
  ⟨⟨0x41, 0x41000000, 0xFFFFFFFF⟩, by decide, rfl, by decide⟩

theorem fullimg : Statement .fullimg :=
  ⟨⟨0x42, 0x42000000, 0xFFFFFFFF⟩, by decide, rfl, by decide⟩

end Sys2Proof.Laws.EncodeRow
end

