-- ==== Sys2Proof/Laws/SelectLine.lean ====
section
/-! SUPPORT. The select line through a run of steps: what a wait, a push and a step keep of "`DC` changes only while
nothing is in flight" (40_transport.md R116). -/

namespace Sys2Proof.Machine

/-- Before a step: `DC` at "command" and something in flight only where the step is the drain. -/
def SelectBefore (acts : List Act) (s : State) : Prop :=
  s.fault.timeout = false → s.dcSafe = true ∧ (s.dc = .command → s.quiet = true ∨ acts.head? = some .drain)

/-- Between steps: `DC` at "command" means nothing in flight. -/
def SelectBetween (s : State) : Prop :=
  s.fault.timeout = false → s.dcSafe = true ∧ (s.dc = .command → s.quiet = true)

theorem SelectBetween.before {s : State} (h : SelectBetween s) (acts : List Act) : SelectBefore acts s := fun ht =>
  ⟨(h ht).1, fun hd => .inl ((h ht).2 hd)⟩

theorem SelectBetween.sound {s : State} (h : SelectBetween s) : SelectLineSound s := fun ht =>
  ⟨(h ht).1, fun hd => .inl ((h ht).2 hd)⟩

theorem SelectBefore.between {a : Act} {acts : List Act} {s : State} (h : SelectBefore (a :: acts) s)
    (ha : a ≠ .drain) : SelectBetween s := fun ht => ⟨(h ht).1, fun hd =>
  ((h ht).2 hd).resolve_right fun he => ha (by simpa using he)⟩

theorem SelectBetween.congr {s t : State} (h : SelectBetween s) (hf : t.fault = s.fault) (hd : t.dc = s.dc)
    (hs : t.dcSafe = s.dcSafe) (hq : t.quiet = s.quiet) : SelectBetween t := by
  unfold SelectBetween
  rw [hf, hd, hs, hq]
  exact h

theorem SelectBefore.congr {acts : List Act} {s t : State} (h : SelectBefore acts s) (hf : t.fault = s.fault)
    (hd : t.dc = s.dc) (hs : t.dcSafe = s.dcSafe) (hq : t.quiet = s.quiet) : SelectBefore acts t := by
  unfold SelectBefore
  rw [hf, hd, hs, hq]
  exact h

/-- A met wait for `busy = 0` has seen the peripheral quiescent, whatever stood before. -/
theorem selectBetween_quiescent {s : State} (h : s.fault.timeout = false → s.dcSafe = true) :
    SelectBetween ((setToc 0 (polled s)).setQuiet (s.quiet || Cond.quiescent == .quiescent)) := by
  unfold SelectBetween
  simp only [setToc, polled, State.fault_setQuiet, State.fault_setSeq, State.fault_setPeri, State.dcSafe_setQuiet,
    State.dcSafe_setSeq, State.dcSafe_setPeri, State.quiet_setQuiet]
  exact fun ht => ⟨h ht, fun _ => by simp⟩

theorem selectBetween_room {s : State} (h : SelectBetween s) :
    SelectBetween ((setToc 0 (polled s)).setQuiet (s.quiet || Cond.room == .quiescent)) :=
  h.congr (by simp [setToc, polled]) (by simp [setToc, polled]) (by simp [setToc, polled])
    (by simp [setToc, polled])

theorem selectBefore_again {acts : List Act} {s : State} (h : SelectBefore acts s) :
    SelectBefore acts (setToc (s.seq.toc + 1) (polled s)) :=
  h.congr (by simp [setToc, polled]) (by simp [setToc, polled]) (by simp [setToc, polled])
    (by simp [setToc, polled])

theorem selectBetween_pushData {s : State} (b : Byte) (h : SelectBetween s) : SelectBetween (push .data b s) := by
  unfold SelectBetween
  simp only [push, State.fault_setQuiet, State.fault_setTrace, State.fault_setDc, State.fault_setDcSafe,
    State.dcSafe_setQuiet, State.dcSafe_setTrace, State.dcSafe_setDc, State.dcSafe_setDcSafe, State.dc_setQuiet,
    State.dc_setTrace, State.dc_setDc]
  intro ht
  refine ⟨?_, fun hd => by contradiction⟩
  rw [(h ht).1, Bool.true_and]
  cases hd : s.dc with
  | command => rw [(h ht).2 hd, Bool.or_true]
  | data => rfl

theorem selectBefore_pushCommand {s : State} (b : Byte) (h : s.fault.timeout = false → s.dcSafe = true ∧ s.quiet = true)
    (rest : List Act) : SelectBefore (.drain :: rest) (push .command b s) := by
  unfold SelectBefore
  simp only [push, State.fault_setQuiet, State.fault_setTrace, State.fault_setDc, State.fault_setDcSafe,
    State.dcSafe_setQuiet, State.dcSafe_setTrace, State.dcSafe_setDc, State.dcSafe_setDcSafe]
  intro ht
  refine ⟨?_, fun _ => .inr rfl⟩
  rw [(h ht).1, (h ht).2, Bool.or_true, Bool.and_true]

/-- What a step keeps of the select line. -/
def Progress.Select : Progress → Prop
  | .done t => SelectBetween t
  | .stalled left t => SelectBefore left t ∧ left ≠ []
  | .ended t => t.fault.timeout = true

theorem wait_three (c : Cond) (s : State) :
    wait c s = .met ((setToc 0 (polled s)).setQuiet (s.quiet || c == .quiescent)) ∨
      wait c s = .again (setToc (s.seq.toc + 1) (polled s)) ∨
      wait c s = .gaveUp (raiseFault .timeout (polled s)) := by
  unfold wait
  split
  · exact .inl rfl
  · split
    · exact .inr (.inr rfl)
    · exact .inr (.inl rfl)

theorem drain_select {s : State} (h : SelectBefore [.drain] s) : (drain s).Select := by
  unfold drain
  rcases wait_three .quiescent s with hw | hw | hw <;> rw [hw]
  · exact selectBetween_quiescent fun ht => (h ht).1
  · exact ⟨selectBefore_again h, List.cons_ne_nil _ _⟩
  · rfl

theorem emitData_select {a : Act} (b : Byte) {s : State} (h : SelectBetween s) : (emitData a b s).Select := by
  unfold emitData
  rcases wait_three .room s with hw | hw | hw <;> rw [hw]
  · exact selectBetween_pushData b (selectBetween_room h)
  · exact ⟨selectBefore_again (h.before _), List.cons_ne_nil _ _⟩
  · rfl

theorem sendColumns_select (bs : List Byte) {s : State} (h : SelectBetween s) : (sendColumns bs s).Select := by
  induction bs generalizing s with
  | nil => exact h
  | cons b bs ih =>
    unfold sendColumns
    rcases wait_three .room s with hw | hw | hw <;> rw [hw]
    · exact ih (selectBetween_pushData b (selectBetween_room h))
    · exact ⟨selectBefore_again (h.before _), List.cons_ne_nil _ _⟩
    · rfl

theorem putChar_select (inverted : Bool) (c : Nat) {s : State} (h : SelectBetween s) :
    (putChar inverted c s).Select := by
  unfold putChar
  split
  · exact sendColumns_select _ h
  · intro ht
    exact h (by simpa [raiseFault, FaultBits.raise] using ht)

theorem selectBetween_resetPulse {s : State} (h : SelectBetween s) : SelectBetween (resetPulse s) :=
  h.congr (by simp [resetPulse]) (by simp [resetPulse]) (by simp [resetPulse]) (by simp [resetPulse])

theorem doAct_select {a : Act} {s : State} (h : SelectBefore [a] s) : (doAct a s).Select := by
  cases a with
  | cmd b =>
    show (emitCommand b s).Select
    unfold emitCommand
    rcases wait_three .quiescent s with hw | hw | hw <;> rw [hw]
    · have hb := selectBetween_quiescent (s := s) fun ht => (h ht).1
      exact drain_select (selectBefore_pushCommand b (fun ht => ⟨(hb ht).1, by simp⟩) [])
    · exact ⟨selectBefore_again h, List.cons_ne_nil _ _⟩
    · rfl
  | drain => exact drain_select h
  | dat b => exact emitData_select b (h.between (by simp))
  | fbByte i => exact emitData_select _ (h.between (by simp))
  | resByte a => exact emitData_select _ (h.between (by simp))
  | put inverted c => exact putChar_select inverted c (h.between (by simp))
  | putRes inverted a => exact putChar_select inverted _ (h.between (by simp))
  | cell columns => exact sendColumns_select columns (h.between (by simp))
  | pulse =>
    show (pulseDevice s).Select
    unfold pulseDevice
    rcases wait_three .quiescent s with hw | hw | hw <;> rw [hw]
    · exact selectBetween_resetPulse (selectBetween_quiescent fun ht => (h ht).1)
    · exact ⟨selectBefore_again h, List.cons_ne_nil _ _⟩
    · rfl

/-- What a run of steps keeps of the select line. -/
theorem runActs_select {acts : List Act} {s : State} (h : SelectBefore acts s) (hn : acts = [] → SelectBetween s) :
    SelectLineSound (runActs acts s) := by
  induction acts generalizing s with
  | nil =>
    exact ((hn rfl).congr (t := finish s) rfl rfl rfl rfl).sound
  | cons a rest ih =>
    have hq := doAct_select (a := a) (s := s) fun ht => ⟨(h ht).1, fun hd => ((h ht).2 hd).imp_right fun he => he⟩
    unfold runActs
    cases hd : doAct a s with
    | done t =>
      rw [hd] at hq
      exact ih (SelectBetween.before hq _) fun _ => hq
    | stalled left t =>
      rw [hd] at hq
      obtain ⟨hq, hl⟩ := hq
      have hh : (left ++ rest).head? = left.head? := by
        cases left with
        | nil => contradiction
        | cons b l => rfl
      intro ht
      refine ⟨(hq ht).1, fun hd => ((hq ht).2 hd).imp_right fun he => ⟨rfl, ?_⟩⟩
      show (left ++ rest).head? = _
      rw [hh, he]
    | ended t =>
      rw [hd] at hq
      intro ht
      rw [finish_fault, hq] at ht
      contradiction

end Sys2Proof.Machine
end

