-- ==== Sys2Proof/Laws/Step.lean ====
section
/-! SUPPORT. Which input the next step takes, what one step is for each input, and how runs of steps go on. -/

namespace Sys2Proof.Machine

theorem coreRun_succ (M : Host.Core) (k : Nat) {s t : M.State} (h : M.step s = .next t) :
    M.run (k + 1) s = M.run k t := by
  rw [Host.Core.run, h]

/-- A run goes on with the run from the next state. -/
theorem run_succ {s t : State} (k : Nat) (h : step s = .next t) : core.run (k + 1) s = core.run k t :=
  coreRun_succ core k h

theorem run_one {s t : State} (h : step s = .next t) : core.run 1 s = .next t := run_succ 0 h

/-! ### The input the next step takes -/

theorem inReset_iff (s : State) : inReset s = true ↔ s.rst = .asserted := by
  unfold inReset
  exact beq_iff_eq

theorem inReset_false_iff (s : State) : inReset s = false ↔ s.rst = .released := by
  unfold inReset
  cases s.rst <;> decide

/-- Nothing of an access to another register, and none of the platform's inputs, is held. -/
theorem holds_of_notIssue (s : State) {a : Input} (h : a.isIssue = false) : holds s a = false := by
  unfold holds
  rw [h, Bool.false_and]

/-- An idle block out of reset holds nothing. -/
theorem holds_of_free {s : State} (hb : s.busy = false) (hr : s.rst = .released) (a : Input) : holds s a = false := by
  unfold holds
  rw [hb, (inReset_false_iff s).mpr hr, Bool.or_false, Bool.and_false]

theorem isIssue_of_platform {a : Input} (h : a.isHost = false) : a.isIssue = false := by
  cases a <;> first | contradiction | rfl

theorem nextInput_nil {s : State} (h : s.inputs = []) : nextInput s = none := by
  unfold nextInput
  rw [h]

/-- An input that is not held is taken. -/
theorem nextInput_head {s : State} {a : Input} {rest : List Input} (h : s.inputs = a :: rest)
    (ha : holds s a = false) : nextInput s = some (a, rest) := by
  unfold nextInput
  rw [h]
  simp [ha]

/-- A held write lets only the platform's inputs pass. -/
theorem nextInput_held {s : State} {a : Input} {rest : List Input} (h : s.inputs = a :: rest)
    (ha : holds s a = true) : nextInput s = (firstPlatform rest).map fun p => (p.1, a :: p.2) := by
  unfold nextInput
  rw [h]
  simp [ha]

/-- Whether an input is taken depends on the inputs, `BUSY` and the reset input only. -/
theorem nextInput_congr {s t : State} (hi : t.inputs = s.inputs) (hb : t.busy = s.busy) (hr : t.rst = s.rst) :
    nextInput t = nextInput s := by
  unfold nextInput holds inReset
  rw [hi, hb, hr]

/-- The platform's first input is one of the inputs and no host access; the others stay, in order. -/
theorem firstPlatform_spec {l : List Input} {a : Input} {q : List Input} (h : firstPlatform l = some (a, q)) :
    a.isHost = false ∧ a ∈ l ∧ (∀ b ∈ q, b ∈ l) ∧ q.filter Input.isIssue = l.filter Input.isIssue := by
  induction l generalizing q with
  | nil => contradiction
  | cons b rest ih =>
    unfold firstPlatform at h
    split at h
    · rw [Option.map_eq_some_iff] at h
      obtain ⟨⟨a', q'⟩, h1, h2⟩ := h
      injection h2 with h2 h3
      subst h2 h3
      obtain ⟨i1, i2, i3, i4⟩ := ih h1
      refine ⟨i1, List.mem_cons_of_mem _ i2, fun c hc => ?_, ?_⟩
      · rcases List.mem_cons.mp hc with rfl | hc
        · exact List.mem_cons_self
        · exact List.mem_cons_of_mem _ (i3 c hc)
      · simp only [List.filter_cons, i4]
    · rename_i hb
      injection h with h
      injection h with h1 h2
      subst h1 h2
      have hb : b.isHost = false := by simpa using hb
      refine ⟨hb, List.mem_cons_self, fun c hc => List.mem_cons_of_mem _ hc, ?_⟩
      rw [List.filter_cons, isIssue_of_platform hb]
      rfl

/-- The input taken is one of the inputs and not held; the others stay, and every issue among them unless it is the one
taken. -/
theorem nextInput_spec {s : State} {a : Input} {q : List Input} (h : nextInput s = some (a, q)) :
    holds s a = false ∧ a ∈ s.inputs ∧ (∀ b ∈ q, b ∈ s.inputs) ∧
      (a.isIssue = false → q.filter Input.isIssue = s.inputs.filter Input.isIssue) := by
  cases hi : s.inputs with
  | nil => rw [nextInput_nil hi] at h; contradiction
  | cons b rest =>
    cases hb : holds s b
    · rw [nextInput_head hi hb] at h
      injection h with h
      injection h with h1 h2
      subst h1 h2
      refine ⟨hb, List.mem_cons_self, fun c hc => List.mem_cons_of_mem _ hc, fun ha => ?_⟩
      rw [List.filter_cons, ha]
      rfl
    · rw [nextInput_held hi hb, Option.map_eq_some_iff] at h
      obtain ⟨⟨a', q'⟩, h1, h2⟩ := h
      injection h2 with h2 h3
      subst h2 h3
      obtain ⟨i1, i2, i3, i4⟩ := firstPlatform_spec h1
      refine ⟨holds_of_notIssue s (isIssue_of_platform i1), List.mem_cons_of_mem _ i2, fun c hc => ?_, fun _ => ?_⟩
      · rcases List.mem_cons.mp hc with rfl | hc
        · exact List.mem_cons_self
        · exact List.mem_cons_of_mem _ (i3 c hc)
      · simp only [List.filter_cons, i4]

/-- An issue that is taken finds the block idle and out of reset. -/
theorem free_of_issue {s : State} {w : Word} {q : List Input} (h : nextInput s = some (.write 0x00 4 w, q)) :
    s.busy = false ∧ s.rst = .released := by
  have := (nextInput_spec h).1
  unfold holds at this
  rwa [show Input.isIssue (.write 0x00 4 w) = true from rfl, Bool.true_and, Bool.or_eq_false_iff,
    inReset_false_iff] at this

theorem nextInput_issue {s : State} {w : Word} {rest : List Input} (hb : s.busy = false) (hr : s.rst = .released)
    (h : s.inputs = .write 0x00 4 w :: rest) : nextInput s = some (.write 0x00 4 w, rest) :=
  nextInput_head h (holds_of_free hb hr _)

/-! ### One step -/

theorem step_none {s : State} (h : nextInput s = none) : step s = .next (resume s) := by
  simp [step, nextEvent, h]

theorem step_pause {s : State} {q : List Input} (h : nextInput s = some (.pause, q)) :
    step s = .next (resume (s.setInputs q)) := by
  simp [step, nextEvent, h, takeInput]

/-- The block going on by itself. -/
theorem step_goesOn {s : State} {q : List Input} (h : GoesOn s q) : step s = .next (resume (s.setInputs q)) := by
  rcases h with ⟨h, rfl⟩ | h
  · exact step_none h
  · exact step_pause h

theorem step_assertReset {s : State} {q : List Input} (h : nextInput s = some (.assertReset, q)) :
    step s = .next (resetBlock (s.setInputs q)) := by
  simp [step, nextEvent, h, takeInput]

theorem step_releaseReset {s : State} {q : List Input} (h : nextInput s = some (.releaseReset, q)) :
    step s = .next ((s.setInputs q).setRst .released) := by
  simp [step, nextEvent, h, takeInput]

theorem step_fillRes {s : State} {a : Word} {b : Byte} {q : List Input}
    (h : nextInput s = some (.fillRes a b, q)) :
    step s = .next ((s.setInputs q).setRes (Memory.write s.res a.toNat b)) := by
  simp [step, nextEvent, h, takeInput]

/-- A host access that the window does not answer stops, read or write. -/
theorem step_badAccess {s : State} {off width : Nat} {v : Word} {q : List Input}
    (h : nextInput s = some (.read off width, q) ∨ nextInput s = some (.write off width v, q))
    (hb : ¬ (off < 32 ∧ width = 4 ∧ off % 4 = 0)) :
    step s = if 32 ≤ off then .fault .outsideWindow else .refused .narrowOrMisaligned := by
  by_cases h1 : 32 ≤ off
  · have h2 : ¬ off < 32 := by omega
    rcases h with h | h <;> simp [step, nextEvent, h, takeInput, checkedAccess, inWindow, h1, h2]
  · have h2 : off < 32 := by omega
    have h3 : alignedWord off width = false := by
      unfold alignedWord
      rw [Bool.and_eq_false_iff, beq_eq_false_iff_ne, beq_eq_false_iff_ne]
      omega
    rcases h with h | h <;> simp [step, nextEvent, h, takeInput, checkedAccess, inWindow, h1, h2, h3]

theorem step_read {s : State} {off : Nat} {q : List Input} (h : nextInput s = some (.read off 4, q)) (h1 : off < 32)
    (h2 : off % 4 = 0) : step s = .next ((s.setInputs q).setReads (s.reads ++ [regRead off s])) := by
  simp [step, nextEvent, h, takeInput, checkedAccess, inWindow, alignedWord, h1, h2]
  rfl

theorem step_regWrite {s : State} {off : Nat} {v : Word} {q : List Input}
    (h : nextInput s = some (.write off 4 v, q)) (h1 : off < 32) (h2 : off % 4 = 0) (h3 : off ≠ 0) :
    step s = .next (regWrite off v (s.setInputs q)) := by
  simp [step, nextEvent, h, takeInput, checkedAccess, inWindow, alignedWord, h1, h2, h3]

theorem step_issue {s : State} {w : Word} {q : List Input} (h : nextInput s = some (.write 0x00 4 w, q)) :
    step s = match decode w with
      | .command i => exec i (accept w (s.setInputs q))
      | .reserved _ => .next (endReserved (accept w (s.setInputs q))) := by
  simp only [step, nextEvent, h, takeInput, checkedAccess, inWindow, alignedWord]
  rfl

theorem resume_busy {s : State} (h : s.busy = true) : resume s = runActs s.seq.work s := by
  simp [resume, h]

theorem resume_idle {s : State} (h : s.busy = false) : resume s = s := by
  simp [resume, h]

/-- Everything a step that answers a next state can be. -/
theorem step_cases {s t : State} (h : step s = .next t) :
    (∃ q, GoesOn s q ∧ t = resume (s.setInputs q)) ∨
    (∃ q, nextInput s = some (.assertReset, q) ∧ t = resetBlock (s.setInputs q)) ∨
    (∃ q, nextInput s = some (.releaseReset, q) ∧ t = (s.setInputs q).setRst .released) ∨
    (∃ a b q, nextInput s = some (.fillRes a b, q) ∧ t = (s.setInputs q).setRes (Memory.write s.res a.toNat b)) ∨
    (∃ off q, nextInput s = some (.read off 4, q) ∧ off < 32 ∧ off % 4 = 0 ∧
      t = (s.setInputs q).setReads (s.reads ++ [regRead off s])) ∨
    (∃ off v q, nextInput s = some (.write off 4 v, q) ∧ off < 32 ∧ off % 4 = 0 ∧ off ≠ 0 ∧
      t = regWrite off v (s.setInputs q)) ∨
    (∃ w q, nextInput s = some (.write 0x00 4 w, q) ∧ s.busy = false ∧ s.rst = .released ∧
      ((∃ i, decode w = .command i ∧ exec i (accept w (s.setInputs q)) = .next t) ∨
        (∃ why, decode w = .reserved why ∧ t = endReserved (accept w (s.setInputs q))))) := by
  rcases hin : nextInput s with _ | ⟨⟨off, width, v⟩ | ⟨off, width⟩ | _ | _ | ⟨a, b⟩ | _, q⟩
  · rw [step_none hin] at h
    injection h with h
    exact .inl ⟨s.inputs, .inl ⟨hin, rfl⟩, h.symm⟩
  · by_cases hg : off < 32 ∧ width = 4 ∧ off % 4 = 0
    · obtain ⟨h1, rfl, h2⟩ := hg
      by_cases h0 : off = 0
      · subst h0
        refine .inr (.inr (.inr (.inr (.inr (.inr ⟨v, q, rfl, (free_of_issue hin).1, (free_of_issue hin).2, ?_⟩)))))
        rw [step_issue hin] at h
        cases hd : decode v with
        | command i => rw [hd] at h; exact .inl ⟨i, rfl, h⟩
        | reserved why => rw [hd] at h; injection h with h; exact .inr ⟨why, rfl, h.symm⟩
      · rw [step_regWrite hin h1 h2 h0] at h
        injection h with h
        exact .inr (.inr (.inr (.inr (.inr (.inl ⟨off, v, q, rfl, h1, h2, h0, h.symm⟩)))))
    · rw [step_badAccess (.inr hin) hg] at h
      split at h <;> contradiction
  · by_cases hg : off < 32 ∧ width = 4 ∧ off % 4 = 0
    · obtain ⟨h1, rfl, h2⟩ := hg
      rw [step_read hin h1 h2] at h
      injection h with h
      exact .inr (.inr (.inr (.inr (.inl ⟨off, q, rfl, h1, h2, h.symm⟩))))
    · rw [step_badAccess (v := 0) (.inl hin) hg] at h
      split at h <;> contradiction
  · rw [step_assertReset hin] at h
    injection h with h
    exact .inr (.inl ⟨q, rfl, h.symm⟩)
  · rw [step_releaseReset hin] at h
    injection h with h
    exact .inr (.inr (.inl ⟨q, rfl, h.symm⟩))
  · rw [step_fillRes hin] at h
    injection h with h
    exact .inr (.inr (.inr (.inl ⟨a, b, q, rfl, h.symm⟩)))
  · rw [step_pause hin] at h
    injection h with h
    exact .inl ⟨q, .inr hin, h.symm⟩

end Sys2Proof.Machine
end

