-- ==== Sys2Proof/Tests/Slice0.lean ====
section
/-! SUPPORT. The model's own tests: well-formedness refuses, the decoder reads the spec's words, one step of each
command gives what 95_test_vectors.md says, and every statement's hypotheses are met somewhere. -/

namespace Sys2Proof.Tests

open Sys2Proof.Machine

set_option Elab.async false

/-! ### The test state (95_test_vectors.md, "Conventions") -/

/-- The synthetic glyph table `GT`: `GLYPH(k, i) = 5k + i + 1`. -/
def glyphTable : Vector (Vector Byte 5) 95 :=
  Vector.ofFn fun k => Vector.ofFn fun i => BitVec.ofNat 8 (5 * k.val + i.val + 1)

/-- The suggested parameters of the vectors. -/
def params : Params where
  glyph := glyphTable
  initScript := [0xA0, 0xA1, 0xA2, 0xA3, 0xA4]
  setxBase := 0x80
  setyBase := 0x40
  txTimeout := none
  resetActive := false
  resetMin := 1

/-- The idle block with every byte of `FB` equal. -/
def filled (b : Byte) : State := { State.reset with fb := Vector.replicate 504 b, params := params }

/-- `FB` equal to `b` but for the listed bytes. -/
def patched (b : Byte) (l : List (Nat × Byte)) : Vector Byte 504 :=
  l.foldl (fun v p => v.setIfInBounds p.1 p.2) (Vector.replicate 504 b)

/-- The bytes of a framebuffer equal to `b` but for the listed ones. -/
def bytes (b : Byte) (l : List (Nat × Byte)) : List Byte :=
  l.foldl (fun v p => v.set p.1 p.2) (List.replicate 504 b)

/-- The width-6 fixture at `0x1000` (V20), unlisted bytes 0. -/
def fixture : Memory :=
  [(0x100A, 0x18), (0x1012, 0x06), (0x1016, 0x02), (0x1018, 0xF0), (0x1019, 0x0F), (0x101A, 0xFF), (0x101B, 0xAA),
   (0x101C, 0x0F), (0x101D, 0xF0), (0x101F, 0xAA)]

/-- The threshold resource at `0x200` (V23). -/
def ramp : Memory :=
  [(0x20A, 0x18), (0x212, 16), (0x216, 1), (0x218, 0x01), (0x219, 0x23), (0x21A, 0x45), (0x21B, 0x67), (0x21C, 0x89),
   (0x21D, 0xAB), (0x21E, 0xCD), (0x21F, 0xEF)]

/-- The string at `0x2000` (V29): `48 69 00 21`. -/
def string : Memory := [(0x2000, 0x48), (0x2001, 0x69), (0x2003, 0x21)]

/-- A block with a resource and `ARG` set. -/
def holding (b : Byte) (m : Memory) (a : Word) : State := { filled b with res := m, arg := a }

/-- A peripheral that answers `n` polls ready and then never again. -/
def stuckAfter (n : Nat) : Peripheral := ⟨List.replicate n ⟨true, false⟩, ⟨false, true⟩⟩

/-- One step that takes the word, then a check. -/
def after (s : State) (w : Nat) (p : State → Bool) : Bool :=
  match step (s.withFetchWord 32 w) with
  | .next t => p t
  | .fault _ => false
  | .refused _ => false

/-- One step, then a check. -/
def once (s : State) (p : State → Bool) : Bool :=
  match step s with
  | .next t => p t
  | .fault _ => false
  | .refused _ => false

def datas (l : List Byte) : List Event := l.map Event.D

/-! ### Well-formedness (30_encoding.md R82; 00_scope.md R7) -/

theorem test_wf_refuses_byte_operand : (Instr.wrcmd 256).wf = false := by decide
theorem test_wf_refuses_wrdat : (Instr.wrdat 256).wf = false := by decide
theorem test_wf_refuses_setpx_x : (Instr.setpx 256 0).wf = false := by decide
theorem test_wf_refuses_setpx_y : (Instr.setpx 0 256).wf = false := by decide
theorem test_wf_refuses_clrpx : (Instr.clrpx 256 0).wf = false ∧ (Instr.clrpx 0 256).wf = false := by decide
theorem test_wf_refuses_qrypx : (Instr.qrypx 256 0).wf = false ∧ (Instr.qrypx 0 256).wf = false := by decide
theorem test_wf_refuses_blit :
    (Instr.blit 256 0 0).wf = false ∧ (Instr.blit 0 256 0).wf = false ∧ (Instr.blit 0 0 256).wf = false := by decide
theorem test_wf_refuses_setcur : (Instr.setcur 256 0).wf = false ∧ (Instr.setcur 0 256).wf = false := by decide
theorem test_wf_refuses_text : (Instr.putc 256).wf = false ∧ (Instr.putci 256).wf = false := by decide
theorem test_wf_refuses_half :
    (Instr.puts 65536).wf = false ∧ (Instr.putsi 65536).wf = false ∧ (Instr.putud 65536).wf = false ∧
      (Instr.putd 65536).wf = false := by decide
theorem test_params_wf : params.wf = true := by decide +kernel
theorem test_params_refuses_empty_script : { params with initScript := [] }.wf = false := by decide +kernel
theorem test_params_refuses_zero_timeout : { params with txTimeout := some 0 }.wf = false := by decide +kernel
theorem test_params_refuses_column_base : { params with setxBase := 0x84 }.wf = false := by decide +kernel
theorem test_params_refuses_row_base : { params with setyBase := 0x41 }.wf = false := by decide +kernel
theorem test_constants_meet_constraints : Config.constraintsHold = true := by decide

/-! ### Decoding: words written out from 30_encoding.md R86 and the vectors -/

theorem test_decode_wrcmd : decode 0x0100000C = .command (.wrcmd 0x0C) := by decide
theorem test_decode_wrdat : decode 0x020000FF = .command (.wrdat 0xFF) := by decide
theorem test_decode_setpx : decode 0x1000532F = .command (.setpx 83 47) := by decide
theorem test_decode_clrpx : decode 0x11000A09 = .command (.clrpx 10 9) := by decide
theorem test_decode_qrypx : decode 0x12000A09 = .command (.qrypx 10 9) := by decide
theorem test_decode_clrall : decode 0x13000000 = .command .clrall := by decide
theorem test_decode_blit : decode 0x20020907 = .command (.blit 2 9 7) := by decide
theorem test_decode_blit_all_ones : decode 0x20FFFFFF = .command (.blit 255 255 255) := by decide
theorem test_decode_putc : decode 0x30000041 = .command (.putc 65) := by decide
theorem test_decode_puts : decode 0x31000002 = .command (.puts 2) := by decide
theorem test_decode_putud : decode 0x32003039 = .command (.putud 12345) := by decide
theorem test_decode_putd : decode 0x3300038B = .command (.putd 907) := by decide
theorem test_decode_setcur : decode 0x34000B05 = .command (.setcur 11 5) := by decide
theorem test_decode_putci : decode 0x35000041 = .command (.putci 65) := by decide
theorem test_decode_putsi : decode 0x36000002 = .command (.putsi 2) := by decide
theorem test_decode_init : decode 0x40000000 = .command .init := by decide
theorem test_decode_flush : decode 0x41000000 = .command .flush := by decide
theorem test_decode_fullimg : decode 0x42000000 = .command .fullimg := by decide

/-- The seven reserved words of V35. -/
theorem test_decode_reserved :
    decode 0x00000000 = .reserved .unknownOpcode ∧ decode 0xFFFFFFFF = .reserved .unknownOpcode ∧
      decode 0x03000000 = .reserved .unknownOpcode ∧ decode 0x13000001 = .reserved .nonzeroMbz ∧
      decode 0x41000100 = .reserved .nonzeroMbz ∧ decode 0x30000141 = .reserved .nonzeroMbz ∧
      decode 0x10010A09 = .reserved .nonzeroMbz := by decide

/-- The rows of the opcode map do not overlap. -/
theorem test_opcode_rows_distinct :
    opcodeMap.Pairwise (fun a b => a.opcode ≠ b.opcode ∧ a.mask &&& b.mask &&& (a.pattern ^^^ b.pattern) ≠ 0) := by
  decide

/-! ### One step of each command (95_test_vectors.md) -/

theorem test_wrcmd_V11 : after (filled 0) 0x0100000C (fun t =>
    t.trace == [.C 0x0C] && t.dc == .command && t.quiet && !t.busy && t.fb.toList == bytes 0 []) = true := by
  decide +kernel

theorem test_wrdat_V12 : after (filled 0) 0x020000FF (fun t =>
    t.trace == [.D 0xFF] && t.dc == .data && !t.quiet && !t.busy) = true := by decide +kernel

theorem test_setpx_V15 : after (filled 0) 0x1000532F (fun t =>
    t.fb.toList == bytes 0 [(503, 0x80)] && t.fault == FaultBits.none && !t.busy) = true := by decide +kernel

theorem test_setpx_V17 : after (filled 0) 0x10005400 (fun t =>
    t.fb.toList == bytes 0 [] && faultWord t == 0x2) = true := by decide +kernel

theorem test_clrpx_V16 : after (filled 0xA5) 0x11000A0A (fun t => t.fb.toList == bytes 0xA5 [(94, 0xA1)]) = true := by
  decide +kernel

theorem test_clrpx_V17 : after (filled 0) 0x1100FFFF (fun t => t.fb.toList == bytes 0 [] && faultWord t == 0x2) = true := by
  decide +kernel

theorem test_qrypx_V18 : after { filled 0 with fb := patched 0 [(94, 0x02)] } 0x12000A09 (fun t =>
    statusWord t == 0x2) = true := by decide +kernel

theorem test_qrypx_V17 : after { filled 0 with q := true } 0x12005400 (fun t => t.q && faultWord t == 0x2) = true := by
  decide +kernel

theorem test_clrall_V19 : ∃ t,
    execClrall { filled 0xFF with cur := ⟨7, 3⟩, q := true, fault := ⟨false, true, false, false⟩ } = .next t ∧
      fbRead t 0 = 0 ∧ fbRead t 503 = 0 ∧ cursorWord t = 0 ∧ t.q = true ∧ faultWord t = 0x2 ∧ t.trace = [] :=
  ⟨_, execClrall_eq _, by decide +kernel⟩

theorem test_blit_V21 : after (holding 0xFF fixture 0x1000) 0x20020807 (fun t =>
    t.fb.toList == bytes 0xFF [(87, 0xFE), (88, 0xFE), (2, 0x7F), (5, 0x7F), (6, 0x7F), (7, 0x7F)] &&
      t.fault == FaultBits.none && t.trace == []) = true := by decide +kernel

theorem test_blit_V24 : after (holding 0 fixture 0x1000) 0x20023007 (fun t =>
    t.fb.toList == bytes 0 [(423, 0x80), (424, 0x80)] && faultWord t == 0x2) = true := by decide +kernel

theorem test_putc_V26 : after (filled 0) 0x3000007E (fun t =>
    t.trace == datas [0x00, 0xD7, 0xD8, 0xD9, 0xDA, 0xDB, 0x00] && cursorWord t == 0) = true := by decide +kernel

theorem test_putc_V27 : after (filled 0) 0x3000007F (fun t => t.trace == [] && faultWord t == 0x4) = true := by
  decide +kernel

theorem test_putci_V28 : after (filled 0) 0x35000041 (fun t =>
    t.trace == datas [0x00, 0x55, 0x95, 0x15, 0xE5, 0x65, 0x00]) = true := by decide +kernel

theorem test_putci_V27 : after (filled 0) 0x3500007F (fun t => t.trace == [] && faultWord t == 0x4) = true := by
  decide +kernel

theorem test_puts_V29 : after (holding 0 string 0x2000) 0x31000004 (fun t =>
    t.trace == datas [0x00, 0xC9, 0xCA, 0xCB, 0xCC, 0xCD, 0x00, 0x00, 0x6E, 0x6F, 0x70, 0x71, 0x72, 0x00,
      0x00, 0x06, 0x07, 0x08, 0x09, 0x0A, 0x00] && faultWord t == 0x4) = true := by decide +kernel

theorem test_putsi_V29 : after (holding 0 string 0x2000) 0x36000002 (fun t =>
    t.trace == datas [0x00, 0x4E, 0x8E, 0x0E, 0xF6, 0x76, 0x00, 0x00, 0xB3, 0x33, 0xD3, 0x53, 0x93, 0x00] &&
      faultWord t == 0) = true := by decide +kernel

theorem test_putud_V31 : after (filled 0) 0x3200038B (fun t =>
    t.trace == datas ([0x00, 0x01, 0x02, 0x03, 0x04, 0x05, 0x00, 0x00, 0x01, 0x02, 0x03, 0x04, 0x05, 0x00] ++
      [0x00, 0x7E, 0x7F, 0x80, 0x81, 0x82, 0x00, 0x00, 0x51, 0x52, 0x53, 0x54, 0x55, 0x00] ++
      [0x00, 0x74, 0x75, 0x76, 0x77, 0x78, 0x00])) = true := by decide +kernel

theorem test_putd_V31 : after (filled 0) 0x3300038B (fun t =>
    t.trace == datas ([0x00, 0x7E, 0x7F, 0x80, 0x81, 0x82, 0x00, 0x00, 0x51, 0x52, 0x53, 0x54, 0x55, 0x00] ++
      [0x00, 0x74, 0x75, 0x76, 0x77, 0x78, 0x00])) = true := by decide +kernel

theorem test_putd_zero_V31 : after (filled 0) 0x33000000 (fun t =>
    t.trace == datas [0x00, 0x51, 0x52, 0x53, 0x54, 0x55, 0x00]) = true := by decide +kernel

theorem test_setcur_V30 : after (filled 0) 0x34000B05 (fun t =>
    t.trace == [.C 0xCD, .C 0x45] && cursorWord t == 0x50B) = true := by decide +kernel

theorem test_setcur_V6 : after { filled 0 with cur := ⟨3, 2⟩ } 0x34000C00 (fun t =>
    t.trace == [] && cursorWord t == 0x203 && faultWord t == 0) = true := by decide +kernel

theorem test_init_V32 : after (filled 0) 0x40000000 (fun t =>
    t.trace == [.RSTP, .C 0xA0, .C 0xA1, .C 0xA2, .C 0xA3, .C 0xA4] && t.lcdrst == .released) = true := by
  decide +kernel

/-- V33 on a peripheral that takes the two address bytes and five data bytes: the cursor is home, byte 5 is next. -/
theorem test_flush_V33 :
    after { filled 0 with fb := patched 0 [(2, 2), (3, 1), (4, 7), (5, 9)], cur := ⟨3, 2⟩, peri := stuckAfter 9 }
      0x41000000 (fun t =>
        t.trace == [.C 0x80, .C 0x40, .D 0x00, .D 0x00, .D 0x02, .D 0x01, .D 0x07] && cursorWord t == 0 && t.busy &&
          t.seq.si == 5 && t.seq.cnt == 499) = true := by decide +kernel

/-- The last byte of a picture ends the command. -/
theorem test_flush_ends : once
    { filled 0 with fb := patched 0 [(503, 0x80)], busy := true, seq := { Seq.dead with work := [.fbByte 503] } }
    (fun t => t.trace == [.D 0x80] && !t.busy && t.seq == Seq.dead) = true := by decide +kernel

/-- The addresses of an image wrap at `2^32` (20_memory.md R54). -/
theorem test_fullimg_wraps :
    after { holding 0x11 [(0, 0x5A)] 0xFFFFFFFF with cur := ⟨11, 5⟩, peri := stuckAfter 6 } 0x42000000 (fun t =>
      t.trace == [.C 0x80, .C 0x40, .D 0x00, .D 0x5A] && cursorWord t == 0 && t.busy) = true := by decide +kernel

/-- V34, its last byte: `RES[0x31F7]`. -/
theorem test_fullimg_V34 : once
    { filled 0x11 with
      res := [(0x31F7, 0xF7)], argl := 0x3000, busy := true
      seq := { Seq.dead with work := [.resByte (resAddr 0x3000 503)] } } (fun t =>
      t.trace == [.D 0xF7] && !t.busy) = true := by decide +kernel

theorem test_reserved_V35 : after (filled 0x77) 0x30000141 (fun t =>
    faultWord t == 0x1 && t.trace == [] && !t.busy && t.fb.toList == bytes 0x77 []) = true := by decide +kernel

/-! ### Waiting (V14, P5) -/

/-- P5: two bytes of the cell are pushed, then the command waits for room. -/
theorem test_putc_waits_P5 : after { filled 0 with peri := stuckAfter 2 } 0x30000041 (fun t =>
    t.trace == [.D 0x00, .D 0xA6] && t.busy && t.seq.work == [.cell [0xA7, 0xA8, 0xA9, 0xAA, 0x00]] &&
      t.seq.coli == 2 && t.fault == FaultBits.none) = true := by decide +kernel

/-- V14 (a), the fourth poll: `TOC = 3` has reached the bound. -/
def waiting (toc : Nat) : State :=
  { filled 0 with
    busy := true, peri := stuckAfter 0, params := { params with txTimeout := some 3 }, cur := ⟨3, 2⟩
    seq := { Seq.dead with toc := toc, work := [.cmd 0x95, .cmd 0x42] } }

theorem test_timeout_V14 : once (waiting 3) (fun t =>
    faultWord t == 0x8 && !t.busy && t.trace == [] && cursorWord t == 0x203) = true := by decide +kernel

theorem test_no_timeout_below_bound_V14 : once (waiting 2) (fun t =>
    faultWord t == 0 && t.busy && t.seq.toc == 3) = true := by decide +kernel

/-- V14 (b): the first byte is sent, its drain times out, the row command is never sent. -/
theorem test_timeout_in_drain_V14 : once
    { filled 0 with
      busy := true, peri := stuckAfter 0, params := { params with txTimeout := some 0 }, trace := [.C 0x95]
      seq := { Seq.dead with work := [.drain, .cmd 0x42] } } (fun t =>
      faultWord t == 0x8 && t.trace == [.C 0x95] && !t.busy) = true := by decide +kernel

/-! ### The host's side -/

theorem test_read_status : once { filled 0 with q := true, busy := true, inputs := [.read 0x08 4] } (fun t =>
    t.reads == [0x3] && t.busy) = true := by decide +kernel

theorem test_read_cursor : once { filled 0 with cur := ⟨11, 5⟩, inputs := [.read 0x10 4] } (fun t =>
    t.reads == [0x50B]) = true := by decide +kernel

theorem test_write_status_ignored : once { filled 0 with inputs := [.write 0x08 4 0xFFFFFFFF] } (fun t =>
    statusWord t == 0 && t.arg == 0) = true := by decide +kernel

theorem test_write_arg_while_busy : once { waiting 0 with inputs := [.write 0x04 4 0xABCD] } (fun t =>
    t.arg == 0xABCD && t.argl == 0 && t.busy) = true := by decide +kernel

theorem test_assert_reset : once { waiting 0 with inputs := [.assertReset], trace := [.D 0] } (fun t =>
    !t.busy && t.trace == [] && cursorWord t == 0 && t.resets == 1 && t.rst == .asserted) = true := by decide +kernel

/-- In reset (R200): a `CMD` write waits, an `ARG` write changes nothing, the release lets the write pass. -/
def inResetWith (l : List Input) : State := { filled 0 with rst := .asserted, inputs := l }

theorem test_command_waits_for_release : once (inResetWith [.write 0x00 4 0x02000001]) (fun t =>
    t.trace == [] && t.inputs == [.write 0x00 4 0x02000001] && !t.busy) = true := by decide +kernel

theorem test_arg_ignored_in_reset : once (inResetWith [.write 0x04 4 0xABCD]) (fun t => t.arg == 0) = true := by
  decide +kernel

theorem test_release_reset : once (inResetWith [.write 0x00 4 0x02000001, .releaseReset]) (fun t =>
    t.rst == .released && t.inputs == [.write 0x00 4 0x02000001] && t.trace == []) = true := by decide +kernel

/-- The run has ended although an `ARG` write and a read are left; not so with a command left (R216). -/
theorem test_run_ended :
    RunEnded { filled 0 with inputs := [.write 0x04 4 7, .read 0x08 4] } ∧
      ¬ RunEnded { filled 0 with inputs := [.write 0x04 4 7, .write 0x00 4 0x13000000] } := by
  unfold RunEnded
  decide +kernel

theorem test_pseudo_blita : (Pseudo.blita 0x1000 2 9 7).expand.map Line.input =
    [.write 0x04 4 0x1000, .write 0x00 4 0x20020907] := by decide

theorem test_resource_is_canonical : Memory.wf fixture ∧ Memory.wf ramp ∧ Memory.wf string := by decide +kernel

/-! ### The hypotheses of the statements are met -/

/-- A block about to take a `CMD` write. -/
def issuing (w : Word) : State := { filled 0 with inputs := [.write 0x00 4 w, .pause] }

/-- Whether executing answers a next state. -/
def runs (i : Instr) (s : State) : Bool :=
  match exec i s with
  | .next _ => true
  | .fault _ => false
  | .refused _ => false

theorem exists_of_runs {i : Instr} {s : State} (h : runs i s = true) : ∃ t, exec i s = .next t := by
  unfold runs at h
  cases he : exec i s with
  | next t => exact ⟨t, rfl⟩
  | fault r => rw [he] at h; contradiction
  | refused r => rw [he] at h; contradiction

theorem exists_of_once {s : State} {p : State → Bool} (h : once s p = true) : ∃ t, step s = .next t ∧ p t = true := by
  unfold once at h
  cases he : step s with
  | next t => rw [he] at h; exact ⟨t, rfl, h⟩
  | fault r => rw [he] at h; contradiction
  | refused r => rw [he] at h; contradiction

theorem alwaysReady_filled (b : Byte) : AlwaysReady (filled b) := ⟨fun l hl => by contradiction, rfl⟩

/-- The two-row fixture latched, blitted to the last rows and columns that fit, or where the vectors say. -/
def latched (b : Byte) (m : Memory) (a : Word) : State := { filled b with res := m, argl := a }

theorem witness_DecodeOfEncode : (Instr.blit 255 255 255).wf = true ∧ (Instr.puts 65535).wf = true := by decide

theorem witness_EncodeOfDecode : decode 0x20FFFFFF = .command (.blit 255 255 255) := by decide

theorem witness_OpcodeMapDecides : (⟨0x42, 0x42000000, 0xFFFFFFFF⟩ : OpcodeRow) ∈ opcodeMap := by decide

theorem witness_StepRunsDecodedCommand :
    (issuing 0x20FFFFFF).busy = false ∧ (issuing 0x20FFFFFF).rst = .released ∧
      (issuing 0x20FFFFFF).inputs = .write 0x00 4 0x20FFFFFF :: [.pause] ∧
      decode 0x20FFFFFF = .command (.blit 255 255 255) := by decide +kernel

theorem witness_ReservedWordOnlyRaisesBadcmd :
    (issuing 0x13000001).busy = false ∧ (issuing 0x13000001).rst = .released ∧
      (issuing 0x13000001).inputs = .write 0x00 4 0x13000001 :: [.pause] ∧
      decode 0x13000001 = .reserved .nonzeroMbz ∧ decode 0xFFFFFFFF = .reserved .unknownOpcode := by decide +kernel

/-- The last pixel of the screen, and the two nearest pixels that are off it. -/
theorem witness_PixelWriteCommands : (83 < 84 ∧ 47 < 48) ∧ ¬ (84 < 84 ∧ 0 < 48) ∧ ¬ (0 < 84 ∧ 48 < 48) := by decide

theorem witness_PixelLaws : 83 < 84 ∧ 47 < 48 ∧ (83 ≠ 83 ∨ 47 ≠ 46) ∧
    (∀ i ∈ [Instr.setpx 83 46] ++ [.clrpx 82 47] ++ [.qrypx 84 47], OnOtherPixel 83 47 i) ∧
    ∃ t, exec (.qrypx 84 47) (filled 0) = .next t := by
  refine ⟨by decide, by decide, by decide, fun i hi => ?_, ⟨_, rfl⟩⟩
  simp only [List.cons_append, List.nil_append, List.mem_cons, List.not_mem_nil, or_false] at hi
  rcases hi with rfl | rfl | rfl
  · exact ⟨83, 46, by decide, .inl rfl⟩
  · exact ⟨82, 47, by decide, .inr (.inl rfl)⟩
  · exact ⟨84, 47, by decide, .inr (.inr rfl)⟩

theorem witness_PictureIsItsPixels : (83 < 84 ∧ 47 < 48) ∧ 83 < 84 ∧ 5 < 6 ∧ 7 < 8 := by decide

theorem witness_DrawingIsIdempotent :
    sendsNothing (.blit 2 48 7) = true ∧ ∃ t, exec (.blit 2 48 7) (latched 0 fixture 0x1000) = .next t :=
  ⟨rfl, exists_of_runs (by decide +kernel)⟩

/-- On a ready transport; on one that the second `SETCUR` finds ready too; and outside the grid, where nothing is sent. -/
theorem witness_SetcurIsIdempotent :
    (∃ t u, exec (.setcur 11 5) (filled 0) = .next t ∧ exec (.setcur 11 5) t = .next u) ∧ AlwaysReady (filled 0) ∧
      ∃ t u, exec (.setcur 12 0) { filled 0 with peri := stuckAfter 0 } = .next t ∧
        exec (.setcur 12 0) t = .next u ∧ Ended t ∧ Ended u ∧ u.fault.timeout = false :=
  ⟨⟨_, _, rfl, rfl⟩, alwaysReady_filled 0, _, _, rfl, rfl, ⟨rfl, rfl⟩, ⟨rfl, rfl⟩, rfl⟩

theorem witness_BlitRejectedIsSilent :
    ¬ BlitAccepted (latched 0 fixture 0x1000) 79 9 ∧ ¬ BlitAccepted (latched 0 fixture 0x1000) 2 0 ∧
      ¬ BlitAccepted (latched 0 fixture 0x1000) 2 49 := by
  unfold BlitAccepted
  decide +kernel

/-- The bottom right corner; the last column and the top row of the picture; a pixel beside it. -/
theorem witness_BlitDrawsThePicture :
    BlitAccepted (latched 0 fixture 0x1000) 78 47 ∧ 47 < 48 ∧ 5 < bitmapWidth (latched 0 fixture 0x1000) ∧
      1 < bitmapHeight (latched 0 fixture 0x1000) ∧ ¬ Covered (latched 0 fixture 0x1000) 78 47 77 47 ∧
      ¬ Covered (latched 0 fixture 0x1000) 78 47 83 45 := by
  unfold BlitAccepted Covered
  decide +kernel

theorem witness_BlitBelowTheScreen :
    BlitAccepted (latched 0 fixture 0x1000) 78 48 ∧ 5 < bitmapWidth (latched 0 fixture 0x1000) ∧ 1 ≤ 1 ∧
      1 < bitmapHeight (latched 0 fixture 0x1000) ∧ ¬ Covered (latched 0 fixture 0x1000) 78 48 83 46 ∧ 48 < 49 := by
  unfold BlitAccepted Covered
  decide +kernel

/-- Columns with the nibbles 0, 1, 14 and 15 (V23). -/
theorem witness_BlitThresholdTable :
    BlitAccepted (latched 0 ramp 0x200) 68 0 ∧ 0 - 0 < 48 ∧ 15 < bitmapWidth (latched 0 ramp 0x200) ∧
      0 < bitmapHeight (latched 0 ramp 0x200) ∧ bitmapNibble (latched 0 ramp 0x200) 0 0 = 0 ∧
      bitmapNibble (latched 0 ramp 0x200) 0 1 = 1 ∧ bitmapNibble (latched 0 ramp 0x200) 0 14 = 14 ∧
      bitmapNibble (latched 0 ramp 0x200) 0 15 = 15 := by
  unfold BlitAccepted
  decide +kernel

theorem witness_BlitWalkFollowsTheRows : 255 < 256 ∧ 48 ≤ 48 ∧ 255 < 256 ∧ 48 ≤ 48 ∧ 48 ≤ 255 := by decide

/-- Two resources that differ in the padding bytes. -/
theorem witness_BlitReadsOnlyItsBytes :
    bitmapWidth ((latched 0 fixture 0x1000).setRes (fixture.write 0x101B 0x55)) =
        bitmapWidth (latched 0 fixture 0x1000) ∧
      bitmapHeight ((latched 0 fixture 0x1000).setRes (fixture.write 0x101B 0x55)) =
        bitmapHeight (latched 0 fixture 0x1000) ∧
      bitmapOffset ((latched 0 fixture 0x1000).setRes (fixture.write 0x101B 0x55)) =
        bitmapOffset (latched 0 fixture 0x1000) ∧
      (∀ r k, r < bitmapHeight (latched 0 fixture 0x1000) → k < bitmapWidth (latched 0 fixture 0x1000) / 2 →
        bitmapByte ((latched 0 fixture 0x1000).setRes (fixture.write 0x101B 0x55)) r k =
          bitmapByte (latched 0 fixture 0x1000) r k) ∧
      ∃ u, exec (.blit 2 9 7) (latched 0 fixture 0x1000) = .next u := by
  refine ⟨by decide +kernel, by decide +kernel, by decide +kernel, ?_, exists_of_runs (by decide +kernel)⟩
  have h : ∀ r < bitmapHeight (latched 0 fixture 0x1000), ∀ k < bitmapWidth (latched 0 fixture 0x1000) / 2,
      bitmapByte ((latched 0 fixture 0x1000).setRes (fixture.write 0x101B 0x55)) r k =
        bitmapByte (latched 0 fixture 0x1000) r k := by decide +kernel
  exact fun r k hr hk => h r hr k hk

theorem witness_WrcmdSendsCommandByte : AlwaysReady (filled 0) := alwaysReady_filled 0
theorem witness_WrdatSendsDataByte : AlwaysReady (filled 0xFF) := alwaysReady_filled 0xFF

theorem witness_TimeoutEndsTheCommand :
    (waiting 3).busy = true ∧ (waiting 3).inputs = [] ∧ waitsFor (waiting 3).seq.work = some .quiescent ∧
      Cond.quiescent.holds (nextLevel (waiting 3)) = false ∧ (waiting 3).params.txTimeout = some 3 ∧
      3 ≤ (waiting 3).seq.toc := by decide +kernel

theorem witness_UnmetWaitCountsPolls :
    (waiting 2).busy = true ∧ (waiting 2).inputs = [] ∧ waitsFor (waiting 2).seq.work = some .quiescent ∧
      Cond.quiescent.holds (nextLevel (waiting 2)) = false ∧
      ∀ n, (waiting 2).params.txTimeout = some n → (waiting 2).seq.toc < n := by
  refine ⟨by decide +kernel, by decide +kernel, by decide +kernel, by decide +kernel, fun n hn => ?_⟩
  have : (waiting 2).params.txTimeout = some 3 := by decide +kernel
  rw [this] at hn
  cases hn
  decide +kernel

/-- P5 at its hang: `PUTC` waits for room, the host holds `CLRALL`. -/
def hanging : State :=
  { filled 0 with
    busy := true, peri := stuckAfter 0, inputs := [.write 0x00 4 0x13000000]
    seq := { Seq.dead with coli := 2, work := [.cell [0xA7, 0xA8, 0xA9, 0xAA, 0x00]] } }

theorem witness_HangNeverEnds :
    hanging.busy = true ∧ waitsFor hanging.seq.work = some .room ∧ hanging.params.txTimeout = none ∧
      (∀ l ∈ hanging.peri.polls, Cond.room.holds l = false) ∧ Cond.room.holds hanging.peri.steady = false ∧
      ∀ a ∈ hanging.inputs, ∃ w, a = .write 0x00 4 w := by
  refine ⟨rfl, rfl, rfl, by decide +kernel, rfl, fun a ha => ?_⟩
  rw [show hanging.inputs = [.write 0x00 4 0x13000000] from rfl, List.mem_singleton] at ha
  exact ⟨_, ha⟩

/-- A drain pending with `DC` at command and a byte in flight, and the step it takes. -/
theorem witness_SelectLineChangesOnlyWhenQuiet : ∃ s t, SelectLineSound s ∧ s.quiet = false ∧ step s = .next t := by
  let s : State := { filled 0 with
    busy := true, quiet := false, seq := { Seq.dead with work := [.drain, .cmd 0x42] } }
  obtain ⟨t, ht, -⟩ := exists_of_once (s := s) (p := fun _ => true) (by decide +kernel)
  exact ⟨s, t, fun _ => ⟨rfl, fun _ => .inr ⟨rfl, rfl⟩⟩, rfl, ht⟩

/-- Two unsuccessful polls to come and one spent: a bound of 3 is out of reach, and so is none. -/
theorem witness_StallsNeverChangeTheBytes :
    let late : Peripheral := ⟨[⟨false, true⟩, ⟨false, false⟩], ⟨true, false⟩⟩
    let s : State := { waiting 1 with peri := late }
    let s' : State := { hanging with inputs := [], peri := late }
    (s.busy = true ∧ s.inputs = [] ∧ s.peri.steady = ⟨true, false⟩ ∧
      ∀ n, s.params.txTimeout = some n → s.seq.toc + s.peri.polls.length ≤ n) ∧
    s'.busy = true ∧ s'.inputs = [] ∧ s'.peri.steady = ⟨true, false⟩ ∧ s'.params.txTimeout = none := by
  refine ⟨⟨rfl, rfl, rfl, fun n hn => ?_⟩, rfl, rfl, rfl, rfl⟩
  injection hn with hn
  subst hn
  decide

theorem witness_PutcSendsTheCell :
    AlwaysReady (filled 0) ∧ (0x20 ≤ 0x20 ∧ 0x20 ≤ 0x7E) ∧ (0x20 ≤ 0x7E ∧ 0x7E ≤ 0x7E) ∧
      ¬ (0x20 ≤ 0x1F ∧ 0x1F ≤ 0x7E) ∧ ¬ (0x20 ≤ 0x7F ∧ 0x7F ≤ 0x7E) := ⟨alwaysReady_filled 0, by decide⟩

/-- The string of V29: its first two characters are valid, the third is not. -/
theorem witness_PutsSendsEachCharacter :
    AlwaysReady (latched 0 string 0x2000) ∧
      (∀ j, j < 2 → 0x20 ≤ charAt (latched 0 string 0x2000) j ∧ charAt (latched 0 string 0x2000) j ≤ 0x7E) ∧
      ∃ j, j < 4 ∧
        ¬ (0x20 ≤ charAt (latched 0 string 0x2000) j ∧ charAt (latched 0 string 0x2000) j ≤ 0x7E) :=
  ⟨alwaysReady_filled 0, by decide +kernel, 2, by decide +kernel⟩

theorem witness_PutsiSendsReversed :
    AlwaysReady (latched 0 string 0x2000) ∧
      (∀ j, j < 2 → 0x20 ≤ charAt (latched 0 string 0x2000) j ∧ charAt (latched 0 string 0x2000) j ≤ 0x7E) ∧
      ∃ j, j < 4 ∧
        ¬ (0x20 ≤ charAt (latched 0 string 0x2000) j ∧ charAt (latched 0 string 0x2000) j ≤ 0x7E) :=
  ⟨alwaysReady_filled 0, by decide +kernel, 2, by decide +kernel⟩

theorem witness_PutsiMirrorsPuts :
    AlwaysReady (latched 0 string 0x2000) ∧
      ∀ j, j < 2 → 0x20 ≤ charAt (latched 0 string 0x2000) j ∧ charAt (latched 0 string 0x2000) j ≤ 0x7E :=
  ⟨alwaysReady_filled 0, by decide +kernel⟩

theorem witness_DecimalDigits : 65535 < 65536 ∧ 4 < 5 ∧ (digitsOf 65535)[4]? = some 6 := by decide +kernel

/-- The ends of the five ranges. -/
theorem witness_PutudSendsFiveCells :
    AlwaysReady (filled 0) ∧ ∀ p ∈ [(0, 1), (9, 1), (10, 2), (99, 2), (100, 3), (999, 3), (1000, 4), (9999, 4),
      (10000, 5), (65535, 5)], 1 ≤ p.2 ∧ p.2 ≤ 5 ∧ p.1 < 10 ^ p.2 ∧ (p.2 = 1 ∨ 10 ^ (p.2 - 1) ≤ p.1) :=
  ⟨alwaysReady_filled 0, by decide⟩

theorem witness_PutdSendsSignificantCells :
    AlwaysReady (filled 0) ∧ ∀ p ∈ [(0, 1), (9, 1), (10, 2), (65535, 5)],
      1 ≤ p.2 ∧ p.2 ≤ 5 ∧ p.1 < 10 ^ p.2 ∧ (p.2 = 1 ∨ 10 ^ (p.2 - 1) ≤ p.1) :=
  ⟨alwaysReady_filled 0, by decide⟩

theorem witness_SetcurMovesAndTells :
    AlwaysReady (filled 0) ∧ 11 ≤ 11 ∧ 5 ≤ 5 ∧ (filled 0).params.wf = true :=
  ⟨alwaysReady_filled 0, by decide +kernel⟩

theorem witness_SetcurOutsideGridIsSilent : (11 < 12 ∨ 5 < 0) ∧ (11 < 0 ∨ 5 < 6) := by decide

theorem witness_CursorMovesBeforeSending :
    let s : State := { filled 0 with peri := stuckAfter 0 }
    11 ≤ 11 ∧ 5 ≤ 5 ∧
      (Instr.setcur 11 5 = .setcur 11 5 ∨ ((Instr.setcur 11 5 = .flush ∨ Instr.setcur 11 5 = .fullimg) ∧ 11 = 0 ∧ 5 = 0)) ∧
      (Instr.fullimg = .setcur 0 0 ∨ ((Instr.fullimg = .flush ∨ Instr.fullimg = .fullimg) ∧ 0 = 0 ∧ 0 = 0)) ∧
      (nextLevel s).busy = true ∧ s.params.txTimeout ≠ some 0 := by decide +kernel

theorem witness_InitSendsScript : AlwaysReady (filled 0) := alwaysReady_filled 0
theorem witness_FlushSendsPicture : AlwaysReady (filled 0x11) := alwaysReady_filled 0x11
theorem witness_FullimgSendsImage : AlwaysReady (latched 0 string 0xFFFFFFFF) := alwaysReady_filled 0

/-- A busy block whose resource is placed, with the cursor in the last cell. -/
theorem witness_StepKeepsInvariant : ∃ s t, Inv s ∧ s.busy = true ∧ step s = .next t := by
  let s : State := { hanging with cur := ⟨11, 5⟩, res := fixture }
  obtain ⟨t, ht, -⟩ := exists_of_once (s := s) (p := fun _ => true) (by decide +kernel)
  refine ⟨s, t, ⟨test_params_wf, fun h => by contradiction, ?_, rfl, ⟨fun h => by contradiction, fun _ => rfl⟩,
    test_resource_is_canonical.1⟩, rfl, ht⟩
  exact ⟨show (11 : BitVec 4).toNat < 12 by decide, show (5 : BitVec 3).toNat < 6 by decide⟩

theorem witness_FaultBitsAreSticky :
    ∃ t, step { issuing 0x30000041 with fault := ⟨true, true, true, true⟩ } = .next t ∧
      ∀ q, nextInput { issuing 0x30000041 with fault := ⟨true, true, true, true⟩ } ≠ some (.assertReset, q) := by
  obtain ⟨t, ht, -⟩ := exists_of_once (s := { issuing 0x30000041 with fault := ⟨true, true, true, true⟩ })
    (p := fun _ => true) (by decide +kernel)
  exact ⟨t, ht, fun q hq => by
    rw [show nextInput { issuing 0x30000041 with fault := ⟨true, true, true, true⟩ } =
      some (.write 0x00 4 0x30000041, [.pause]) from rfl] at hq
    simp at hq⟩

/-- A running command goes on: nothing is there, a write is held, or a pause is taken. -/
theorem witness_FaultBitsNeverSteer :
    GoesOn (waiting 0) [] ∧ GoesOn hanging [.write 0x00 4 0x13000000] ∧
      GoesOn { waiting 0 with inputs := [.pause, .read 0x08 4] } [.read 0x08 4] :=
  ⟨.inl ⟨rfl, rfl⟩, .inl ⟨rfl, rfl⟩, .inr rfl⟩

theorem witness_CommandFrame :
    movesCursor (.putsi 4) = false ∧ drawsInFb (.putsi 4) = false ∧ mayRaiseOor (.putsi 4) = false ∧
      sendsNothing (.blit 2 9 7) = true ∧ mayRaiseBadchar (.blit 2 9 7) = false ∧
      (∀ x y, Instr.putsi 4 ≠ .qrypx x y) ∧ Instr.putsi 4 ≠ .init ∧
      (∃ t, exec (.putsi 4) (latched 0 string 0x2000) = .next t) ∧
      ∃ t, exec (.blit 2 9 7) (latched 0 fixture 0x1000) = .next t :=
  ⟨rfl, rfl, rfl, rfl, rfl, fun _ _ => by simp, by simp, exists_of_runs (by decide +kernel), exists_of_runs (by decide +kernel)⟩

/-- A waiting `SETCUR` of the vectors: neither an invalid character nor a pulse is to come. -/
theorem witness_ResumedCommandFrame :
    GoesOn (waiting 0) [] ∧ (∃ t, step (waiting 0) = .next t) ∧ (∀ a ∈ (waiting 0).seq.work, a.mayBeBad = false) ∧
      ∀ a ∈ (waiting 0).seq.work, a.isPulse = false :=
  ⟨.inl ⟨rfl, rfl⟩, ⟨_, rfl⟩, by decide, by decide⟩

theorem witness_SendingIgnoresPicture :
    sendsNothing (.puts 4) = false ∧ Instr.puts 4 ≠ .flush ∧
      (∃ t, exec (.puts 4) (latched 0 string 0x2000) = .next t) ∧
      GoesOn hanging [.write 0x00 4 0x13000000] ∧ (∀ a ∈ hanging.seq.work, a.readsFb = false) ∧
      ∃ t, step hanging = .next t :=
  ⟨rfl, by simp, exists_of_runs (by decide +kernel), .inl ⟨rfl, rfl⟩, by decide, ⟨_, rfl⟩⟩

theorem witness_ReadyCommandsEnd : AlwaysReady (latched 0 string 0x2000) := alwaysReady_filled 0

/-- The first and the last offset of the window, for a read and for a write, and both levels of the reset input. -/
theorem witness_RegisterWindow :
    (0x00 < 32 ∧ 0x00 % 4 = 0) ∧ (0x1C < 32 ∧ 0x1C % 4 = 0 ∧ 0x14 ≤ 0x1C ∧ 0x1C ≠ 0) ∧ (0x04 < 32 ∧ 0x04 ≠ 0) ∧
      { filled 0 with inputs := [.read 0x1C 4] }.inputs = .read 0x1C 4 :: [] ∧
      { filled 0 with inputs := [.write 0x1C 4 7] }.inputs = .write 0x1C 4 7 :: [] ∧
      (filled 0).rst = .released ∧ (inResetWith [.write 0x04 4 7]).rst = .asserted := by decide

theorem witness_ArgWriteSparesRunningCommand :
    { hanging with inputs := [.write 0x04 4 0xFFFFFFFF] }.rst = .released ∧
      { hanging with inputs := [.write 0x04 4 0xFFFFFFFF] }.inputs = .write 0x04 4 0xFFFFFFFF :: [] := ⟨rfl, rfl⟩

/-- Held because a command runs, with nothing else to come; held in reset, with the release behind another access. -/
theorem witness_HeldCommandWaits :
    (hanging.busy = true ∧ hanging.inputs = .write 0x00 4 0x13000000 :: [] ∧ firstPlatform [] = none) ∧
      (inResetWith [.write 0x00 4 0x13000000, .read 0x08 4, .releaseReset]).rst = .asserted ∧
      firstPlatform [.read 0x08 4, .releaseReset] = some (.releaseReset, [.read 0x08 4]) := by decide

/-- The first offset past the window; a half word and a misaligned word inside it. -/
theorem witness_UndefinedAccessesStop :
    ({ filled 0 with inputs := [.read 32 4] }.inputs = .read 32 4 :: [] ∧ 32 ≤ 32) ∧
      ({ filled 0 with inputs := [.write 4 2 1] }.inputs = .write 4 2 1 :: [] ∧ 4 < 32 ∧ (2 ≠ 4 ∨ 4 % 4 ≠ 0)) ∧
      ({ filled 0 with inputs := [.read 31 4] }.inputs = .read 31 4 :: [] ∧ 31 < 32 ∧ (4 ≠ 4 ∨ 31 % 4 ≠ 0)) := by
  decide

/-- A string of 4 running at `0x2000`, its last byte replaced, a `CMD` write held. -/
theorem witness_PlacedByteIsRead :
    let s : State := { latched 0 string 0x2000 with
      busy := true, opw := 0x31000004, inputs := [.write 0x00 4 0x13000000, .fillRes 0x2003 0x22]
      seq := { Seq.dead with work := [.cell [0x00], .putRes false 0x2003] } }
    Memory.wf s.res ∧ nextInput s = some (.fillRes 0x2003 0x22, [.write 0x00 4 0x13000000]) :=
  ⟨test_resource_is_canonical.2.2, rfl⟩

theorem witness_ResetInputAbandonsCommand :
    nextInput { hanging with inputs := [.assertReset] } = some (.assertReset, []) ∧
      nextInput { hanging with inputs := hanging.inputs ++ [.assertReset] } = some (.assertReset, hanging.inputs) :=
  ⟨rfl, rfl⟩

/-- In reset with a write held and the release to come. -/
theorem witness_ResetHoldsTheBlock : ∃ s t, Inv s ∧ s.rst = .asserted ∧ step s = .next t ∧
    nextInput s = some (.releaseReset, [.write 0x00 4 0x13000000]) := by
  let s : State := inResetWith [.write 0x00 4 0x13000000, .releaseReset]
  refine ⟨s, _, ⟨test_params_wf, fun _ => ⟨rfl, rfl, rfl, rfl, rfl, rfl, rfl⟩, ?_, rfl,
    ⟨fun _ => rfl, fun h => by contradiction⟩, by decide⟩, rfl, rfl, rfl⟩
  exact ⟨show (0 : BitVec 4).toNat < 12 by decide, show (0 : BitVec 3).toNat < 6 by decide⟩

/-- An `ARG` write left after the last command. -/
theorem witness_RunEndedIsFinal :
    let s : State := { filled 0 with inputs := [.write 0x04 4 7, .read 0x08 4] }
    RunEnded s ∧ (∃ t, step s = .next t) ∧ ∀ q, nextInput s ≠ some (.assertReset, q) :=
  ⟨test_run_ended.1, ⟨_, rfl⟩, fun q hq => by
    rw [nextInput_head (s := { filled 0 with inputs := [.write 0x04 4 7, .read 0x08 4] }) rfl rfl] at hq
    simp at hq⟩

theorem witness_EnvironmentIsFixed :
    (∃ t, step hanging = .next t) ∧ ∀ a b q, nextInput hanging ≠ some (.fillRes a b, q) := by
  obtain ⟨t, ht, -⟩ := exists_of_once (s := hanging) (p := fun _ => true) (by decide +kernel)
  exact ⟨⟨t, ht⟩, fun a b q hq => by
    rw [show nextInput hanging = none from rfl] at hq
    contradiction⟩

theorem witness_ResourceAddressesWrap : (resAddr 0xFFFFFFFF 1).toNat = 0 := by decide

end Sys2Proof.Tests
end

section
/-! PROOFS. The invariant of the machine: the state after reset meets it and every step keeps it. -/

namespace Sys2Proof.Machine

/-- What a command needs of the state it is accepted in, and never breaks: the invariant out of reset, without the
sequencer's bookkeeping, which holds again only when the command has ended or waits. -/
structure CommandSound (s : State) : Prop where
  parameters : s.params.wf = true
  released : s.rst = .released
  cursor : CursorInGrid s
  resetLine : s.lcdrst = .released
  resource : Memory.wf s.res

theorem Inv.commandSound {s : State} (h : Inv s) (hr : s.rst = .released) : CommandSound s :=
  ⟨h.parameters, hr, h.cursor, h.resetLine, h.resource⟩

/-- Acceptance of a word writes none of the fields a command relies on. -/
theorem CommandSound.accept {s : State} (h : CommandSound s) (w : Word) : CommandSound (accept w s) :=
  ⟨h.parameters, h.released, h.cursor, h.resetLine, h.resource⟩

/-- Drawing moves the cursor at most to the origin and touches nothing else of these fields. -/
theorem CommandSound.of_drawn {s t : State} (h : CommandSound s) (hd : Drawn s t) : CommandSound t where
  parameters := hd.params ▸ h.parameters
  released := hd.rst.trans h.released
  cursor := by
    unfold CursorInGrid
    rcases hd.cursor with hc | hc <;> rw [hc]
    · exact h.cursor
    · decide
  resetLine := hd.lcdrst.trans h.resetLine
  resource := hd.res ▸ h.resource

/-- The end of a command restores the bookkeeping. -/
theorem CommandSound.inv_finish {s : State} (h : CommandSound s) : Inv (finish s) where
  parameters := h.parameters
  held ha := by
    rw [finish_rst, h.released] at ha
    contradiction
  cursor := h.cursor
  resetLine := h.resetLine
  sequencer := sequencerSound_of_ended ⟨rfl, rfl⟩
  resource := h.resource

theorem CommandSound.inv_runActs {s : State} (h : CommandSound s) (acts : List Act) : Inv (runActs acts s) :=
  Machine.inv_runActs acts h.parameters h.released h.cursor h.resetLine h.resource

/-- Every command ends, or waits, in the invariant: the five that draw end at once, the twelve others run transport steps
from a cursor in the grid. -/
theorem CommandSound.inv_exec {s t : State} (h : CommandSound s) {i : Instr} (he : exec i s = .next t) : Inv t := by
  cases hi : sendsNothing i with
  | true =>
    obtain ⟨u, hu, hd, -⟩ := exec_drawing hi s
    obtain rfl : finish u = t := by simpa [hu] using he
    exact (h.of_drawn hd).inv_finish
  | false =>
    obtain ⟨acts, q, c, hrun, -, hgrid, -⟩ := exec_sending hi s
    obtain rfl : runActs acts ((s.setCur c).setSeq q) = t := by simpa [hrun s rfl rfl rfl rfl] using he
    have hs : CommandSound ((s.setCur c).setSeq q) :=
      ⟨h.parameters, h.released, hgrid h.cursor, h.resetLine, h.resource⟩
    exact hs.inv_runActs acts

/-- A recorded reserved word ends like a command (30_encoding.md R88). -/
theorem CommandSound.inv_endReserved {s : State} (h : CommandSound s) : Inv (endReserved s) :=
  CommandSound.inv_finish (s := raiseFault .badcmd s)
    ⟨h.parameters, h.released, h.cursor, h.resetLine, h.resource⟩

/-- The inputs to come are no part of the invariant. -/
theorem Inv.setInputs {s : State} (h : Inv s) (q : List Input) : Inv (s.setInputs q) :=
  h.congr (fun hr => (h.held hr).congr rfl rfl rfl rfl rfl rfl rfl) rfl rfl rfl rfl rfl rfl

/-- The words read are no part of the invariant. -/
theorem Inv.setReads {s : State} (h : Inv s) (l : List Word) : Inv (s.setReads l) :=
  h.congr (fun hr => (h.held hr).congr rfl rfl rfl rfl rfl rfl rfl) rfl rfl rfl rfl rfl rfl

/-- The release of the reset input only ends the duty to hold the reset values. -/
theorem Inv.release {s : State} (h : Inv s) : Inv (s.setRst .released) :=
  h.congr (fun hr => by contradiction) rfl rfl rfl rfl rfl rfl

/-- A byte placed in `RES` keeps its canonical form; the block does not see it. -/
theorem Inv.fillRes {s : State} (h : Inv s) (a : Word) (b : Byte) :
    Inv (s.setRes (Memory.write s.res a.toNat b)) where
  parameters := h.parameters
  held hr := (h.held hr).congr rfl rfl rfl rfl rfl rfl rfl
  cursor := h.cursor
  resetLine := h.resetLine
  sequencer := h.sequencer
  resource := Memory.write_wf s.res h.resource a.toNat a.isLt b

/-- A register write reaches `ARG` at most, and not while the reset values are held. -/
theorem Inv.regWrite {s : State} (h : Inv s) (off : Nat) (v : Word) : Inv (regWrite off v s) := by
  unfold Machine.regWrite
  split
  · rename_i hw
    have hr : s.rst = .released := by
      rw [← inReset_false_iff]
      simpa using (Bool.and_eq_true_iff.mp hw).2
    refine h.congr (fun ha => ?_) rfl rfl rfl rfl rfl rfl
    rw [State.rst_setArg, hr] at ha
    contradiction
  · exact h

/-- The block going on keeps the invariant: a busy block is out of reset. -/
theorem Inv.resume {s : State} (h : Inv s) : Inv (resume s) := by
  cases hb : s.busy with
  | true =>
    rw [resume_busy hb]
    exact (h.commandSound (h.released_of_busy hb)).inv_runActs _
  | false =>
    rw [resume_idle hb]
    exact h

/-- Settles O42, by cases on what a step can be: each keeps the invariant. -/
theorem stepKeepsInvariant : Obligations.StepKeepsInvariant := by
  unfold Obligations.StepKeepsInvariant
  intro s t h hstep
  rcases step_cases hstep with ⟨q, -, rfl⟩ | ⟨q, -, rfl⟩ | ⟨q, -, rfl⟩ | ⟨a, b, q, -, rfl⟩ | ⟨off, q, -, -, -, rfl⟩ |
    ⟨off, v, q, -, -, -, -, rfl⟩ | ⟨w, q, -, -, hr, hword⟩
  · exact (h.setInputs q).resume
  · exact inv_resetBlock (h.setInputs q)
  · exact (h.setInputs q).release
  · exact (h.setInputs q).fillRes a b
  · exact (h.setInputs q).setReads _
  · exact (h.setInputs q).regWrite off v
  · have hs : CommandSound (accept w (s.setInputs q)) := ((h.setInputs q).commandSound hr).accept w
    rcases hword with ⟨i, -, hexec⟩ | ⟨why, -, rfl⟩
    · exact hs.inv_exec hexec
    · exact hs.inv_endReserved

/-- The state after reset meets the invariant: the block's own parameters meet 00_scope.md R7 and it is idle. -/
theorem inv_reset : Inv State.reset where
  parameters := Config.parameters_wf
  held hr := by contradiction
  cursor := by
    show (0 : BitVec 4).toNat < 12 ∧ (0 : BitVec 3).toNat < 6
    decide
  resetLine := rfl
  sequencer := sequencerSound_of_ended ⟨rfl, rfl⟩
  resource := ⟨List.Pairwise.nil, List.forall_mem_nil _⟩

/-- Settles O43: the constants' constraints are evaluated, the state after reset is `inv_reset`. -/
theorem resetMeetsInvariant : Obligations.ResetMeetsInvariant := by
  unfold Obligations.ResetMeetsInvariant
  exact ⟨by decide, inv_reset⟩

end Sys2Proof.Machine
end

section
/-! PROOFS. The state of the block: the picture and its pixels, the acceptance of a word, the registers the host sees,
what a command may write, the sticky `FAULT` bits, what is held while busy or in reset, and the environment. -/

namespace Sys2Proof.Machine

/-! ### The picture (10_state.md R23) -/

/-- Bit `n` of a byte, by shift and mask. -/
theorem getLsbD_iff_shift_and_one (b : Byte) (n : Nat) : b.getLsbD n = true ↔ b >>> n &&& 1 = 1 := by
  have h : b >>> n &&& 1#8 = (BitVec.ofBool (b.getLsbD n)).setWidth 8 := by
    rw [BitVec.and_one_eq_setWidth_ofBool_getLsbD, BitVec.getLsbD_ushiftRight, Nat.add_zero]
  show _ ↔ b >>> n &&& 1#8 = 1#8
  rw [h]
  cases b.getLsbD n <;> decide

/-- Bit `j` of the byte in band `g`, column `x`. -/
theorem pix_band (s : State) (x g : Nat) {j : Nat} (hj : j < 8) :
    pix s x (8 * g + j) = (fbRead s (84 * g + x)).getLsbD j := by
  unfold pix
  rw [fbIndex_eq, show (8 * g + j) / 8 = g by omega, show (8 * g + j) % 8 = j by omega]

/-- Settles O12: the pixel is a bit of its byte, and equal pixels make equal framebuffers by `fb_ext_pix`. -/
theorem pictureIsItsPixels : Obligations.PictureIsItsPixels := by
  unfold Obligations.PictureIsItsPixels
  refine ⟨fun s x y _ _ => ?_, fun s x g j _ _ hj => (pix_band s x g hj).symm,
    fun s t => ⟨fun h x y _ _ => pix_congr h x y, fb_ext_pix⟩⟩
  rw [← fbIndex_eq]
  exact getLsbD_iff_shift_and_one _ _

/-! ### The acceptance of a word (10_state.md R32) -/

/-- Settles O6: the state the command runs in is the accepted one, the write taken. -/
theorem stepRunsDecodedCommand : Obligations.StepRunsDecodedCommand := by
  unfold Obligations.StepRunsDecodedCommand
  intro s w rest i hb hr hin hd
  refine ⟨accept w (s.setInputs rest), ?_, ?_⟩
  · rw [step_issue (nextInput_issue hb hr hin), hd]
  · simp

/-! ### The register window (10_state.md R27 to R32) -/

theorem statusWord_toNat (s : State) : (statusWord s).toNat = s.busy.toNat + 2 * s.q.toNat := by
  unfold statusWord
  cases s.busy <;> cases s.q <;> decide

theorem faultWord_toNat (s : State) : (faultWord s).toNat = s.fault.badcmd.toNat + 2 * s.fault.oor.toNat +
    4 * s.fault.badchar.toNat + 8 * s.fault.timeout.toNat := by
  unfold faultWord
  obtain ⟨badcmd, oor, badchar, timeout⟩ := s.fault
  revert badcmd oor badchar timeout
  decide

theorem cursorWord_toNat (s : State) : (cursorWord s).toNat = s.cur.col.toNat + 256 * s.cur.row.toNat := by
  unfold cursorWord
  generalize s.cur.col = col, s.cur.row = row
  revert col row
  decide

theorem regRead_cmd (s : State) : regRead 0x00 s = 0 := rfl

theorem regRead_arg (s : State) : regRead 0x04 s = s.arg := rfl

theorem regRead_status (s : State) : regRead 0x08 s = statusWord s := rfl

theorem regRead_fault (s : State) : regRead 0x0C s = faultWord s := rfl

theorem regRead_cursor (s : State) : regRead 0x10 s = cursorWord s := rfl

theorem regRead_unused {off : Nat} (h : 0x14 ≤ off) (s : State) : regRead off s = 0 := by
  unfold regRead
  rw [if_neg (by omega), if_neg (by omega), if_neg (by omega), if_neg (by omega)]

/-- A register write out of reset: `ARG` takes it, another offset ignores it; in reset every offset does. -/
theorem regWrite_eq (off : Nat) (v : Word) (s : State) :
    regWrite off v s = if off = 0x04 ∧ s.rst = .released then s.setArg v else s := by
  unfold regWrite
  simp [inReset_false_iff]

/-- A write of another register than `CMD` is no issue. -/
theorem isIssue_write_of_ne {off : Nat} (h : off ≠ 0) (width : Nat) (v : Word) :
    (Input.write off width v).isIssue = false := by
  simp [Input.isIssue, h]

/-- Settles O50: an access of the window is not held, and each offset answers or takes as its lemma says. -/
theorem registerWindow : Obligations.RegisterWindow := by
  unfold Obligations.RegisterWindow
  refine ⟨fun s off rest hin hoff halign => ?_, fun s off v rest hin hoff halign hne => ?_⟩
  · have hnext : nextInput s = some (.read off 4, rest) := nextInput_head hin (holds_of_notIssue s rfl)
    refine ⟨regRead off s, step_read hnext hoff halign, ?_, ?_, ?_, ?_, ?_, fun h => regRead_unused h s⟩ <;> rintro rfl
    · exact regRead_cmd s
    · exact regRead_arg s
    · exact regRead_status s ▸ statusWord_toNat s
    · exact regRead_fault s ▸ faultWord_toNat s
    · exact regRead_cursor s ▸ cursorWord_toNat s
  · have hnext : nextInput s = some (.write off 4 v, rest) :=
      nextInput_head hin (holds_of_notIssue s (isIssue_write_of_ne hne 4 v))
    rw [step_regWrite hnext hoff halign hne, regWrite_eq, State.rst_setInputs]

/-- Settles O51: the write changes `ARG` only, which going on does not look at. -/
theorem argWriteSparesRunningCommand : Obligations.ArgWriteSparesRunningCommand := by
  unfold Obligations.ArgWriteSparesRunningCommand
  intro s v rest hr hin
  refine ⟨⟨(s.setInputs rest).setArg v, ?_, ?_⟩, (bystander_setArg v).resume s rfl fun _ _ => rfl⟩
  · have hnext : nextInput s = some (.write 0x04 4 v, rest) := nextInput_head hin (holds_of_notIssue s rfl)
    rw [step_regWrite hnext (by omega) (by omega) (by omega), regWrite_eq, if_pos ⟨rfl, hr⟩]
  · simp

/-! ### What no command writes, and what a run of steps keeps -/

/-- What no command writes, drawing or sending, executed or resumed: `ARG`, the latches, the reset input, the
environment and the words read. -/
structure Untouched (s t : State) : Prop where
  arg : t.arg = s.arg
  rst : t.rst = s.rst
  opw : t.opw = s.opw
  argl : t.argl = s.argl
  params : t.params = s.params
  res : t.res = s.res
  inputs : t.inputs = s.inputs
  reads : t.reads = s.reads
  resets : t.resets = s.resets

theorem SameButTransport.untouched {s t : State} (h : SameButTransport s t) : Untouched s t :=
  ⟨h.arg, h.rst, h.opw, h.argl, h.params, h.res, h.inputs, h.reads, h.resets⟩

theorem Drawn.untouched {s t : State} (h : Drawn s t) : Untouched s t :=
  ⟨h.arg, h.rst, h.opw, h.argl, h.params, h.res, h.inputs, h.reads, h.resets⟩

/-- A command that draws touches none of it, one that sends changes the transport side and the cursor only. -/
theorem exec_untouched {i : Instr} {s t : State} (h : exec i s = .next t) : Untouched s t := by
  cases hi : sendsNothing i with
  | true =>
    obtain ⟨u, hu, hd, -⟩ := exec_drawing hi s
    obtain rfl : finish u = t := by simpa [hu] using h
    exact { hd.untouched with }
  | false =>
    obtain ⟨acts, q, c, hrun, -⟩ := exec_sending hi s
    obtain rfl : runActs acts ((s.setCur c).setSeq q) = t := by simpa [hrun s rfl rfl rfl rfl] using h
    exact { (sameButTransport_runActs acts ((s.setCur c).setSeq q)).untouched with }

/-- The block going on changes the transport side only. -/
theorem sameButTransport_resume (s : State) : SameButTransport s (resume s) := by
  cases hb : s.busy with
  | true =>
    rw [resume_busy hb]
    exact sameButTransport_runActs _ s
  | false =>
    rw [resume_idle hb]
    exact .refl s

/-- Without a step that may meet an invalid character, a run raises no `BADCHAR` and leaves no such step to do. -/
theorem runActs_keeps_badchar {acts : List Act} (h : ∀ a ∈ acts, a.mayBeBad = false) (s : State) :
    (runActs acts s).fault.badchar = s.fault.badchar ∧ ∀ a ∈ (runActs acts s).seq.work, a.mayBeBad = false :=
  ⟨(keeps_runActs acts s).badchar (by simpa using h),
    left_runActs (P := fun a => a.mayBeBad = false) rfl (fun _ => rfl) h s⟩

/-- Without a pulse among its steps, a run leaves `LCDRST` alone and no pulse to do. -/
theorem runActs_keeps_lcdrst {acts : List Act} (h : ∀ a ∈ acts, a.isPulse = false) (s : State) :
    (runActs acts s).lcdrst = s.lcdrst ∧ ∀ a ∈ (runActs acts s).seq.work, a.isPulse = false :=
  ⟨(keeps_runActs acts s).line (by simpa using h),
    left_runActs (P := fun a => a.isPulse = false) rfl (fun _ => rfl) h s⟩

/-- Settles O46: a drawing command by `exec_drawing`, a sending one by what a run of its steps keeps. -/
theorem commandFrame : Obligations.CommandFrame := by
  unfold Obligations.CommandFrame
  intro i s t h
  have hu := exec_untouched h
  have hres : ∀ a, resRead t a = resRead s a := fun a => by unfold resRead; rw [hu.res]
  cases hi : sendsNothing i with
  | true =>
    obtain ⟨u, hrun, hd, hcur, hq, hfb, hoor⟩ := exec_drawing hi s
    obtain rfl : finish u = t := by simpa [hrun] using h
    exact ⟨hcur, hq, fun hn => fbRead_congr (hfb hn),
      fun _ => ⟨⟨rfl, rfl⟩, hd.trace, hd.dc, hd.lcdrst, hd.peri, hd.quiet, hd.dcSafe, hd.timeout⟩,
      hd.badcmd, hoor, fun _ => ⟨hd.badchar, List.forall_mem_nil _⟩, fun _ => ⟨hd.lcdrst, List.forall_mem_nil _⟩,
      hu.arg, hu.rst, hu.opw, hu.argl, hres, hu.params, hu.inputs, hu.reads, hu.resets⟩
  | false =>
    obtain ⟨acts, q, c, hrun, hcur, -, hpulse, -, hbad⟩ := exec_sending hi s
    obtain rfl : runActs acts ((s.setCur c).setSeq q) = t := by simpa [hrun s rfl rfl rfl rfl] using h
    have hsame := sameButTransport_runActs acts ((s.setCur c).setSeq q)
    have hkeep := keeps_runActs acts ((s.setCur c).setSeq q)
    exact ⟨fun hm => hsame.cur.trans (hcur hm), fun _ => hsame.q, fun _ => fbRead_congr hsame.fb,
      fun hs => by contradiction, hkeep.badcmd, fun _ => hkeep.oor, fun hb => runActs_keeps_badchar (hbad hb) _,
      fun hn => runActs_keeps_lcdrst (hpulse hn) _,
      hu.arg, hu.rst, hu.opw, hu.argl, hres, hu.params, hu.inputs, hu.reads, hu.resets⟩

/-- Settles O47: a busy block runs the steps it has still to do, an idle one stays as it is. -/
theorem resumedCommandFrame : Obligations.ResumedCommandFrame := by
  unfold Obligations.ResumedCommandFrame
  intro s t q hgo h
  obtain rfl : resume (s.setInputs q) = t := by simpa [step_goesOn hgo] using h
  refine ⟨sameButTransport_resume _, ?_⟩
  cases hb : s.busy with
  | true =>
    rw [resume_busy (s := s.setInputs q) hb]
    have hkeep := keeps_runActs s.seq.work (s.setInputs q)
    exact ⟨hkeep.badcmd, hkeep.oor, fun h => runActs_keeps_badchar h _, fun h => runActs_keeps_lcdrst h _⟩
  | false =>
    rw [resume_idle (s := s.setInputs q) hb]
    exact ⟨rfl, rfl, fun h => ⟨rfl, h⟩, fun h => ⟨rfl, h⟩⟩

/-! ### The `FAULT` bits (10_state.md R29, 60_exceptions.md R181) -/

/-- The state with more `FAULT` bits set. -/
def addFaults (f : FaultBits) (s : State) : State := s.setFault (s.fault.or f)

theorem bystander_addFaults (f : FaultBits) : Bystander (addFaults f) := bystander_moreFaults f

theorem resRead_addFaults (f : FaultBits) (s : State) (a : Word) : resRead (addFaults f s) a = resRead s a := rfl

theorem argl_addFaults (f : FaultBits) (s : State) : (addFaults f s).argl = s.argl := rfl

theorem FaultBits.or_comm (f g : FaultBits) : f.or g = g.or f := by
  simp [FaultBits.or, Bool.or_comm]

theorem FaultBits.none_or (f : FaultBits) : FaultBits.none.or f = f := by
  rw [FaultBits.or_comm, FaultBits.or_none]

/-- The bits put on a state that has none are its bits. -/
theorem addFaults_cleared (f : FaultBits) (s : State) : addFaults f (s.setFault .none) = s.setFault f :=
  congrArg s.setFault (FaultBits.none_or f)

theorem pixelWrite_addFaults (x y : Nat) (v : Bool) (f : FaultBits) (s : State) :
    pixelWrite x y v (addFaults f s) = addFaults f (pixelWrite x y v s) := by
  cases h : inRange x y with
  | true =>
    rw [pixelWrite_in h, pixelWrite_in h v s]
    unfold pixelWrite
    rw [if_pos h, if_pos h]
    cases v <;> rfl
  | false => rw [pixelWrite_out h, pixelWrite_out h, (bystander_addFaults f).raise]

theorem blitByte_addFaults (x y : Nat) (b : Byte) (f : FaultBits) (s : State) :
    blitByte x y b (addFaults f s) = addFaults f (blitByte x y b s) := by
  unfold blitByte
  rw [pixelWrite_addFaults, pixelWrite_addFaults]
  rfl

theorem blitRow_addFaults (x y off r : Nat) (f : FaultBits) (s : State) :
    blitRow x y off r (addFaults f s) = addFaults f (blitRow x y off r s) :=
  List.foldl_hom (addFaults f) fun t _ => blitByte_addFaults _ _ _ f t

theorem blitRowStep_addFaults (x y off : Nat) (f : FaultBits) (s : State) (r : Nat) :
    blitRowStep x y off (addFaults f s) r = addFaults f (blitRowStep x y off s r) := by
  unfold blitRowStep
  rw [blitRow_addFaults]
  rfl

theorem drawRows_addFaults (x y off n : Nat) (f : FaultBits) (s : State) :
    drawRows x y off n (addFaults f s) = addFaults f (drawRows x y off n s) :=
  List.foldl_hom (addFaults f) fun t r => blitRowStep_addFaults x y off f t r

/-- An operation of the block that tests no `FAULT` bit: it answers a state, and with more bits set before it the same
state with those bits more. -/
def Oblivious (F : State → Host.Outcome State Fault Refusal) : Prop :=
  ∀ s, ∃ t, F s = .next t ∧ ∀ f, F (addFaults f s) = .next (addFaults f t)

/-- A command that ends with its drawing is as oblivious as the drawing. -/
theorem next_finish_addFaults {f : FaultBits} {u t : State} (h : u = addFaults f t) :
    (.next (finish u) : Host.Outcome State Fault Refusal) = .next (addFaults f (finish t)) := by
  rw [h, (bystander_addFaults f).finish]

/-- Drawing: a pixel write and each row of a blit go through. -/
theorem oblivious_exec_drawing {i : Instr} (h : sendsNothing i = true) : Oblivious (exec i) := by
  intro s
  cases i <;> try contradiction
  case setpx x y => exact ⟨_, rfl, fun f => next_finish_addFaults (pixelWrite_addFaults x y true f s)⟩
  case clrpx x y => exact ⟨_, rfl, fun f => next_finish_addFaults (pixelWrite_addFaults x y false f s)⟩
  case qrypx x y =>
    refine ⟨_, rfl, fun f => next_finish_addFaults ?_⟩
    split
    · rfl
    · exact (bystander_addFaults f).raise s .oor
  case clrall => exact ⟨_, execClrall_eq s, fun f => execClrall_eq (addFaults f s)⟩
  case blit x y t =>
    cases ha : blitAccept x y (resRead s (resAddr s.argl 18)).toNat (resRead s (resAddr s.argl 22)).toNat with
    | true =>
      refine ⟨_, execBlit_accepted ha, fun f => ?_⟩
      have hb := execBlit_accepted (t := t) (s := addFaults f s) ha
      rw [resRead_addFaults, resRead_addFaults, resRead_addFaults, argl_addFaults, (bystander_addFaults f).setSeq] at hb
      exact hb.trans (next_finish_addFaults (drawRows_addFaults x y _ _ f _))
    | false => exact ⟨_, execBlit_rejected ha, fun f => execBlit_rejected (s := addFaults f s) ha⟩

/-- No command tests a `FAULT` bit: a sending one runs steps, of which the bits are a bystander. -/
theorem oblivious_exec (i : Instr) : Oblivious (exec i) := by
  cases hi : sendsNothing i with
  | true => exact oblivious_exec_drawing hi
  | false =>
    intro s
    obtain ⟨acts, q, c, hrun, -⟩ := exec_sending hi s
    refine ⟨_, hrun s rfl rfl rfl rfl, fun f => (hrun (addFaults f s) rfl rfl rfl rfl).trans ?_⟩
    exact congrArg _ ((bystander_addFaults f).runActs acts ((s.setCur c).setSeq q) fun _ _ => rfl)

/-- Nor does the block going on. -/
theorem oblivious_resume : Oblivious fun s => .next (resume s) := fun s =>
  ⟨_, rfl, fun f => congrArg _ ((bystander_addFaults f).resume s rfl fun _ _ => rfl)⟩

/-- What an oblivious operation raises is what it raises on the state with no bit set, whatever is set before it. -/
theorem Oblivious.adds {F : State → Host.Outcome State Fault Refusal} (h : Oblivious F) (s : State) (f : FaultBits) :
    ∃ t new, F s = .next t ∧ t.fault = s.fault.or new ∧ F (s.setFault f) = .next (t.setFault (f.or new)) := by
  obtain ⟨u, -, hu⟩ := h (s.setFault .none)
  refine ⟨addFaults s.fault u, u.fault, ?_, FaultBits.or_comm _ _, ?_⟩
  · rw [← hu s.fault, addFaults_cleared]
    rfl
  · rw [← addFaults_cleared, hu f, FaultBits.or_comm]
    rfl

/-- Bits that an oblivious operation finds set are set after it. -/
theorem Oblivious.faultsGrow {F : State → Host.Outcome State Fault Refusal} (h : Oblivious F) {s t : State}
    (ht : F s = .next t) : FaultsGrow s t := by
  obtain ⟨u, new, hu, hnew, -⟩ := h.adds s s.fault
  obtain rfl : u = t := by simpa [hu] using ht
  exact ⟨new, hnew⟩

/-- Settles O45: executing a command and going on with one are oblivious of the `FAULT` bits. -/
theorem faultBitsNeverSteer : Obligations.FaultBitsNeverSteer := by
  unfold Obligations.FaultBitsNeverSteer
  refine ⟨fun i s f => (oblivious_exec i).adds s f, fun s q f hgo => ?_⟩
  have hgo' : GoesOn (s.setFault f) q := by
    unfold GoesOn
    rw [nextInput_congr (s := s) (t := s.setFault f) rfl rfl rfl]
    exact hgo
  rw [step_goesOn hgo, step_goesOn hgo']
  exact oblivious_resume.adds (s.setInputs q) f

theorem faultsGrow_endReserved (s : State) : FaultsGrow s (endReserved s) :=
  (faultsGrow_raise .badcmd s).trans (.of_eq (finish_fault _))

/-- Every step but a reset only adds `FAULT` bits. -/
theorem step_faultsGrow {s t : State} (h : step s = .next t) (hr : ∀ q, nextInput s ≠ some (.assertReset, q)) :
    FaultsGrow s t := by
  have haccept (w : Word) (q : List Input) : FaultsGrow s (accept w (s.setInputs q)) := .of_eq (accept_fault _ _)
  rcases step_cases h with ⟨q, -, rfl⟩ | ⟨q, hq, -⟩ | ⟨q, -, rfl⟩ | ⟨a, b, q, -, rfl⟩ | ⟨off, q, -, -, -, rfl⟩ |
    ⟨off, v, q, -, -, -, -, rfl⟩ | ⟨w, q, -, -, -, ⟨i, -, hexec⟩ | ⟨why, -, rfl⟩⟩
  · exact oblivious_resume.faultsGrow (s := s.setInputs q) rfl
  · exact absurd hq (hr q)
  · exact .of_eq rfl
  · exact .of_eq rfl
  · exact .of_eq rfl
  · rw [regWrite_eq]
    split <;> exact .of_eq rfl
  · exact (haccept w q).trans ((oblivious_exec i).faultsGrow hexec)
  · exact (haccept w q).trans (faultsGrow_endReserved _)

/-- Settles O44: a bit of `f` is a bit of `f.or g`. -/
theorem faultBitsAreSticky : Obligations.FaultBitsAreSticky := by
  unfold Obligations.FaultBitsAreSticky
  intro s t h hr
  obtain ⟨g, hg⟩ := step_faultsGrow h hr
  rw [hg]
  refine ⟨?_, ?_, ?_, ?_⟩ <;> exact fun hset => by simp [FaultBits.or, hset]

/-! ### Held writes (10_state.md R32, 70_reset_and_hazards.md R200) -/

theorem holds_issue {s : State} (h : s.busy = true ∨ s.rst = .asserted) (w : Word) :
    holds s (.write 0x00 4 w) = true := by
  unfold holds
  rw [← inReset_iff] at h
  rw [show Input.isIssue (.write 0x00 4 w) = true from rfl, Bool.true_and, Bool.or_eq_true]
  exact h

/-- The inputs to come are a bystander of the block going on. -/
theorem resume_setInputs (s : State) (v : List Input) : resume (s.setInputs v) = (resume s).setInputs v :=
  (bystander_setInputs v).resume s rfl fun _ _ => rfl

/-- What the platform does is done alike whatever inputs are left, and of it only the reset touches the latches. -/
theorem takeInput_platform {a : Input} (ha : a.isHost = false) (s : State) :
    ∃ t : State, (∀ v, takeInput a (s.setInputs v) = .other (.next (t.setInputs v))) ∧
      (a ≠ .assertReset → t.opw = s.opw ∧ t.argl = s.argl) := by
  cases a with
  | write off width v => contradiction
  | read off width => contradiction
  | assertReset => exact ⟨resetBlock s, fun _ => rfl, fun hn => absurd rfl hn⟩
  | releaseReset => exact ⟨s.setRst .released, fun _ => rfl, fun _ => ⟨rfl, rfl⟩⟩
  | fillRes addr b => exact ⟨s.setRes (Memory.write s.res addr.toNat b), fun _ => rfl, fun _ => ⟨rfl, rfl⟩⟩
  | pause =>
    exact ⟨resume s, fun v => congrArg (fun u => Taken.other (.next u)) (resume_setInputs s v),
      fun _ => ⟨(sameButTransport_resume s).opw, (sameButTransport_resume s).argl⟩⟩

/-- A step that takes an input which is no issue answers what taking it answers. -/
theorem step_taken {s : State} {a : Input} {q : List Input} {o : Host.Outcome State Fault Refusal}
    (h : nextInput s = some (a, q)) (ho : takeInput a (s.setInputs q) = .other o) : step s = o := by
  simp only [step, nextEvent, h, ho]

/-- Settles O52: behind the held write the platform's first input is taken, or else the block goes on; either is done
alike with and without the write in the list. -/
theorem heldCommandWaits : Obligations.HeldCommandWaits := by
  unfold Obligations.HeldCommandWaits
  intro s w rest hheld hin
  have hnext := nextInput_held hin (holds_issue hheld w)
  refine ⟨fun hnone => ?_, fun a q hsome => ?_⟩
  · have hself : s = (s.setInputs []).setInputs (.write 0x00 4 w :: rest) := by rw [← hin]; rfl
    refine ⟨resume (s.setInputs []), step_none (nextInput_nil rfl), ?_, (sameButTransport_resume (s.setInputs [])).opw,
      (sameButTransport_resume (s.setInputs [])).argl⟩
    rw [hnone, Option.map_none] at hnext
    rw [step_none hnext, ← resume_setInputs, ← hself]
  · rw [hsome, Option.map_some] at hnext
    have ha : a.isHost = false := (firstPlatform_spec hsome).1
    obtain ⟨t, htake, hlatch⟩ := takeInput_platform ha s
    have hfree : nextInput (s.setInputs (a :: q)) = some (a, q) :=
      nextInput_head rfl (holds_of_notIssue _ (isIssue_of_platform ha))
    exact ⟨t.setInputs q, step_taken hfree (htake q), step_taken hnext (htake _), hlatch⟩

/-! ### The reset of the block (10_state.md R38, 70_reset_and_hazards.md R200 to R202) -/

/-- A state that answers itself is the end of every run from it. -/
theorem run_of_step_self {t : State} (h : step t = .next t) (k : Nat) : core.run k t = .next t := by
  induction k with
  | zero => rfl
  | succ k ih => rw [run_succ k h, ih]

/-- An idle block without inputs stays as it is. -/
theorem step_idle_nil {t : State} (hb : t.busy = false) (hin : t.inputs = []) : step t = .next t := by
  rw [step_none (nextInput_nil hin), resume_idle hb]

/-- Settles O55: the step is `resetBlock`, which leaves the block idle. -/
theorem resetInputAbandonsCommand : Obligations.ResetInputAbandonsCommand := by
  unfold Obligations.ResetInputAbandonsCommand
  intro s q hnext
  refine ⟨resetBlock (s.setInputs q), step_assertReset hnext, ?_⟩
  simp only [resetBlock_cur, resetBlock_arg, resetBlock_q, resetBlock_busy, resetBlock_fault, resetBlock_lcdrst,
    resetBlock_trace, resetBlock_rst, resetBlock_inputs, resetBlock_params, resetBlock_res, resetBlock_peri,
    State.inputs_setInputs, State.params_setInputs, State.res_setInputs, State.peri_setInputs, true_and]
  refine ⟨rfl, fun hq => run_of_step_self (step_idle_nil (resetBlock_busy _) ?_)⟩
  rw [resetBlock_inputs, State.inputs_setInputs, hq]

/-- Settles O58, by evaluation. -/
theorem resetValues : Obligations.ResetValues := by
  unfold Obligations.ResetValues
  exact ⟨rfl, rfl, rfl, rfl, rfl, rfl, rfl, rfl⟩

/-- Taking an input that is no issue leaves every issue there was. -/
theorem issues_of_nextInput {s : State} {a : Input} {q : List Input} (h : nextInput s = some (a, q))
    (ha : a.isIssue = false) : q.filter Input.isIssue = s.inputs.filter Input.isIssue := by
  obtain ⟨-, -, -, hissues⟩ := nextInput_spec h
  exact hissues ha

/-- The inputs left when the block goes on hold every issue there was. -/
theorem GoesOn.issues {s : State} {q : List Input} (h : GoesOn s q) :
    q.filter Input.isIssue = s.inputs.filter Input.isIssue := by
  rcases h with ⟨-, rfl⟩ | h
  · rfl
  · exact issues_of_nextInput h rfl

/-- The block going on takes no release. -/
theorem GoesOn.not_release {s : State} {q : List Input} (h : GoesOn s q) (q' : List Input) :
    nextInput s ≠ some (.releaseReset, q') := by
  rcases h with ⟨h, -⟩ | h <;> simp [h]

/-- What a step in reset comes to that is no release: the reset values with the reset input still asserted. -/
theorem AtReset.stays {s u : State} (hu : AtReset u) (hrst : u.rst = .asserted)
    (hq : u.inputs.filter Input.isIssue = s.inputs.filter Input.isIssue)
    (hn : ∀ q, nextInput s ≠ some (.releaseReset, q)) :
    AtReset u ∧ (∀ off, Machine.regRead off u = 0) ∧ u.inputs.filter Input.isIssue = s.inputs.filter Input.isIssue ∧
      (u.rst = .released ↔ ∃ q, nextInput s = some (.releaseReset, q)) :=
  ⟨hu, hu.regRead, hq, by simp [hrst, hn]⟩

/-- Settles O56, by cases on the input taken: the block goes on idle, is reset again or released, `RES` gets a byte, a
read is answered, a write is ignored; none is accepted. -/
theorem resetHoldsTheBlock : Obligations.ResetHoldsTheBlock := by
  unfold Obligations.ResetHoldsTheBlock
  intro s t hinv hr hstep
  have hat := hinv.held hr
  rcases step_cases hstep with ⟨q, hgo, rfl⟩ | ⟨q, hq, rfl⟩ | ⟨q, hq, rfl⟩ | ⟨a, b, q, hq, rfl⟩ |
    ⟨off, q, hq, -, -, rfl⟩ | ⟨off, v, q, hq, -, -, hne, rfl⟩ | ⟨w, q, -, -, hfree, -⟩
  · rw [resume_idle (s := s.setInputs q) hat.busy]
    exact AtReset.stays (hat.congr rfl rfl rfl rfl rfl rfl rfl) hr hgo.issues hgo.not_release
  · exact AtReset.stays (atReset_resetBlock _) (resetBlock_rst _) (issues_of_nextInput hq rfl) (by simp [hq])
  · have hu : AtReset ((s.setInputs q).setRst .released) := hat.congr rfl rfl rfl rfl rfl rfl rfl
    exact ⟨hu, hu.regRead, issues_of_nextInput hq rfl, fun _ => ⟨q, hq⟩, fun _ => rfl⟩
  · exact AtReset.stays (hat.congr rfl rfl rfl rfl rfl rfl rfl) hr (issues_of_nextInput hq rfl) (by simp [hq])
  · exact AtReset.stays (hat.congr rfl rfl rfl rfl rfl rfl rfl) hr (issues_of_nextInput hq rfl) (by simp [hq])
  · rw [regWrite_eq, if_neg (by simp [hr])]
    exact AtReset.stays (hat.congr rfl rfl rfl rfl rfl rfl rfl) hr
      (issues_of_nextInput hq (isIssue_write_of_ne hne 4 v)) (by simp [hq])
  · rw [hr] at hfree
    contradiction

/-! ### The environment (10_state.md R37, 20_memory.md R54) -/

@[simp] theorem endReserved_params (s : State) : (endReserved s).params = s.params := rfl

@[simp] theorem endReserved_res (s : State) : (endReserved s).res = s.res := rfl

/-- Settles O59: a command touches neither, and of the other inputs only the platform's byte reaches `RES`. -/
theorem environmentIsFixed : Obligations.EnvironmentIsFixed := by
  unfold Obligations.EnvironmentIsFixed
  intro s t h
  rcases step_cases h with ⟨q, -, rfl⟩ | ⟨q, -, rfl⟩ | ⟨q, -, rfl⟩ | ⟨a, b, q, hq, rfl⟩ | ⟨off, q, -, -, -, rfl⟩ |
    ⟨off, v, q, -, -, -, -, rfl⟩ | ⟨w, q, -, -, -, ⟨i, -, hexec⟩ | ⟨why, -, rfl⟩⟩
  · exact ⟨(sameButTransport_resume _).params, fun _ => (sameButTransport_resume _).res⟩
  · exact ⟨resetBlock_params _, fun _ => resetBlock_res _⟩
  · exact ⟨rfl, fun _ => rfl⟩
  · exact ⟨rfl, fun hn => absurd hq (hn a b q)⟩
  · exact ⟨rfl, fun _ => rfl⟩
  · rw [regWrite_eq]
    split <;> exact ⟨rfl, fun _ => rfl⟩
  · exact ⟨(exec_untouched hexec).params, fun _ => (exec_untouched hexec).res⟩
  · simp

end Sys2Proof.Machine
end

section
/-! PROOFS. The memory: repeated commands, the accesses that stop, the platform's bytes in `RES` and the addresses they
are read at. -/

namespace Sys2Proof.Machine

/-! ### Repeating a command that draws (20_memory.md R60) -/

theorem raiseFault_finish (c : FaultCode) (s : State) : raiseFault c (finish s) = finish (raiseFault c s) := rfl

/-- The end of a command and a pixel write do not see each other. -/
theorem pixelWrite_finish (x y : Nat) (v : Bool) (s : State) :
    pixelWrite x y v (finish s) = finish (pixelWrite x y v s) := by
  cases h : inRange x y with
  | true =>
    unfold pixelWrite
    rw [if_pos h, if_pos h]
    cases v <;> rfl
  | false => rw [pixelWrite_out h, pixelWrite_out h, raiseFault_finish]

/-- A recorded fault, recorded again, changes nothing (60_exceptions.md R181). -/
theorem raiseFault_raiseFault (c : FaultCode) (s : State) : raiseFault c (raiseFault c s) = raiseFault c s :=
  congrArg s.setFault (raise_raise s.fault c)

/-- A pixel written again with the same value: on the screen it has that value, off it `OOR` is already recorded. -/
theorem pixelWrite_pixelWrite (x y : Nat) (v : Bool) (s : State) :
    pixelWrite x y v (pixelWrite x y v s) = pixelWrite x y v s := by
  cases h : inRange x y with
  | true =>
    have hfb : (pixelWrite x y v (pixelWrite x y v s)).fb = (pixelWrite x y v s).fb :=
      fb_ext_pix fun x' y' hx' _ => by
        rw [pix_pixelWrite h v _ hx', pix_pixelWrite h v s hx']
        split <;> rfl
    rw [pixelWrite_in h, hfb]
    rfl
  | false => rw [pixelWrite_out h, pixelWrite_out h, raiseFault_raiseFault]

/-- Two ended states that differ in nothing but the picture and the faults are equal when those agree. -/
theorem SameButPicture.eq_of_ended {s t : State} (h : SameButPicture s t) (hs : Ended s) (ht : Ended t)
    (hfb : t.fb = s.fb) (hfault : t.fault = s.fault) : t = s := by
  obtain ⟨hsb, hsq⟩ := hs
  obtain ⟨htb, htq⟩ := ht
  exact State.ext hfb h.cur h.arg h.q (htb.trans hsb.symm) hfault h.dc h.lcdrst h.rst h.opw h.argl (htq.trans hsq.symm)
    h.params h.res h.peri h.inputs h.trace h.reads h.quiet h.dcSafe h.resets

/-- The bitmap at `ARGL` depends on `ARGL` and `RES` only. -/
theorem bitmap_congr {s t : State} (hargl : t.argl = s.argl) (hres : t.res = s.res) :
    bitmapWidth t = bitmapWidth s ∧ bitmapHeight t = bitmapHeight s ∧ bitmapNibble t = bitmapNibble s := by
  have hread : ∀ a, resRead t a = resRead s a := fun a => by unfold resRead; rw [hres]
  have hwidth : bitmapWidth t = bitmapWidth s := by unfold bitmapWidth; rw [hread, hargl]
  have hoffset : bitmapOffset t = bitmapOffset s := by unfold bitmapOffset; rw [hread, hargl]
  have hbyte : ∀ r k, bitmapByte t r k = bitmapByte s r k := fun r k => by
    unfold bitmapByte bitmapStride
    rw [hread, hargl, hwidth, hoffset]
  refine ⟨hwidth, by unfold bitmapHeight; rw [hread, hargl], funext fun r => funext fun c => ?_⟩
  unfold bitmapNibble
  rw [hbyte]

/-- Whether a blit is accepted depends on `ARGL` and `RES` only. -/
theorem blitAccepted_congr {s t : State} (hargl : t.argl = s.argl) (hres : t.res = s.res) (x y : Nat) :
    BlitAccepted t x y ↔ BlitAccepted s x y := by
  obtain ⟨hwidth, hheight, -⟩ := bitmap_congr hargl hres
  unfold BlitAccepted
  rw [hwidth, hheight]

/-- A blit not accepted only ends. -/
theorem execBlit_notAccepted {s : State} {x y : Nat} (t : Nat) (h : ¬ BlitAccepted s x y) :
    execBlit x y t s = .next (finish s) := by
  rw [← blitAccept_iff, Bool.not_eq_true] at h
  exact execBlit_rejected h

/-- An accepted blit again: it reads the same bitmap, so that every covered pixel already has its value, and the `OOR`
of a row below the screen is already recorded. -/
theorem execBlit_again {s u : State} {x y t : Nat} (h : BlitAccepted s x y) (hu : execBlit x y t s = .next u) :
    execBlit x y t u = .next u := by
  obtain ⟨u₁, h₁, hend₁, hsame₁, hfault₁, hpix₁⟩ := execBlit_spec t h
  obtain rfl : u₁ = u := by simpa [h₁] using hu
  obtain ⟨u₂, h₂, hend₂, hsame₂, hfault₂, hpix₂⟩ :=
    execBlit_spec t ((blitAccepted_congr hsame₁.argl hsame₁.res x y).mpr h)
  obtain ⟨hwidth, hheight, hnibble⟩ := bitmap_congr hsame₁.argl hsame₁.res
  rw [hwidth] at hfault₂ hpix₂
  rw [hheight, hnibble] at hpix₂
  have hfb : u₂.fb = u₁.fb := fb_ext_pix fun x' y' hx' hy' => by
    rw [hpix₂ x' y' hx' hy', hpix₁ x' y' hx' hy']
    split <;> rfl
  have hfault : u₂.fault = u₁.fault := by
    rw [hfault₂, hfault₁]
    split
    · exact raise_raise _ _
    · rfl
  rw [h₂, hsame₂.eq_of_ended hend₁ hend₂ hfb hfault]

/-- Settles O13, command by command: what the first left, the second finds and writes again. -/
theorem drawingIsIdempotent : Obligations.DrawingIsIdempotent := by
  unfold Obligations.DrawingIsIdempotent
  intro i s t hi h
  have pixel : ∀ x y v, finish (pixelWrite x y v (finish (pixelWrite x y v s))) = finish (pixelWrite x y v s) :=
    fun x y v => by rw [pixelWrite_finish, pixelWrite_pixelWrite, finish_finish]
  cases i <;> try contradiction
  case setpx x y =>
    obtain rfl := Host.Outcome.next.inj h
    exact congrArg Host.Outcome.next (pixel x y true)
  case clrpx x y =>
    obtain rfl := Host.Outcome.next.inj h
    exact congrArg Host.Outcome.next (pixel x y false)
  case qrypx x y =>
    change execQrypx x y s = .next t at h
    change execQrypx x y t = .next t
    unfold execQrypx at h ⊢
    obtain rfl := Host.Outcome.next.inj h
    split
    · rfl
    · rw [raiseFault_finish, raiseFault_raiseFault, finish_finish]
  case clrall =>
    change execClrall s = .next t at h
    rw [execClrall_eq] at h
    obtain rfl := Host.Outcome.next.inj h
    exact execClrall_eq _
  case blit x y thr =>
    by_cases ha : BlitAccepted s x y
    · exact execBlit_again ha h
    · change execBlit x y thr s = .next t at h
      rw [execBlit_notAccepted thr ha] at h
      obtain rfl := Host.Outcome.next.inj h
      exact execBlit_notAccepted (s := finish s) thr ha

/-! ### Repeating `SETCUR` (20_memory.md R60, 43_text.md R155) -/

/-- The working registers started afresh, as a piece of a command. -/
theorem sent_startAfresh (s : State) : Sent s (s.setSeq Seq.dead) 0 [] false where
  same := sameButTransport_setSeq Seq.dead s
  peri := (spendPolls_zero _).symm
  trace := by simp
  fault := (or_badcharBit_false _).symm
  dc := rfl
  line := rfl
  budget _ := by
    show 0 + s.peri.polls.length ≤ s.seq.toc + s.peri.polls.length
    omega

/-- A sending command that has ended without a `TIMEOUT` has sent all it had to send. -/
theorem transmit_ended (acts : List Act) (s : State) (hend : Ended (transmit acts s))
    (htime : (transmit acts s).fault.timeout = false) :
    ∃ n, Sent s (transmit acts s) n (acts.flatMap (Act.events s)) (acts.any (Act.bad s)) := by
  obtain ⟨hidle, -⟩ := hend
  have hsame := sameButTransport_setSeq Seq.dead s
  have hevents : Act.events (s.setSeq Seq.dead) = Act.events s := funext fun a => (Act.congr hsame a).2.1
  have hbad : Act.bad (s.setSeq Seq.dead) = Act.bad s := funext fun a => (Act.congr hsame a).2.2
  rcases runActs_spec acts (s.setSeq Seq.dead) with ⟨-, n, hsent⟩ | ⟨hbusy, -⟩ | ⟨-, -, htrue, -⟩
  · rw [hevents, hbad] at hsent
    exact ⟨_, (sent_startAfresh s).trans hsent⟩
  · exact absurd (hbusy.symm.trans hidle) (by decide)
  · exact absurd (htrue.symm.trans htime) (by decide)

/-- A sending command ends with everything sent on a ready transport, or on any other where it ends without a
`TIMEOUT`. -/
theorem transmit_sent {acts : List Act} {s : State}
    (h : AlwaysReady s ∨ (Ended (transmit acts s) ∧ (transmit acts s).fault.timeout = false)) :
    Ended (transmit acts s) ∧
      ∃ n, Sent s (transmit acts s) n (acts.flatMap (Act.events s)) (acts.any (Act.bad s)) := by
  rcases h with h | ⟨hend, htime⟩
  · obtain ⟨hbusy, hseq, hsent⟩ := transmit_ready acts s h
    exact ⟨⟨hbusy, hseq⟩, _, hsent⟩
  · exact ⟨hend, transmit_ended acts s hend htime⟩

theorem setCur_eq_self {s : State} {c : Cursor} (h : s.cur = c) : s.setCur c = s := by
  subst h
  rfl

/-- No command clears `TIMEOUT`, so that a later state without it says it was not recorded before. -/
theorem timeout_of_exec {i : Instr} {s t : State} (h : exec i s = .next t) (ht : t.fault.timeout = false) :
    s.fault.timeout = false := by
  obtain ⟨g, hg⟩ := (oblivious_exec i).faultsGrow h
  rw [hg] at ht
  exact (Bool.or_eq_false_iff.mp ht).1

theorem execSetcur_inGrid {col row : Nat} (h : cellInGrid col row = true) (s : State) :
    execSetcur col row s =
      .next (transmit (setAddressActs s.params col row) (s.setCur ⟨BitVec.ofNat 4 col, BitVec.ofNat 3 row⟩)) :=
  if_pos h

theorem execSetcur_offGrid {col row : Nat} (h : ¬ cellInGrid col row = true) (s : State) :
    execSetcur col row s = .next (finish s) :=
  if_neg h

/-- `SETCUR` in the grid places the cursor, then sends the two address bytes, where it ends without a `TIMEOUT`. -/
theorem execSetcur_sent {s t : State} {col row : Nat} (hg : cellInGrid col row = true)
    (h : execSetcur col row s = .next t) (hready : AlwaysReady s ∨ (Ended t ∧ t.fault.timeout = false)) :
    Ended t ∧ ∃ n, Sent (s.setCur ⟨BitVec.ofNat 4 col, BitVec.ofNat 3 row⟩) t n
      [.C (setColumnByte s.params col), .C (setRowByte s.params row)] false := by
  rw [execSetcur_inGrid hg] at h
  obtain rfl := Host.Outcome.next.inj h
  exact transmit_sent hready

/-- Settles O14: outside the grid nothing happens twice; in it the second run sends the two address bytes from where the
first ended, with the cursor already placed and `DC` already at "command". -/
theorem setcurIsIdempotent : Obligations.SetcurIsIdempotent := by
  unfold Obligations.SetcurIsIdempotent
  intro s t u col row ht hu hready
  have htime : u.fault.timeout = false → t.fault.timeout = false := timeout_of_exec hu
  change execSetcur col row s = .next t at ht
  change execSetcur col row t = .next u at hu
  by_cases hg : cellInGrid col row = true
  · obtain ⟨hendt, m, hfirst⟩ := execSetcur_sent hg ht (hready.imp id fun ⟨hend, _, hno⟩ => ⟨hend, htime hno⟩)
    obtain ⟨hendu, n, hsecond⟩ := execSetcur_sent hg hu (hready.imp hfirst.ready fun ⟨_, hend, hno⟩ => ⟨hend, hno⟩)
    have hcur : t.setCur ⟨BitVec.ofNat 4 col, BitVec.ofNat 3 row⟩ = t := setCur_eq_self hfirst.same.cur
    have hparams : t.params = s.params := hfirst.same.params
    rw [hcur, hparams] at hsecond
    have hdc : u.dc = t.dc := hsecond.dc.trans hfirst.dc.symm
    exact ⟨hendt, hendu, hsecond.same, hsecond.fault.trans (or_badcharBit_false _), hdc, hsecond.line,
      _, hfirst.trace, hsecond.trace⟩
  · rw [execSetcur_offGrid hg] at ht hu
    obtain rfl := Host.Outcome.next.inj ht
    obtain rfl := Host.Outcome.next.inj hu
    exact ⟨⟨rfl, rfl⟩, ⟨rfl, rfl⟩, .refl _, rfl, rfl, rfl, [], (List.append_nil _).symm, (List.append_nil _).symm⟩

/-! ### Accesses outside the definition (20_memory.md R58, R59) -/

/-- An issue of a command is an access the window answers; no other host access is held. -/
theorem nextInput_badAccess {s : State} {off width : Nat} {v : Word} {rest : List Input}
    (hin : s.inputs = .read off width :: rest ∨ s.inputs = .write off width v :: rest)
    (hbad : ¬ (off < 32 ∧ width = 4 ∧ off % 4 = 0)) :
    nextInput s = some (.read off width, rest) ∨ nextInput s = some (.write off width v, rest) := by
  rcases hin with hin | hin
  · exact .inl (nextInput_head hin (holds_of_notIssue s rfl))
  · refine .inr (nextInput_head hin (holds_of_notIssue s ?_))
    unfold Input.isIssue
    rw [Bool.and_eq_false_iff, beq_eq_false_iff_ne, beq_eq_false_iff_ne]
    omega

/-- Settles O53: such an access is not held, and taking it stops. -/
theorem undefinedAccessesStop : Obligations.UndefinedAccessesStop := by
  unfold Obligations.UndefinedAccessesStop
  intro s off width v rest hin
  refine ⟨fun hoff => ?_, fun hoff hnarrow => ?_⟩
  · have hbad : ¬ (off < 32 ∧ width = 4 ∧ off % 4 = 0) := by omega
    rw [step_badAccess (nextInput_badAccess hin hbad) hbad, if_pos hoff]
  · have hbad : ¬ (off < 32 ∧ width = 4 ∧ off % 4 = 0) := by omega
    rw [step_badAccess (nextInput_badAccess hin hbad) hbad, if_neg (by omega)]

/-! ### The platform's byte (20_memory.md R53, R55) -/

/-- A byte placed in `RES`, as the block reads it. -/
theorem resRead_setRes_write {s : State} (hwf : Memory.wf s.res) (a : Word) (b : Byte) (a' : Word) :
    resRead (s.setRes (Memory.write s.res a.toNat b)) a' = if a' = a then b else resRead s a' := by
  unfold resRead
  rw [State.res_setRes, Memory.read_write s.res hwf]
  simp only [← BitVec.toNat_inj, eq_comm]

/-- Settles O54: the step is the canonical memory's write, and both steps of a command read through `resRead`. -/
theorem placedByteIsRead : Obligations.PlacedByteIsRead := by
  unfold Obligations.PlacedByteIsRead
  intro s a b q hnext hwf
  have hread := resRead_setRes_write (s := s.setInputs q) hwf a b
  have hnew := (hread a).trans (if_pos rfl)
  refine ⟨_, _, step_fillRes hnext, rfl, Memory.write_wf s.res hwf a.toNat a.isLt b, hnew,
    fun a' hne => (hread a').trans (if_neg hne), ?_, fun inverted => ?_⟩
  · exact congrArg (emitData (.resByte a) · _) hnew
  · exact congrArg (putChar inverted ·.toNat _) hnew

/-! ### Resource addresses (20_memory.md R54) -/

theorem resAddr_toNat (base : Word) (off : Nat) : (resAddr base off).toNat = (base.toNat + off) % 2 ^ 32 := by
  unfold resAddr
  rw [BitVec.toNat_add, BitVec.toNat_ofNat, Nat.add_mod_mod]

theorem resRead_resAddr (s : State) (base : Word) (off : Nat) :
    resRead s (resAddr base off) = Memory.read s.res ((base.toNat + off) % 2 ^ 32) := by
  unfold resRead
  rw [resAddr_toNat]

/-- Settles O60: both are reads at a sum of `resAddr`. -/
theorem resourceAddressesWrap : Obligations.ResourceAddressesWrap := by
  unfold Obligations.ResourceAddressesWrap
  exact ⟨resAddr_toNat, fun s j => congrArg BitVec.toNat (resRead_resAddr s s.argl j),
    fun s r k => resRead_resAddr s s.argl (bitmapOffset s + r * bitmapStride s + k)⟩

end Sys2Proof.Machine
end

section
/-! PROOFS. The encoding (30_encoding.md): a word and its fields, what the decoder does with one command's opcode, the
rows of the opcode map as commands, the round trip, and a reserved word that is accepted. -/

namespace Sys2Proof

/-! ### A word and its fields (R81) -/

theorem toNat_eq_bytes (w : Word) :
    w.toNat = opcField w * 2 ^ 24 + f2Field w * 2 ^ 16 + f1Field w * 2 ^ 8 + f0Field w := by
  unfold opcField f2Field f1Field f0Field
  simp only [BitVec.extractLsb'_toNat, Nat.shiftRight_eq_div_pow]
  omega

theorem toNat_eq_half (w : Word) : w.toNat = opcField w * 2 ^ 24 + f2Field w * 2 ^ 16 + n16Field w := by
  unfold opcField f2Field n16Field
  simp only [BitVec.extractLsb'_toNat, Nat.shiftRight_eq_div_pow]
  omega

theorem opcField_eq_shift (w : Word) : opcField w = (w >>> 24).toNat := by
  unfold opcField
  rw [BitVec.extractLsb'_toNat, BitVec.toNat_ushiftRight, Nat.shiftRight_eq_div_pow]
  omega

theorem opcField_lt (w : Word) : opcField w < 256 := (w.extractLsb' 24 8).isLt

theorem f2Field_lt (w : Word) : f2Field w < 256 := (w.extractLsb' 16 8).isLt

theorem f1Field_lt (w : Word) : f1Field w < 256 := (w.extractLsb' 8 8).isLt

theorem f0Field_lt (w : Word) : f0Field w < 256 := (w.extractLsb' 0 8).isLt

theorem n16Field_lt (w : Word) : n16Field w < 65536 := (w.extractLsb' 0 16).isLt

/-- The four byte fields determine the word. -/
theorem wordOfBytes_of_fields {w : Word} {o a b c : Nat} (hopc : opcField w = o) (h2 : f2Field w = a)
    (h1 : f1Field w = b) (h0 : f0Field w = c) : wordOfBytes o a b c = w := by
  subst hopc h2 h1 h0
  rw [← BitVec.toNat_inj, toNat_eq_bytes, toNat_eq_bytes w]
  simp only [opcField_wordOfBytes, f2Field_wordOfBytes, f1Field_wordOfBytes, f0Field_wordOfBytes,
    Nat.mod_eq_of_lt, opcField_lt, f2Field_lt, f1Field_lt, f0Field_lt]

/-- So do the opcode and the lower half when the byte between them is zero. -/
theorem wordOfHalf_of_fields {w : Word} {o : Nat} (hopc : opcField w = o) (h2 : f2Field w = 0) :
    wordOfHalf o (n16Field w) = w := by
  subst hopc
  rw [← BitVec.toNat_inj, toNat_eq_half, toNat_eq_half w, h2]
  simp only [opcField_wordOfHalf, f2Field_wordOfHalf, n16Field_wordOfHalf, Nat.mod_eq_of_lt, opcField_lt, n16Field_lt]

/-! ### The decoder, one opcode at a time (R82, R84, R87) -/

/-- The must-be-zero field of a format, as the decoder reads it. -/
def Format.mbz : Format → Word → Nat
  | .N, w => (w.extractLsb' 0 24).toNat
  | .B, w => (w.extractLsb' 8 16).toNat
  | .XY, w => f2Field w
  | .H, w => f2Field w
  | .XYT, _ => 0

theorem Format.mbz_N (w : Word) : Format.N.mbz w = f2Field w * 2 ^ 16 + f1Field w * 2 ^ 8 + f0Field w := by
  unfold mbz f2Field f1Field f0Field
  simp only [BitVec.extractLsb'_toNat, Nat.shiftRight_eq_div_pow]
  omega

theorem Format.mbz_B (w : Word) : Format.B.mbz w = f2Field w * 2 ^ 8 + f1Field w := by
  unfold mbz f2Field f1Field
  simp only [BitVec.extractLsb'_toNat, Nat.shiftRight_eq_div_pow]
  omega

/-- The same command with its operands read from the fields of a word. -/
def Instr.withOperands : Instr → Word → Instr
  | .wrcmd _, w => .wrcmd (f0Field w)
  | .wrdat _, w => .wrdat (f0Field w)
  | .setpx _ _, w => .setpx (f1Field w) (f0Field w)
  | .clrpx _ _, w => .clrpx (f1Field w) (f0Field w)
  | .qrypx _ _, w => .qrypx (f1Field w) (f0Field w)
  | .clrall, _ => .clrall
  | .blit _ _ _, w => .blit (f2Field w) (f1Field w) (f0Field w)
  | .putc _, w => .putc (f0Field w)
  | .puts _, w => .puts (n16Field w)
  | .putud _, w => .putud (n16Field w)
  | .putd _, w => .putd (n16Field w)
  | .setcur _ _, w => .setcur (f1Field w) (f0Field w)
  | .putci _, w => .putci (f0Field w)
  | .putsi _, w => .putsi (n16Field w)
  | .init, _ => .init
  | .flush, _ => .flush
  | .fullimg, _ => .fullimg

@[simp] theorem Instr.opcode_withOperands (i : Instr) (w : Word) : (i.withOperands w).opcode = i.opcode := by
  cases i <;> rfl

@[simp] theorem Instr.format_withOperands (i : Instr) (w : Word) : (i.withOperands w).format = i.format := by
  cases i <;> rfl

@[simp] theorem Instr.withOperands_withOperands (i : Instr) (w : Word) :
    (i.withOperands w).withOperands w = i.withOperands w := by
  cases i <;> rfl

/-- Every field of a word is in range. -/
theorem Instr.wf_withOperands (i : Instr) (w : Word) : (i.withOperands w).wf = true := by
  cases i <;> simp [withOperands, wf, isByteOperand, isHalfOperand, f2Field_lt, f1Field_lt, f0Field_lt, n16Field_lt]

/-- A command's operands in range survive in its word. -/
theorem Instr.withOperands_encode {i : Instr} (h : i.wf = true) : i.withOperands (encode i) = i := by
  cases i <;> simp [wf, isByteOperand, isHalfOperand] at h <;> simp [withOperands, encode, Nat.mod_eq_of_lt, h]

/-- A word with a command's opcode and its format's zero bits is the word of the command it holds. -/
theorem encode_withOperands {w : Word} {i : Instr} (hopc : opcField w = i.opcode) (hmbz : i.format.mbz w = 0) :
    encode (i.withOperands w) = w := by
  cases i with
  | clrall | init | flush | fullimg =>
    have hsum := (Format.mbz_N w).symm.trans hmbz
    exact wordOfBytes_of_fields hopc (by omega) (by omega) (by omega)
  | wrcmd | wrdat | putc | putci =>
    have hsum := (Format.mbz_B w).symm.trans hmbz
    exact wordOfBytes_of_fields hopc (by omega) (by omega) rfl
  | setpx | clrpx | qrypx | setcur => exact wordOfBytes_of_fields hopc hmbz rfl rfl
  | puts | putud | putd | putsi => exact wordOfHalf_of_fields hopc hmbz
  | blit => exact wordOfBytes_of_fields hopc rfl rfl rfl

/-- The decoder at a command's opcode. -/
theorem decode_of_opcField {w : Word} {i : Instr} (h : opcField w = i.opcode) :
    decode w = whenZero (i.format.mbz w) (i.withOperands w) := by
  unfold decode
  rw [h]
  cases i <;> rfl

/-- The decoder at any other opcode. -/
theorem decode_of_unknown {w : Word} (h : ∀ row ∈ opcodeMap, opcField w ≠ row.opcode) :
    decode w = .reserved .unknownOpcode := by
  have hnot : opcField w ∉ opcodeMap.map OpcodeRow.opcode := fun hmem => by
    obtain ⟨row, hrow, hopc⟩ := List.mem_map.mp hmem
    exact h row hrow hopc.symm
  unfold decode
  split
  case h_18 => rfl
  all_goals
    rename_i hopc
    rw [hopc] at hnot
    exact absurd (by decide) hnot

theorem whenZero_eq_command_iff {n : Nat} {i j : Instr} : whenZero n i = .command j ↔ n = 0 ∧ i = j := by
  unfold whenZero
  split <;> simp [*]

theorem whenZero_eq_nonzeroMbz_iff {n : Nat} {i : Instr} : whenZero n i = .reserved .nonzeroMbz ↔ n ≠ 0 := by
  unfold whenZero
  split <;> simp [*]

theorem whenZero_ne_unknownOpcode (n : Nat) (i : Instr) : whenZero n i ≠ .reserved .unknownOpcode := by
  unfold whenZero
  split <;> simp

/-! ### The rows of the opcode map (R86) -/

/-- The mask of a format: the opcode and the must-be-zero bits. -/
def Format.mask : Format → Word
  | .N => 0xFFFFFFFF
  | .B => 0xFFFFFF00
  | .XY => 0xFFFF0000
  | .H => 0xFFFF0000
  | .XYT => 0xFF000000

/-- The row of a command. -/
def Instr.row (i : Instr) : OpcodeRow := ⟨i.opcode, wordOfBytes i.opcode 0 0 0, i.format.mask⟩

/-- The match of a row is itself a word of the row's command. -/
theorem row_of_pattern : ∀ row ∈ opcodeMap, (decodeTableWord 32 row.pattern.toNat).map Instr.row = some row := by
  decide

theorem exists_row_eq {row : OpcodeRow} (h : row ∈ opcodeMap) : ∃ i : Instr, i.row = row := by
  obtain ⟨i, -, hi⟩ := Option.map_eq_some_iff.mp (row_of_pattern row h)
  exact ⟨i, hi⟩

/-- A field is zero exactly when the mask of its bits says so. -/
theorem and_eq_zero_iff_extract {lo n : Nat} {m : Word} (w : Word) (hlo : lo + n ≤ 32)
    (hm : ∀ k < 32, m.getLsbD k = decide (lo ≤ k ∧ k < lo + n)) :
    w &&& m = 0 ↔ (w.extractLsb' lo n).toNat = 0 := by
  rw [← BitVec.toNat_zero (w := n), BitVec.toNat_inj]
  constructor <;> intro h <;> apply BitVec.eq_of_getLsbD_eq <;> intro k hk
  · have hbit : (w &&& m).getLsbD (lo + k) = false := by rw [h]; exact BitVec.getLsbD_zero
    rw [BitVec.getLsbD_and, hm _ (by omega), decide_eq_true (by omega), Bool.and_true] at hbit
    rw [BitVec.getLsbD_extractLsb', hbit, Bool.and_false, BitVec.getLsbD_zero]
  · rw [BitVec.getLsbD_and, hm k hk]
    by_cases hin : lo ≤ k ∧ k < lo + n
    · have hbit : (w.extractLsb' lo n).getLsbD (k - lo) = false := by rw [h]; exact BitVec.getLsbD_zero
      rw [BitVec.getLsbD_extractLsb', decide_eq_true (by omega), Bool.true_and, Nat.add_sub_cancel' hin.1] at hbit
      rw [hbit]
      exact BitVec.getLsbD_zero.symm
    · rw [decide_eq_false hin, Bool.and_false]
      exact BitVec.getLsbD_zero.symm

/-- Below the opcode, a format's mask selects its must-be-zero field. -/
theorem and_mask_low_eq_zero_iff (f : Format) (w : Word) : w &&& f.mask &&& 0x00FFFFFF = 0 ↔ f.mbz w = 0 := by
  rw [BitVec.and_assoc]
  cases f with
  | XYT => exact iff_of_true BitVec.and_zero rfl
  | N | B | XY | H => exact and_eq_zero_iff_extract w (by decide) (by decide)

/-- Every mask keeps the opcode. -/
theorem opcField_and_mask (f : Format) (w : Word) : opcField (w &&& f.mask) = opcField w := by
  unfold opcField
  rw [BitVec.extractLsb'_and, show f.mask.extractLsb' 24 8 = BitVec.allOnes 8 by cases f <;> rfl, BitVec.and_allOnes]

/-- A word is an opcode and nothing below it. -/
theorem eq_wordOfBytes_opc_iff {w : Word} {o : Nat} (h : o < 256) :
    w = wordOfBytes o 0 0 0 ↔ opcField w = o ∧ w &&& 0x00FFFFFF = 0 := by
  have hlow : w &&& 0x00FFFFFF = 0 ↔ Format.N.mbz w = 0 := and_eq_zero_iff_extract w (by decide) (by decide)
  rw [hlow]
  constructor
  · rintro rfl
    rw [opcField_wordOfBytes, Nat.mod_eq_of_lt h, Format.mbz_N]
    simp
  · rintro ⟨hopc, hmbz⟩
    rw [Format.mbz_N] at hmbz
    exact (wordOfBytes_of_fields hopc (by omega) (by omega) (by omega)).symm

theorem Instr.opcode_lt (i : Instr) : i.opcode < 256 := by
  cases i <;> simp [opcode]

/-- A word lies in a command's row exactly when it has its opcode and its format's zero bits. -/
theorem and_mask_eq_pattern_iff (i : Instr) (w : Word) :
    w &&& i.row.mask = i.row.pattern ↔ opcField w = i.opcode ∧ i.format.mbz w = 0 := by
  show w &&& i.format.mask = wordOfBytes i.opcode 0 0 0 ↔ _
  rw [eq_wordOfBytes_opc_iff i.opcode_lt, opcField_and_mask, and_mask_low_eq_zero_iff]

/-- The word of a command lies in the row of its opcode. -/
theorem encode_matches (i : Instr) : Laws.EncodeRow.Statement i :=
  match i with
  | .wrcmd b => Laws.EncodeRow.wrcmd b
  | .wrdat b => Laws.EncodeRow.wrdat b
  | .setpx x y => Laws.EncodeRow.setpx x y
  | .clrpx x y => Laws.EncodeRow.clrpx x y
  | .qrypx x y => Laws.EncodeRow.qrypx x y
  | .clrall => Laws.EncodeRow.clrall
  | .blit x y t => Laws.EncodeRow.blit x y t
  | .putc c => Laws.EncodeRow.putc c
  | .puts n => Laws.EncodeRow.puts n
  | .putud n => Laws.EncodeRow.putud n
  | .putd n => Laws.EncodeRow.putd n
  | .setcur col row => Laws.EncodeRow.setcur col row
  | .putci c => Laws.EncodeRow.putci c
  | .putsi n => Laws.EncodeRow.putsi n
  | .init => Laws.EncodeRow.init
  | .flush => Laws.EncodeRow.flush
  | .fullimg => Laws.EncodeRow.fullimg

/-! ### What the decoder answers (R84, R88) -/

/-- A word has the opcode of a row's command, or its opcode is unknown. -/
theorem command_or_unknown (w : Word) :
    (∃ i : Instr, i.row ∈ opcodeMap ∧ opcField w = i.opcode) ∨ decode w = .reserved .unknownOpcode := by
  by_cases h : ∃ row ∈ opcodeMap, opcField w = row.opcode
  · obtain ⟨row, hrow, hopc⟩ := h
    obtain ⟨i, rfl⟩ := exists_row_eq hrow
    exact .inl ⟨i, hrow, hopc⟩
  · push Not at h
    exact .inr (decode_of_unknown h)

/-- What a word that decodes to a command holds. -/
theorem fields_of_decode {w : Word} {i : Instr} (h : decode w = .command i) :
    opcField w = i.opcode ∧ i.format.mbz w = 0 ∧ i.withOperands w = i := by
  rcases command_or_unknown w with ⟨j, -, hopc⟩ | hunknown
  · rw [decode_of_opcField hopc, whenZero_eq_command_iff] at h
    obtain ⟨hmbz, rfl⟩ := h
    exact ⟨by simpa using hopc, by simpa using hmbz, j.withOperands_withOperands w⟩
  · rw [hunknown] at h
    contradiction

/-- Settles O3: the row is a command's, and the match says that command's opcode and zero bits. -/
theorem opcodeMapDecides : Obligations.OpcodeMapDecides := by
  unfold Obligations.OpcodeMapDecides
  intro row hrow w
  obtain ⟨i, rfl⟩ := exists_row_eq hrow
  rw [and_mask_eq_pattern_iff]
  constructor
  · rintro ⟨j, hj, hsame⟩
    have hopc : opcField w = i.opcode := (fields_of_decode hj).1.trans hsame
    rw [decode_of_opcField hopc, whenZero_eq_command_iff] at hj
    exact ⟨hopc, hj.1⟩
  · rintro ⟨hopc, hmbz⟩
    exact ⟨i.withOperands w, (decode_of_opcField hopc).trans (whenZero_eq_command_iff.mpr ⟨hmbz, rfl⟩),
      i.opcode_withOperands w⟩

/-- Settles O1: the command's word matches its row, so it decodes to a command of that opcode (O3), whose operands are
the ones encoded. -/
theorem decodeOfEncode : Obligations.DecodeOfEncode := by
  unfold Obligations.DecodeOfEncode
  intro i hwf
  obtain ⟨row, hrow, hrowOpc, hmatch⟩ := encode_matches i
  obtain ⟨j, hj, hsame⟩ := (opcodeMapDecides row hrow (encode i)).mpr hmatch
  have hopc : opcField (encode i) = i.opcode := (fields_of_decode hj).1.trans (hsame.trans hrowOpc)
  have hanswer := decode_of_opcField hopc
  rw [Instr.withOperands_encode hwf] at hanswer
  have hmbz := (whenZero_eq_command_iff.mp (hanswer.symm.trans hj)).1
  exact hanswer.trans (whenZero_eq_command_iff.mpr ⟨hmbz, rfl⟩)

/-- Settles O2: the command is its opcode with operands read from the word. -/
theorem encodeOfDecode : Obligations.EncodeOfDecode := by
  unfold Obligations.EncodeOfDecode
  intro w i h
  obtain ⟨hopc, hmbz, hread⟩ := fields_of_decode h
  rw [← hread]
  exact ⟨i.wf_withOperands w, encode_withOperands hopc hmbz⟩

/-- Settles O4: at a row's opcode the decoder only tests the zero bits, which the row's mask selects. -/
theorem reservedWordsAreNoCommand : Obligations.ReservedWordsAreNoCommand := by
  unfold Obligations.ReservedWordsAreNoCommand
  intro w
  rw [← opcField_eq_shift]
  refine ⟨⟨fun h row hrow hopc => ?_, decode_of_unknown⟩, fun h => ?_, ?_⟩
  · obtain ⟨i, rfl⟩ := exists_row_eq hrow
    exact whenZero_ne_unknownOpcode _ _ ((decode_of_opcField hopc).symm.trans h)
  · rcases command_or_unknown w with ⟨i, hrow, hopc⟩ | hunknown
    · rw [decode_of_opcField hopc, whenZero_eq_nonzeroMbz_iff] at h
      exact ⟨i.row, hrow, hopc, mt (and_mask_low_eq_zero_iff i.format w).mp h⟩
    · rw [hunknown] at h
      contradiction
  · rintro ⟨row, hrow, hopc, hbits⟩
    obtain ⟨i, rfl⟩ := exists_row_eq hrow
    rw [decode_of_opcField hopc, whenZero_eq_nonzeroMbz_iff]
    exact mt (and_mask_low_eq_zero_iff i.format w).mpr hbits

/-- Settles O5: twenty fixed words, each decoded by evaluation. -/
theorem specWordsDecode : Obligations.SpecWordsDecode := by
  unfold Obligations.SpecWordsDecode
  decide

end Sys2Proof

namespace Sys2Proof.Machine

/-- Settles O7: the step is `endReserved` of the accepted state. -/
theorem reservedWordOnlyRaisesBadcmd : Obligations.ReservedWordOnlyRaisesBadcmd := by
  unfold Obligations.ReservedWordOnlyRaisesBadcmd
  intro s w rest why hb hr hin hd
  refine ⟨endReserved (accept w (s.setInputs rest)), ?_, ?_⟩
  · rw [step_issue (nextInput_issue hb hr hin), hd]
  · simp [endReserved, Ended, FaultBits.raise]

end Sys2Proof.Machine
end

section
/-! PROOFS. The transport (40_transport.md): the select line at each step of the machine, one poll of the running
command, what waiting costs, and the two commands that send one byte. -/

namespace Sys2Proof.Machine

/-! ### The select line (R116) -/

/-- `SelectBetween` is a matter of `TIMEOUT` and of the three fields of the select line. -/
theorem SelectBetween.of_timeout {s t : State} (h : SelectBetween s) (hf : t.fault.timeout = s.fault.timeout)
    (hd : t.dc = s.dc) (hs : t.dcSafe = s.dcSafe) (hq : t.quiet = s.quiet) : SelectBetween t := by
  unfold SelectBetween
  rw [hf, hd, hs, hq]
  exact h

/-- `SelectLineSound` is a matter of six fields. -/
theorem SelectLineSound.congr {s t : State} (h : SelectLineSound s) (hf : t.fault = s.fault) (hd : t.dc = s.dc)
    (hs : t.dcSafe = s.dcSafe) (hq : t.quiet = s.quiet) (hb : t.busy = s.busy) (hw : t.seq = s.seq) :
    SelectLineSound t := by
  unfold SelectLineSound
  rw [hf, hd, hs, hq, hb, hw]
  exact h

/-- What a running command has still to do starts with the drain where something may be in flight. -/
theorem SelectLineSound.before {s : State} (h : SelectLineSound s) : SelectBefore s.seq.work s := fun ht =>
  ⟨(h ht).1, fun hd => ((h ht).2 hd).imp_right And.right⟩

/-- Where no drain is to come, `DC` at "command" means nothing in flight. -/
theorem SelectLineSound.between {s : State} (h : SelectLineSound s)
    (hn : ¬ (s.busy = true ∧ s.seq.work.head? = some .drain)) : SelectBetween s := fun ht =>
  ⟨(h ht).1, fun hd => ((h ht).2 hd).resolve_right hn⟩

theorem SelectLineSound.resume {s : State} (h : SelectLineSound s) : SelectLineSound (resume s) := by
  cases hb : s.busy with
  | true =>
    rw [resume_busy hb]
    exact runActs_select h.before fun hw => h.between fun hdrain => by simp [hw] at hdrain
  | false =>
    rw [resume_idle hb]
    exact h

theorem selectLineSound_resetBlock (s : State) : SelectLineSound (resetBlock s) := fun _ =>
  ⟨resetBlock_dcSafe s, fun _ => .inl (resetBlock_quiet s)⟩

/-- The end of a command leaves the select line alone. -/
theorem SelectBetween.sound_finish {s : State} (h : SelectBetween s) : SelectLineSound (finish s) :=
  (h.of_timeout (t := finish s) rfl rfl rfl rfl).sound

/-- A command that draws leaves the select line alone; one that sends starts between two steps. -/
theorem SelectBetween.sound_exec {s t : State} (h : SelectBetween s) {i : Instr} (he : exec i s = .next t) :
    SelectLineSound t := by
  cases hi : sendsNothing i with
  | true =>
    obtain ⟨u, hu, hd, -⟩ := exec_drawing hi s
    obtain rfl : finish u = t := by simpa [hu] using he
    exact (h.of_timeout hd.timeout hd.dc hd.dcSafe hd.quiet).sound_finish
  | false =>
    obtain ⟨acts, q, c, hrun, -⟩ := exec_sending hi s
    obtain rfl : runActs acts ((s.setCur c).setSeq q) = t := by simpa [hrun s rfl rfl rfl rfl] using he
    have hs : SelectBetween ((s.setCur c).setSeq q) := h.of_timeout rfl rfl rfl rfl
    exact runActs_select (hs.before acts) fun _ => hs

theorem SelectBetween.sound_endReserved {s : State} (h : SelectBetween s) : SelectLineSound (endReserved s) :=
  (h.of_timeout (t := raiseFault .badcmd s) rfl rfl rfl rfl).sound_finish

theorem step_selectLineSound {s t : State} (h : SelectLineSound s) (hstep : step s = .next t) : SelectLineSound t := by
  rcases step_cases hstep with ⟨q, -, rfl⟩ | ⟨q, -, rfl⟩ | ⟨q, -, rfl⟩ | ⟨a, b, q, -, rfl⟩ | ⟨off, q, -, -, -, rfl⟩ |
    ⟨off, v, q, -, -, -, -, rfl⟩ | ⟨w, q, -, hidle, -, hword⟩
  · exact (h.congr (t := s.setInputs q) rfl rfl rfl rfl rfl rfl).resume
  · exact selectLineSound_resetBlock _
  · exact h.congr rfl rfl rfl rfl rfl rfl
  · exact h.congr rfl rfl rfl rfl rfl rfl
  · exact h.congr rfl rfl rfl rfl rfl rfl
  · rw [regWrite_eq]
    split <;> exact h.congr rfl rfl rfl rfl rfl rfl
  · have hbetween : SelectBetween s := h.between fun hdrain => by simp [hidle] at hdrain
    have haccept : SelectBetween (accept w (s.setInputs q)) := hbetween.of_timeout rfl rfl rfl rfl
    rcases hword with ⟨i, -, hexec⟩ | ⟨why, -, rfl⟩
    · exact haccept.sound_exec hexec
    · exact haccept.sound_endReserved

/-- Settles O26, by cases on what a step can be: a run of steps keeps the select line, an accepted word finds no drain
pending, and no other input but the reset touches it. -/
theorem selectLineChangesOnlyWhenQuiet : Obligations.SelectLineChangesOnlyWhenQuiet := by
  unfold Obligations.SelectLineChangesOnlyWhenQuiet
  exact ⟨fun s t => step_selectLineSound, fun _ => ⟨rfl, fun _ => .inl rfl⟩⟩

/-! ### One poll of the running command (R112, R115) -/

/-- A busy block that has no input to take goes on with what is left to do. -/
theorem step_busy_nil {s : State} (hb : s.busy = true) (hin : s.inputs = []) :
    step s = .next (runActs s.seq.work s) := by
  rw [step_none (nextInput_nil hin), resume_busy hb]

/-- A command whose awaited level is absent keeps all its steps, or `TIMEOUT` ends it. -/
theorem runActs_notMet {work : List Act} {c : Cond} {s : State} (hc : waitsFor work = some c)
    (h : c.holds (nextLevel s) = false) :
    runActs work s = if outOfPolls s then finish (raiseFault .timeout (polled s))
      else suspend work (setToc (s.seq.toc + 1) (polled s)) := by
  cases work with
  | nil => contradiction
  | cons a rest =>
    rw [runActs, doAct_notMet hc h]
    cases ho : outOfPolls s with
    | true => rw [wait_gaveUp h ho]; rfl
    | false => rw [wait_again h ho]; rfl

theorem outOfPolls_iff (s : State) : outOfPolls s = true ↔ ∃ n, s.params.txTimeout = some n ∧ n ≤ s.seq.toc := by
  unfold outOfPolls
  cases s.params.txTimeout <;> simp

/-- Settles O23: the command ends in `runActs_notMet`'s first case. -/
theorem timeoutEndsTheCommand : Obligations.TimeoutEndsTheCommand := by
  unfold Obligations.TimeoutEndsTheCommand
  intro s c n hb hin hc h htx hn
  have ho : outOfPolls s = true := (outOfPolls_iff s).mpr ⟨n, htx, hn⟩
  refine ⟨finish (raiseFault .timeout (polled s)), ?_, ⟨rfl, rfl⟩, rfl, rfl, rfl, rfl, polled_peri s, rfl, rfl, ?_⟩
  · rw [step_busy_nil hb hin, runActs_notMet hc h, if_pos ho]
  · constructor <;> rfl

/-- Settles O24: the command is suspended in `runActs_notMet`'s second case. -/
theorem unmetWaitCountsPolls : Obligations.UnmetWaitCountsPolls := by
  unfold Obligations.UnmetWaitCountsPolls
  intro s c hb hin hc h htx
  have ho : ¬ outOfPolls s = true := fun ho => by
    obtain ⟨n, hn, hle⟩ := (outOfPolls_iff s).mp ho
    exact absurd hle (Nat.not_le.mpr (htx n hn))
  refine ⟨suspend s.seq.work (setToc (s.seq.toc + 1) (polled s)), ?_, rfl, rfl, rfl, rfl, rfl, rfl, rfl, rfl,
    polled_peri s, rfl, rfl, ?_⟩
  · rw [step_busy_nil hb hin, runActs_notMet hc h, if_neg ho]
  · constructor <;> rfl

/-! ### Waiting (R112, 70_reset_and_hazards.md R215) -/

theorem Act.events_congr {s t : State} (h : SameButTransport s t) : Act.events t = Act.events s :=
  funext fun a => (Act.congr h a).2.1

theorem Act.bad_congr {s t : State} (h : SameButTransport s t) : Act.bad t = Act.bad s :=
  funext fun a => (Act.congr h a).2.2

/-- Where the steady level is ready, a timeout that the polls still listed cannot reach is out of reach. -/
theorem not_canTimeOut {s : State} (hs : s.peri.steady = ⟨true, false⟩)
    (h : ∀ n, s.params.txTimeout = some n → s.seq.toc + s.peri.polls.length ≤ n) : ¬ CanTimeOut s := by
  rintro ⟨n, htx, hn⟩
  exact absurd (h n htx) (Nat.not_le.mpr (hn hs))

/-- A running command whose peripheral becomes ready in the end, the timeout out of reach, sends all it has to send: each
step that does not end it uses up an answer of the list. -/
theorem run_sends_work {s : State} (hb : s.busy = true) (hin : s.inputs = []) (hs : s.peri.steady = ⟨true, false⟩)
    (hreach : ¬ CanTimeOut s) :
    ∃ k t n, k ≤ s.peri.polls.length + 1 ∧ core.run k s = .next t ∧ Ended t ∧
      Sent s t n (s.seq.work.flatMap (Act.events s)) (s.seq.work.any (Act.bad s)) := by
  induction hlen : s.peri.polls.length using Nat.strong_induction_on generalizing s with
  | _ len ih =>
    have hstep := step_busy_nil hb hin
    rcases runActs_spec s.seq.work s with ⟨hend, n, hsent⟩ | ⟨hbusy, -, hshorter, m, ev, b, hsent, hev, hbad⟩ |
      ⟨-, -, -, hcan, -⟩
    · exact ⟨1, _, n, by omega, run_one hstep, hend, hsent⟩
    · have hless := hshorter hs
      obtain ⟨k, t, n, hk, hrun, hend, hrest⟩ := ih _ (hlen ▸ hless) hbusy (hsent.same.inputs.trans hin)
        (hsent.polls.2.trans hs) (fun hcan => hreach (hcan.of_sent hsent)) rfl
      rw [Act.events_congr hsent.same, Act.bad_congr hsent.same] at hrest
      refine ⟨k + 1, t, m + n, by omega, (run_succ k hstep).trans hrun, hend, ?_⟩
      rw [← hev, ← hbad]
      exact hsent.trans hrest
    · exact absurd hcan hreach

/-- Settles O27: with and without waiting the command sends the events of what it has still to do. -/
theorem stallsNeverChangeTheBytes : Obligations.StallsNeverChangeTheBytes := by
  unfold Obligations.StallsNeverChangeTheBytes
  intro s hb hin hs htx
  obtain ⟨k, t, m, hk, hrun, hendt, ht⟩ := run_sends_work hb hin hs (not_canTimeOut hs htx)
  have hready : AlwaysReady (s.setPeri ⟨[], ⟨true, false⟩⟩) := ⟨List.forall_mem_nil _, rfl⟩
  have hsame : SameButTransport s (s.setPeri ⟨[], ⟨true, false⟩⟩) := by constructor <;> rfl
  obtain ⟨hbusy, hseq, hu⟩ := runActs_ready s.seq.work _ hready
  rw [Act.events_congr hsame, Act.bad_congr hsame] at hu
  exact ⟨k, t, _, hk, hrun, hendt, step_busy_nil (s := s.setPeri ⟨[], ⟨true, false⟩⟩) hb hin, ⟨hbusy, hseq⟩,
    ht.trace.trans hu.trace.symm, ht.fault.trans hu.fault.symm, ht.dc.trans hu.dc.symm, ht.line.trans hu.line.symm,
    ht.same, hsame.trans hu.same⟩

/-! ### One byte (R113, R114) -/

/-- A wait that is over never touches `dcSafe`, and sets `quiet` only where it was for `busy = 0`. -/
theorem wait_met_select {c : Cond} {s t : State} (h : wait c s = .met t) :
    t.quiet = (s.quiet || c == .quiescent) ∧ t.dcSafe = s.dcSafe := by
  rcases wait_three c s with hw | hw | hw <;> rw [hw] at h
  · obtain rfl := Waited.met.inj h
    exact ⟨rfl, rfl⟩
  · contradiction
  · contradiction

theorem drain_done_select {s t : State} (h : drain s = .done t) : t.quiet = true ∧ t.dcSafe = s.dcSafe := by
  unfold drain at h
  cases hw : wait .quiescent s with
  | met u =>
    rw [hw] at h
    obtain rfl := Progress.done.inj h
    obtain ⟨hquiet, hsafe⟩ := wait_met_select hw
    exact ⟨by simp [hquiet], hsafe⟩
  | again u => rw [hw] at h; contradiction
  | gaveUp u => rw [hw] at h; contradiction

/-- A command byte is pushed, and `DC` changed, with nothing in flight, and nothing is in flight after its drain. -/
theorem emitCommand_done_select {b : Byte} {s t : State} (h : emitCommand b s = .done t) :
    t.quiet = true ∧ t.dcSafe = s.dcSafe := by
  unfold emitCommand at h
  cases hw : wait .quiescent s with
  | met u =>
    rw [hw] at h
    obtain ⟨hquiet, hsafe⟩ := wait_met_select hw
    obtain ⟨hdrained, hkept⟩ := drain_done_select h
    exact ⟨hdrained, by rw [hkept]; simp [push, hquiet, hsafe]⟩
  | again u => rw [hw] at h; contradiction
  | gaveUp u => rw [hw] at h; contradiction

/-- A data byte is in flight once it is pushed. -/
theorem emitData_done_quiet {a : Act} {b : Byte} {s t : State} (h : emitData a b s = .done t) : t.quiet = false := by
  unfold emitData at h
  cases hw : wait .room s with
  | met u =>
    rw [hw] at h
    obtain rfl := Progress.done.inj h
    rfl
  | again u => rw [hw] at h; contradiction
  | gaveUp u => rw [hw] at h; contradiction

/-- A command of one step, the transport always ready: it ends when the step is done. -/
theorem transmit_one_ready (a : Act) {s : State} (h : AlwaysReady s) :
    ∃ t, doAct a (s.setSeq Seq.dead) = .done t ∧ transmit [a] s = finish t ∧
      Sent s (finish t) (a.polls s) (a.events s) (a.bad s) := by
  obtain ⟨t, ht, -⟩ := doAct_ready a (s.setSeq Seq.dead) h
  have hrun : transmit [a] s = finish t := by
    unfold transmit
    rw [runActs, ht]
    rfl
  obtain ⟨-, -, hsent⟩ := transmit_ready [a] s h
  refine ⟨t, ht, hrun, ?_⟩
  simpa [hrun] using hsent

/-- Settles O21: the one step of the command, done. -/
theorem wrcmdSendsCommandByte : Obligations.WrcmdSendsCommandByte := by
  unfold Obligations.WrcmdSendsCommandByte
  intro s b h
  obtain ⟨t, hdone, hrun, hsent⟩ := transmit_one_ready (.cmd (BitVec.ofNat 8 b)) h
  obtain ⟨hquiet, hsafe⟩ := emitCommand_done_select hdone
  exact ⟨finish t, congrArg _ hrun, ⟨rfl, rfl⟩, hsent.trace, hsent.dc, hquiet, hsent.peri,
    hsent.fault.trans (or_badcharBit_false _), hsent.line, hsafe, hsent.same⟩

/-- Settles O22: the one step of the command, done. -/
theorem wrdatSendsDataByte : Obligations.WrdatSendsDataByte := by
  unfold Obligations.WrdatSendsDataByte
  intro s b h
  obtain ⟨t, hdone, hrun, hsent⟩ := transmit_one_ready (.dat (BitVec.ofNat 8 b)) h
  have hquiet : t.quiet = false := emitData_done_quiet (a := .dat (BitVec.ofNat 8 b)) hdone
  exact ⟨finish t, congrArg _ hrun, ⟨rfl, rfl⟩, hsent.trace, hsent.dc, hquiet, hsent.peri,
    hsent.fault.trans (or_badcharBit_false _), hsent.line, hsent.same⟩

end Sys2Proof.Machine
end

section
/-! PROOFS. The framebuffer commands: `SETPX`, `CLRPX`, `QRYPX`, `CLRALL`, and the laws that hold between them. -/

namespace Sys2Proof.Machine

/-! ### One command (41_framebuffer.md R121 to R124) -/

@[simp] theorem pix_finish (s : State) (x y : Nat) : pix (finish s) x y = pix s x y := rfl

theorem sameButPicture_finish (s : State) : SameButPicture s (finish s) := by constructor <;> rfl

theorem sameButPicture_raiseFault (c : FaultCode) (s : State) : SameButPicture s (raiseFault c s) := by
  constructor <;> rfl

theorem sameButPicture_setFb (s : State) (v : Vector Byte 504) : SameButPicture s (s.setFb v) := by constructor <;> rfl

/-- `SETPX` and `CLRPX` are one guarded pixel write (R121, R122). -/
theorem exec_pixelCommand (v : Bool) (x y : Nat) (s : State) :
    exec (if v then .setpx x y else .clrpx x y) s = .next (finish (pixelWrite x y v s)) := by
  cases v <;> rfl

theorem exec_qrypx_in {x y : Nat} (h : inRange x y = true) (s : State) :
    exec (.qrypx x y) s = .next (finish (s.setQ (pix s x y))) := by
  show execQrypx x y s = _
  unfold execQrypx
  rw [if_pos h]

theorem exec_qrypx_out {x y : Nat} (h : ¬ inRange x y = true) (s : State) :
    exec (.qrypx x y) s = .next (finish (raiseFault .oor s)) := by
  show execQrypx x y s = _
  unfold execQrypx
  rw [if_neg h]

theorem pix_cleared (s : State) (x y : Nat) : pix (s.setFb (Vector.replicate 504 0)) x y = false := by
  unfold pix
  rw [fbRead_cleared]
  exact BitVec.getLsbD_zero

/-- In range, a pixel write gives its pixel its value. -/
theorem pix_pixelWrite_same {x y : Nat} (h : inRange x y = true) (v : Bool) (s : State) :
    pix (pixelWrite x y v s) x y = v := by
  obtain ⟨hx, -⟩ := (inRange_iff x y).mp h
  rw [pix_pixelWrite h v s hx, if_pos ⟨rfl, rfl⟩]

/-- In range, a pixel write reads, modifies and writes the one byte of its pixel (R120). -/
theorem fbRead_pixelWrite_same {x y : Nat} (h : inRange x y = true) (v : Bool) (s : State) :
    fbRead (pixelWrite x y v s) (fbIndex x y) =
      if v then fbRead s (fbIndex x y) ||| pixelMask y else fbRead s (fbIndex x y) &&& ~~~pixelMask y := by
  rw [fbRead_pixelWrite, if_pos ⟨h, rfl⟩]
  cases v <;> rfl

/-- A pixel write leaves every byte but its own (R120). -/
theorem fbRead_pixelWrite_other {x y i : Nat} (hi : i ≠ fbIndex x y) (v : Bool) (s : State) :
    fbRead (pixelWrite x y v s) i = fbRead s i := by
  rw [fbRead_pixelWrite, if_neg fun h => hi h.2.symm]

/-- Settles O8: the command is the guarded pixel write, in and out of range. -/
theorem pixelWriteCommands : Obligations.PixelWriteCommands := by
  unfold Obligations.PixelWriteCommands
  intro s v x y
  rw [← inRange_iff]
  refine ⟨_, exec_pixelCommand v x y s, ⟨rfl, rfl⟩,
    (sameButPicture_pixelWrite x y v s).trans (sameButPicture_finish _), fun h => ?_, fun h => ?_⟩
  · refine ⟨?_, pix_pixelWrite_same h v s, fun x' y' hx' _ hne => ?_, fbRead_pixelWrite_same h v s,
      fun i hi => fbRead_pixelWrite_other hi v s⟩
    · rw [finish_fault, fault_pixelWrite, if_pos h]
    · rw [pix_finish, pix_pixelWrite h v s hx', if_neg (by omega)]
  · rw [pixelWrite_out (eq_false_of_ne_true h)]
    exact ⟨rfl, rfl⟩

/-- Settles O10: the loop leaves every byte 0, whatever the state. -/
theorem clrallBlanksScreen : Obligations.ClrallBlanksScreen := by
  unfold Obligations.ClrallBlanksScreen
  intro s
  exact ⟨_, execClrall_eq s, ⟨rfl, rfl⟩, fun i _ => fbRead_cleared s i, fun x y _ _ => pix_cleared s x y, rfl, rfl,
    (sameButPicture_setFb (s.setCur ⟨0, 0⟩) _).trans (sameButPicture_finish _)⟩

/-- Settles O9: in range the pixel goes to `Q`, out of range `OOR` is recorded. -/
theorem qrypxReadsPixel : Obligations.QrypxReadsPixel := by
  unfold Obligations.QrypxReadsPixel
  intro s x y
  by_cases h : x < 84 ∧ y < 48
  · exact ⟨_, exec_qrypx_in ((inRange_iff x y).mpr h) s, ⟨rfl, rfl⟩, rfl, (if_pos h).symm, (if_pos h).symm,
      sameButPicture_finish _⟩
  · exact ⟨_, exec_qrypx_out (mt (inRange_iff x y).mp h) s, ⟨rfl, rfl⟩, rfl, (if_neg h).symm, (if_neg h).symm,
      (sameButPicture_raiseFault .oor s).trans (sameButPicture_finish _)⟩

/-! ### Commands one after the other (41_framebuffer.md R125) -/

theorem execAll_cons {i : Instr} {s t : State} (h : exec i s = .next t) (is : List Instr) :
    execAll (i :: is) s = execAll is t := by
  rw [execAll, h]

theorem execAll_pair {i j : Instr} {s t u : State} (h : exec i s = .next t) (k : exec j t = .next u) :
    execAll [i, j] s = .next u := by
  rw [execAll_cons h, execAll_cons k, execAll]

theorem execAll_append {is : List Instr} {s t : State} (h : execAll is s = .next t) (js : List Instr) :
    execAll (is ++ js) s = execAll js t := by
  induction is generalizing s with
  | nil =>
    obtain rfl := Host.Outcome.next.inj h
    rfl
  | cons i is ih =>
    cases hi : exec i s with
    | next u =>
      rw [execAll_cons hi] at h
      rw [List.cons_append, execAll_cons hi, ih h]
    | fault r => simp [execAll, hi] at h
    | refused r => simp [execAll, hi] at h

/-- Commands on other pixels run and leave a pixel alone. -/
theorem execAll_onOtherPixel {x y : Nat} (hx : x < 84) (is : List Instr) (h : ∀ i ∈ is, OnOtherPixel x y i)
    (s : State) : ∃ t, execAll is s = .next t ∧ pix t x y = pix s x y := by
  induction is generalizing s with
  | nil => exact ⟨s, rfl, rfl⟩
  | cons i is ih =>
    obtain ⟨hi, his⟩ := List.forall_mem_cons.mp h
    obtain ⟨u, hu, hpix⟩ := pix_onOtherPixel hx hi s
    obtain ⟨t, ht, hpix'⟩ := ih his u
    exact ⟨t, (execAll_cons hu is).trans ht, hpix'.trans hpix⟩

/-- A pixel written, then queried, gives the value written (R125 law 1). -/
theorem execAll_write_query {x y : Nat} (h : inRange x y = true) (v : Bool) (s : State) :
    ∃ t, execAll [if v then .setpx x y else .clrpx x y, .qrypx x y] s = .next t ∧ t.q = v :=
  ⟨_, execAll_pair (exec_pixelCommand v x y s) (exec_qrypx_in h _), pix_pixelWrite_same h v s⟩

/-- Whatever commands on other pixels stand around, a pixel set and then cleared is off (R125 law 2): nothing between
the `CLRPX` and the end touches it. -/
theorem execAll_set_clear {x y : Nat} (h : inRange x y = true) {before between after : List Instr}
    (hother : ∀ i ∈ before ++ between ++ after, OnOtherPixel x y i) (s : State) :
    ∃ t, execAll (before ++ .setpx x y :: between ++ .clrpx x y :: after) s = .next t ∧ pix t x y = false := by
  obtain ⟨hx, -⟩ := (inRange_iff x y).mp h
  rw [List.forall_mem_append, List.forall_mem_append] at hother
  obtain ⟨⟨hbefore, hbetween⟩, hafter⟩ := hother
  obtain ⟨s₁, h₁, -⟩ := execAll_onOtherPixel hx before hbefore s
  obtain ⟨s₂, h₂, -⟩ := execAll_onOtherPixel hx between hbetween (finish (pixelWrite x y true s₁))
  obtain ⟨t, ht, hpix⟩ := execAll_onOtherPixel hx after hafter (finish (pixelWrite x y false s₂))
  refine ⟨t, ?_, hpix.trans (pix_pixelWrite_same h false s₂)⟩
  calc execAll (before ++ .setpx x y :: between ++ .clrpx x y :: after) s
      = execAll (.setpx x y :: between ++ .clrpx x y :: after) s₁ := by rw [List.append_assoc, execAll_append h₁]
    _ = execAll (between ++ .clrpx x y :: after) (finish (pixelWrite x y true s₁)) :=
        execAll_cons (exec_pixelCommand true x y s₁) _
    _ = execAll (.clrpx x y :: after) s₂ := execAll_append h₂ _
    _ = execAll after (finish (pixelWrite x y false s₂)) := execAll_cons (exec_pixelCommand false x y s₂) _
    _ = .next t := ht

/-- Writes of different pixels of the screen commute (R125 law 3). -/
theorem execAll_writes_comm {x y x' y' : Nat} (h : inRange x y = true) (h' : inRange x' y' = true)
    (hne : x ≠ x' ∨ y ≠ y') (v v' : Bool) (s : State) :
    ∃ t u, execAll [if v then .setpx x y else .clrpx x y, if v' then .setpx x' y' else .clrpx x' y'] s = .next t ∧
      execAll [if v' then .setpx x' y' else .clrpx x' y', if v then .setpx x y else .clrpx x y] s = .next u ∧
      t.fb = u.fb := by
  refine ⟨_, _, execAll_pair (exec_pixelCommand v x y s) (exec_pixelCommand v' x' y' _),
    execAll_pair (exec_pixelCommand v' x' y' s) (exec_pixelCommand v x y _), ?_⟩
  rw [pixelWrite_finish, pixelWrite_finish]
  exact (pixelWrite_comm h h' hne v v' s).symm

theorem cursorWord_home {s : State} (h : s.cur = ⟨0, 0⟩) : cursorWord s = 0 := by
  unfold cursorWord
  rw [h]
  decide

/-- After `CLRALL` every query gives 0 and the cursor reads as home (R125 law 4). -/
theorem execAll_clrall_query {x y : Nat} (h : inRange x y = true) (s : State) :
    ∃ t, execAll [.clrall, .qrypx x y] s = .next t ∧ t.q = false ∧ cursorWord t = 0 :=
  ⟨_, execAll_pair (execClrall_eq s) (exec_qrypx_in h _), pix_cleared s x y, cursorWord_home rfl⟩

/-- A command that draws sends nothing (R125 law 5). -/
theorem trace_of_sendsNothing {i : Instr} {s t : State} (hi : sendsNothing i = true) (h : exec i s = .next t) :
    t.trace = s.trace := by
  obtain ⟨u, hu, hdrawn, -⟩ := exec_drawing hi s
  obtain rfl := Host.Outcome.next.inj (hu.symm.trans h)
  exact hdrawn.trace

/-- Settles O11, law by law. -/
theorem pixelLaws : Obligations.PixelLaws := by
  unfold Obligations.PixelLaws
  refine ⟨fun s x y hx hy => ?_, fun s x y before between after hx hy hother => ?_,
    fun s v v' x y x' y' hx hy hx' hy' hne => ?_, fun s x y hx hy => ?_, fun s t i x y hi h => ?_⟩
  · have hr := (inRange_iff x y).mpr ⟨hx, hy⟩
    exact ⟨execAll_write_query hr true s, execAll_write_query hr false s⟩
  · exact execAll_set_clear ((inRange_iff x y).mpr ⟨hx, hy⟩) hother s
  · exact execAll_writes_comm ((inRange_iff x y).mpr ⟨hx, hy⟩) ((inRange_iff x' y').mpr ⟨hx', hy'⟩) hne v v' s
  · exact execAll_clrall_query ((inRange_iff x y).mpr ⟨hx, hy⟩) s
  · refine trace_of_sendsNothing ?_ h
    rcases hi with rfl | rfl | rfl | rfl <;> rfl

end Sys2Proof.Machine
end

section
/-! PROOFS. The blitter (42_blit.md): what `BLIT` draws and leaves alone, the walk of its working registers, and the
bytes of `RES` it reads. -/

namespace Sys2Proof.Machine

/-! ### The registers along the walk (42_blit.md R134, R135, 10_state.md R34) -/

theorem bw_toNat_blitStart (x y t height off : Nat) (q : Seq) {width : Nat} (hw : width < 256) :
    (blitStart x y t width height off q).bw.toNat = width := by
  change (BitVec.ofNat 8 width).toNat = width
  rw [BitVec.toNat_ofNat, Nat.mod_eq_of_lt hw]

theorem thrc_toNat_blitStart (x y t width height off : Nat) (q : Seq) :
    (blitStart x y t width height off q).thrc.toNat = min t 14 := by
  change (BitVec.ofNat 4 (min t 14)).toNat = min t 14
  rw [BitVec.toNat_ofNat]
  omega

/-- The band and the mask of a row give those of the row above it: the mask moves up inside a band and wraps from bit 0
to bit 7 of the band above (R134). -/
theorem bandMask_up (y : Nat) :
    (if 1 < (pixelMask (y + 1)).toNat then (BitVec.ofNat 3 ((y + 1) / 8), pixelMask (y + 1) >>> 1)
      else (BitVec.ofNat 3 ((y + 1) / 8) - 1, 0x80)) = (BitVec.ofNat 3 (y / 8), pixelMask y) := by
  unfold pixelMask
  by_cases hwrap : y % 8 = 7
  · have hband : (y + 1) / 8 = y / 8 + 1 := by omega
    have hgi : BitVec.ofNat 3 (y / 8 + 1) - 1 = BitVec.ofNat 3 (y / 8) := by
      rw [BitVec.ofNat_add]
      exact BitVec.add_sub_cancel _ _
    rw [show (y + 1) % 8 = 0 by omega, if_neg (by decide), hband, hgi, hwrap]
    rfl
  · have hband : (y + 1) / 8 = y / 8 := by omega
    have hmask : ∀ m < 7, 1 < (1#8 <<< (m + 1)).toNat ∧ 1#8 <<< (m + 1) >>> 1 = 1#8 <<< m := by decide
    obtain ⟨hlt, hshift⟩ := hmask (y % 8) (by omega)
    rw [show (y + 1) % 8 = y % 8 + 1 by omega, if_pos hlt, hshift, hband]

/-- A stored row and its boundary turn the registers of one row into those with which a blit of the rows that are left
starts at the row above; only `BH` keeps the height of the whole bitmap. -/
theorem blitRowBoundary_blitRowDone (x t rows off : Nat) (q : Seq) (bh : Byte) {y width : Nat} (hy : y < 64)
    (hw : width < 256) :
    blitRowBoundary x (blitRowDone { blitStart x (y + 1) t width (rows + 1) off q with bh := bh }) =
      { blitStart x y t width rows (off + rowStride width) q with bh := bh } := by
  have hbw : (BitVec.ofNat 8 width).toNat = width := bw_toNat_blitStart x y t rows off q hw
  have hband : (BitVec.ofNat 3 (y / 8)).toNat = y / 8 := by
    rw [BitVec.toNat_ofNat]
    omega
  have hrj : BitVec.ofNat 16 off + BitVec.ofNat 16 (rowBytes width) + BitVec.ofNat 16 (rowPad width) =
      BitVec.ofNat 16 (off + rowStride width) := by
    rw [← BitVec.ofNat_add, ← BitVec.ofNat_add, Nat.add_assoc]
    rfl
  have hcnt : BitVec.ofNat 15 (rowBytes width * (rows + 1)) - BitVec.ofNat 15 (rowBytes width) =
      BitVec.ofNat 15 (rowBytes width * rows) := by
    rw [Nat.mul_succ, BitVec.ofNat_add]
    exact BitVec.add_sub_cancel _ _
  unfold blitRowBoundary blitRowDone blitStart
  simp only [bandMask_up, hbw, hband, hrj, hcnt]

/-- The registers after `r` row boundaries are those with which a blit of the rows that are left starts at screen row
`y - r`, but for `BH`: the walk is equivalent to computing each row's place afresh (R134). -/
theorem walk_eq_blitStart (x t off : Nat) (q : Seq) {y width height r : Nat} (hy : y ≤ 64) (hw : width < 256)
    (hry : r ≤ y) (hrh : r ≤ height) :
    (fun p => blitRowBoundary x (blitRowDone p))^[r] (blitStart x y t width height off q) =
      { blitStart x (y - r) t width (height - r) (off + r * rowStride width) q with bh := BitVec.ofNat 8 height } := by
  induction r with
  | zero =>
    rw [Nat.zero_mul]
    rfl
  | succ r ih =>
    rw [Function.iterate_succ_apply', ih (by omega) (by omega), show y - r = y - (r + 1) + 1 by omega,
      show height - r = height - (r + 1) + 1 by omega, blitRowBoundary_blitRowDone _ _ _ _ _ _ (by omega) hw,
      Nat.add_assoc, ← Nat.succ_mul]

/-- The pixel bytes of every header fit in the 15 bits of `CNT` (R34). -/
theorem pixelBytes_lt {width height : Nat} (hw : width < 256) (hh : height < 256) : width / 2 * height < 2 ^ 15 :=
  calc width / 2 * height ≤ 127 * 255 := Nat.mul_le_mul (by omega) (by omega)
    _ < 2 ^ 15 := by decide

/-- Settles O19: the registers after `r` rows are those a blit starts with at screen row `y - r`. -/
theorem blitWalkFollowsTheRows : Obligations.BlitWalkFollowsTheRows := by
  unfold Obligations.BlitWalkFollowsTheRows
  intro q x y t width height off r hx hy hw hry hrh
  rw [walk_eq_blitStart x t off q (by omega) hw hry hrh]
  refine ⟨?_, rfl, ?_, rfl, rfl, fun hh => ?_, bw_toNat_blitStart x y t height off q hw,
    thrc_toNat_blitStart x y t width height off q⟩
  · change (BitVec.ofNat 3 ((y - r) / 8)).toNat = _
    rw [BitVec.toNat_ofNat]
    omega
  · change (BitVec.ofNat 10 (x + 84 * ((y - r) / 8))).toNat = _
    rw [BitVec.toNat_ofNat]
    omega
  · change (BitVec.ofNat 15 (width / 2 * (height - r))).toNat = _
    rw [BitVec.toNat_ofNat, Nat.mod_eq_of_lt (pixelBytes_lt hw (by omega))]

/-! ### The picture (42_blit.md R132, R136, R137, R139) -/

theorem exec_blit (x y t : Nat) (s : State) : exec (.blit x y t) s = execBlit x y t s := rfl

/-- A blit that is not accepted only ends. -/
theorem exec_blit_rejected {s : State} {x y : Nat} (t : Nat) (h : ¬ BlitAccepted s x y) :
    ∃ u, exec (.blit x y t) s = .next u ∧ Ended u ∧ u.fb = s.fb ∧ u.fault = s.fault ∧ SameButPicture s u :=
  ⟨_, execBlit_notAccepted t h, ⟨rfl, rfl⟩, rfl, rfl, sameButPicture_finish s⟩

/-- What an accepted blit leaves on the screen, column by column and row by row of the bitmap (R139). -/
theorem exec_blit_accepted {s : State} {x y : Nat} (t : Nat) (h : BlitAccepted s x y) :
    ∃ u, exec (.blit x y t) s = .next u ∧ Ended u ∧ SameButPicture s u ∧
      u.fault = (if y = 48 ∧ 0 < bitmapWidth s then s.fault.raise .oor else s.fault) ∧
      (∀ c r, c < bitmapWidth s → r < bitmapHeight s → y - r < 48 →
        pix u (x + c) (y - r) = decide (min t 14 < bitmapNibble s r c)) ∧
      ∀ x' y', x' < 84 → y' < 48 → ¬ Covered s x y x' y' → pix u x' y' = pix s x' y' := by
  obtain ⟨u, hu, hended, hsame, hfault, hpix⟩ := execBlit_spec t h
  obtain ⟨-, -, hwide, hhigh, -⟩ := h
  refine ⟨u, hu, hended, hsame, hfault, fun c r hc hr hrow => ?_, fun x' y' hx' hy' hout => ?_⟩
  · rw [hpix _ _ (by omega) hrow, if_pos (by omega), show y - (y - r) = r by omega, Nat.add_sub_cancel_left]
  · rw [hpix x' y' hx' hy']
    exact if_neg hout

/-- Settles O15: the command ends and changes nothing else. -/
theorem blitRejectedIsSilent : Obligations.BlitRejectedIsSilent :=
  fun _ _ _ t h => exec_blit_rejected t h

/-- Settles O16: with the origin on the screen every covered pixel is. -/
theorem blitDrawsThePicture : Obligations.BlitDrawsThePicture := by
  unfold Obligations.BlitDrawsThePicture
  intro s x y t h hy
  obtain ⟨u, hu, hended, hsame, hfault, hdrawn, hkept⟩ := exec_blit_accepted t h
  rw [if_neg (by omega)] at hfault
  exact ⟨u, hu, hended, hfault, hsame, fun c r hc hr => hdrawn c r hc hr (by omega), hkept⟩

/-- Settles O17: at `y_origin = H` the rows from 1 up are on the screen, and above `H` the test fails. -/
theorem blitBelowTheScreen : Obligations.BlitBelowTheScreen := by
  unfold Obligations.BlitBelowTheScreen
  refine ⟨fun s x t h => ?_, fun s x y t hy => exec_blit_rejected t fun ⟨_, _, _, _, hH⟩ => by omega⟩
  obtain ⟨u, hu, hended, hsame, hfault, hdrawn, hkept⟩ := exec_blit_accepted t h
  simp only [true_and] at hfault
  exact ⟨u, hu, hended, hsame, hfault, fun c r hc hr1 hr => hdrawn c r hc hr (by omega), hkept⟩

/-- Settles O18: each line of the table compares the nibble with `min(threshold, 14)`. -/
theorem blitThresholdTable : Obligations.BlitThresholdTable := by
  unfold Obligations.BlitThresholdTable
  intro s x y t c r h hrow hc hr
  obtain ⟨u, hu, -, -, -, hdrawn, -⟩ := exec_blit_accepted t h
  refine ⟨u, hu, ?_⟩
  rw [hdrawn c r hc hr hrow, decide_eq_true_iff, decide_eq_false_iff_not]
  omega

/-! ### The bytes a blit reads (42_blit.md R130, R135) -/

/-- An accepted blit draws the rows of the bitmap at `ARGL`. -/
theorem execBlit_eq_drawRows {s : State} {x y : Nat} (t : Nat) (h : BlitAccepted s x y) :
    execBlit x y t s = .next (finish (drawRows x y (bitmapOffset s) (bitmapHeight s)
      (s.setSeq (blitStart x y t (bitmapWidth s) (bitmapHeight s) (bitmapOffset s) Seq.dead)))) :=
  execBlit_accepted ((blitAccept_iff s x y).mpr h)

/-- With the bitmap's width in `BW` the loops read the bitmap's pixel bytes. -/
theorem rowByte_setSeq {s : State} {q : Seq} (hq : q.bw.toNat = bitmapWidth s) (r k : Nat) :
    rowByte (s.setSeq q) (bitmapOffset s) r k = bitmapByte s r k := by
  unfold rowByte
  rw [State.seq_setSeq, hq]
  rfl

/-- Settles O20: the same header starts the same walk, and each row draws the same bytes. -/
theorem blitReadsOnlyItsBytes : Obligations.BlitReadsOnlyItsBytes := by
  unfold Obligations.BlitReadsOnlyItsBytes
  intro s u m x y t hwidth hheight hoffset hbytes hu
  have haccepted : BlitAccepted (s.setRes m) x y ↔ BlitAccepted s x y := by
    unfold BlitAccepted
    rw [hwidth, hheight]
  rw [exec_blit] at hu ⊢
  by_cases h : BlitAccepted s x y
  · rw [execBlit_eq_drawRows t h] at hu
    obtain rfl := Host.Outcome.next.inj hu
    rw [execBlit_eq_drawRows t (haccepted.mpr h), hwidth, hheight, hoffset]
    have hbw := bw_toNat_blitStart x y t (bitmapHeight s) (bitmapOffset s) Seq.dead
      (show bitmapWidth s < 256 from (resRead s _).isLt)
    generalize blitStart x y t (bitmapWidth s) (bitmapHeight s) (bitmapOffset s) Seq.dead = q at hbw ⊢
    have hrows := setRes_drawRows x y (bitmapOffset s) (bitmapHeight s) (s.setSeq q) m fun r k hr hk => by
      rw [State.seq_setSeq, hbw] at hk
      calc rowByte ((s.setRes m).setSeq q) (bitmapOffset s) r k
          = bitmapByte (s.setRes m) r k := by rw [← hoffset, rowByte_setSeq (hbw.trans hwidth.symm)]
        _ = bitmapByte s r k := hbytes r k hr hk
        _ = rowByte (s.setSeq q) (bitmapOffset s) r k := (rowByte_setSeq hbw r k).symm
    exact congrArg (fun v => Host.Outcome.next (finish v)) hrows
  · rw [execBlit_notAccepted t h] at hu
    obtain rfl := Host.Outcome.next.inj hu
    exact execBlit_notAccepted t (mt haccepted.mp h)

end Sys2Proof.Machine
end

section
/-! PROOFS. The text commands (43_text.md): the cells of a character and their mirrors, strings, decimal numbers, the
cursor, and what the sending commands do not look at. -/

namespace Sys2Proof.Machine

/-! ### Characters and cells (R150, R151, R152, R156) -/

theorem validChar_iff (c : Nat) : validChar c = true ↔ 0x20 ≤ c ∧ c ≤ 0x7E := by
  unfold validChar
  rw [Bool.and_eq_true, decide_eq_true_iff, decide_eq_true_iff]
  show 0x20 ≤ c ∧ c < 0x20 + 95 ↔ _
  omega

theorem rev8_rev8 (b : Byte) : rev8 (rev8 b) = b := BitVec.reverse_reverse_eq

theorem getLsbD_rev8 (b : Byte) {i : Nat} (hi : i < 8) : (rev8 b).getLsbD i = b.getLsbD (7 - i) := by
  unfold rev8
  rw [BitVec.getLsbD_reverse, BitVec.getMsbD_eq_getLsbD, decide_eq_true hi, Bool.true_and]

/-- The blank columns at both ends are their own mirrors. -/
theorem cellInv_eq_mirror (p : Params) (c : Nat) : cellInv p c = (cell p c).reverse.map rev8 := rfl

/-- Mirroring twice gives the columns back. -/
theorem mirror_mirror (bs : List Byte) : (bs.reverse.map rev8).reverse.map rev8 = bs := by
  rw [← List.map_reverse, List.reverse_reverse, List.map_map]
  exact List.map_id'' rev8_rev8 bs

/-- Settles O29: the cell as it is written out, its mirror, and the bits of a mirrored byte. -/
theorem mirroredCell : Obligations.MirroredCell := by
  unfold Obligations.MirroredCell
  refine ⟨fun _ _ => rfl, fun p c => ⟨cellInv_eq_mirror p c, ?_⟩, fun b i => getLsbD_rev8 b⟩
  rw [cellInv_eq_mirror, mirror_mirror]

theorem length_cellFor (inverted : Bool) (p : Params) (c : Nat) : (cellFor inverted p c).length = 7 := by
  cases inverted <;> rfl

theorem charEvents_valid (inverted : Bool) (p : Params) {c : Nat} (h : validChar c = true) :
    charEvents inverted p c = dataEvents (cellFor inverted p c) := if_pos h

theorem charEvents_invalid (inverted : Bool) (p : Params) {c : Nat} (h : ¬ validChar c = true) :
    charEvents inverted p c = [] := if_neg h

theorem or_badcharBit_true (f : FaultBits) : f.or (badcharBit true) = { f with badchar := true } :=
  (raise_spec f .badchar).symm

/-- A run without a pulse leaves `LCDRST` alone, as a transmission. -/
theorem transmit_keeps_lcdrst {acts : List Act} (h : ∀ a ∈ acts, a.isPulse = false) (s : State) :
    (transmit acts s).lcdrst = s.lcdrst :=
  (runActs_keeps_lcdrst h (s.setSeq Seq.dead)).1

theorem exec_putChar (inverted : Bool) (c : Nat) (s : State) :
    exec (if inverted then .putci c else .putc c) s = .next (transmit [.put inverted c] s) := by
  cases inverted <;> rfl

/-- Settles O28: the command is one step, which sends the cell of a valid code and records an invalid one. -/
theorem putcSendsTheCell : Obligations.PutcSendsTheCell := by
  unfold Obligations.PutcSendsTheCell
  intro s c inverted h
  obtain ⟨t, -, hrun, hsent⟩ := transmit_one_ready (.put inverted c) h
  have hcell : (if inverted then cellInv s.params c else cell s.params c) = cellFor inverted s.params c := by
    cases inverted <;> rfl
  have hline : (finish t).lcdrst = s.lcdrst := hrun ▸ transmit_keeps_lcdrst (List.forall_mem_singleton.mpr rfl) s
  change Sent s _ (if validChar c then 7 else 0) (charEvents inverted s.params c) (!validChar c) at hsent
  rw [hcell, ← validChar_iff]
  refine ⟨finish t, (exec_putChar inverted c s).trans (congrArg _ hrun), ⟨rfl, rfl⟩, hline, hsent.same,
    fun hv => ?_, fun hv => ?_⟩
  · rw [if_pos hv, charEvents_valid inverted s.params hv, hv] at hsent
    exact ⟨hsent.trace, hsent.fault.trans (or_badcharBit_false _), hsent.peri,
      hsent.dc.trans (by cases inverted <;> rfl)⟩
  · rw [if_neg hv, charEvents_invalid inverted s.params hv, Bool.eq_false_of_not_eq_true hv] at hsent
    exact ⟨hsent.trace.trans (List.append_nil _), hsent.fault.trans (or_badcharBit_true _),
      hsent.peri.trans (spendPolls_zero _), hsent.dc⟩

/-! ### Strings (R153, R154) -/

/-- The steps of a string command: the characters at the given offsets from `ARGL`, in the list's order. -/
def stringActs (inverted : Bool) (s : State) (offsets : List Nat) : List Act :=
  offsets.map fun j => .putRes inverted (resAddr s.argl j)

theorem exec_puts (n : Nat) (s : State) :
    exec (.puts n) s = .next (transmit (stringActs false s (List.range n)) s) := rfl

theorem exec_putsi (n : Nat) (s : State) :
    exec (.putsi n) s = .next (transmit (stringActs true s (List.range n).reverse) s) := rfl

theorem stringActs_noPulse (inverted : Bool) (s : State) (offsets : List Nat) :
    ∀ a ∈ stringActs inverted s offsets, a.isPulse = false :=
  List.forall_mem_map.mpr fun _ _ => rfl

theorem stringActs_events (inverted : Bool) (s : State) (offsets : List Nat) :
    (stringActs inverted s offsets).flatMap (Act.events s) =
      offsets.flatMap fun j => charEvents inverted s.params (charAt s j) := List.flatMap_map ..

theorem stringActs_bad (inverted : Bool) (s : State) (offsets : List Nat) :
    (stringActs inverted s offsets).any (Act.bad s) = offsets.any fun j => !validChar (charAt s j) := List.any_map ..

/-- A string, the transport always ready: each character's events in order, and `BADCHAR` where one is invalid. -/
theorem transmit_string_ready (inverted : Bool) (offsets : List Nat) {s : State} (h : AlwaysReady s) :
    Ended (transmit (stringActs inverted s offsets) s) ∧
      ∃ n, Sent s (transmit (stringActs inverted s offsets) s) n
        (offsets.flatMap fun j => charEvents inverted s.params (charAt s j))
        (offsets.any fun j => !validChar (charAt s j)) := by
  obtain ⟨hbusy, hseq, hsent⟩ := transmit_ready (stringActs inverted s offsets) s h
  rw [stringActs_events, stringActs_bad] at hsent
  exact ⟨⟨hbusy, hseq⟩, _, hsent⟩

/-- The string command on a ready transport, with the fault by the codes of 43_text.md R150. -/
theorem string_spec (inverted : Bool) (offsets : List Nat) {s t : State} (h : AlwaysReady s)
    (ht : transmit (stringActs inverted s offsets) s = t) :
    Ended t ∧ t.lcdrst = s.lcdrst ∧ SameButTransport s t ∧
      t.trace = s.trace ++ offsets.flatMap (fun j => charEvents inverted s.params (charAt s j)) ∧
      ((∀ j ∈ offsets, 0x20 ≤ charAt s j ∧ charAt s j ≤ 0x7E) → t.fault = s.fault) ∧
      ((∃ j ∈ offsets, ¬ (0x20 ≤ charAt s j ∧ charAt s j ≤ 0x7E)) → t.fault = { s.fault with badchar := true }) := by
  subst ht
  obtain ⟨hend, n, hsent⟩ := transmit_string_ready inverted offsets h
  have hfault := hsent.fault
  refine ⟨hend, transmit_keeps_lcdrst (stringActs_noPulse inverted s offsets) s, hsent.same, hsent.trace,
    fun hall => ?_, fun hone => ?_⟩
  · have hgood : (offsets.any fun j => !validChar (charAt s j)) = false := by
      simpa [validChar_iff] using hall
    rw [hgood, or_badcharBit_false] at hfault
    exact hfault
  · have hbad : (offsets.any fun j => !validChar (charAt s j)) = true := by
      obtain ⟨j, hj, hinvalid⟩ := hone
      rw [← validChar_iff, Bool.not_eq_true] at hinvalid
      exact List.any_eq_true.mpr ⟨j, hj, by rw [hinvalid]; rfl⟩
    rw [hbad, or_badcharBit_true] at hfault
    exact hfault

/-- Settles O30: the string at the offsets `0 .. n-1`. -/
theorem putsSendsEachCharacter : Obligations.PutsSendsEachCharacter := by
  unfold Obligations.PutsSendsEachCharacter
  intro s n h
  have hspec := string_spec false (List.range n) h rfl
  simp only [List.mem_range] at hspec
  exact ⟨_, exec_puts n s, hspec⟩

theorem reverse_range (n : Nat) : (List.range n).reverse = (List.range n).map fun j => n - 1 - j := by
  rw [List.range_eq_range', List.reverse_range', ← List.range_eq_range', Nat.zero_add]

theorem flatMap_reverse_range {α : Type} (n : Nat) (g : Nat → List α) :
    (List.range n).reverse.flatMap g = (List.range n).flatMap fun j => g (n - 1 - j) := by
  rw [reverse_range, List.flatMap_map]

/-- Settles O31: the string at the offsets `n-1 .. 0`. -/
theorem putsiSendsReversed : Obligations.PutsiSendsReversed := by
  unfold Obligations.PutsiSendsReversed
  intro s n h
  have hspec := string_spec true (List.range n).reverse h rfl
  simp only [List.mem_reverse, List.mem_range, flatMap_reverse_range] at hspec
  exact ⟨_, exec_putsi n s, hspec⟩

/-- Valid characters send the columns of their cells. -/
theorem charEvents_flatMap (inverted : Bool) (p : Params) {cs : List Nat} (h : ∀ c ∈ cs, validChar c = true) :
    cs.flatMap (charEvents inverted p) = dataEvents (cs.flatMap (cellFor inverted p)) := by
  unfold dataEvents
  rw [List.map_flatMap]
  exact List.flatMap_congr fun c hc => charEvents_valid inverted p (h c hc)

theorem length_cells (inverted : Bool) (p : Params) (cs : List Nat) :
    (cs.flatMap (cellFor inverted p)).length = 7 * cs.length := by
  simp [List.length_flatMap, length_cellFor, Nat.mul_comm]

/-- The mirror of a row of cells is the row of the mirrored cells, the last first. -/
theorem mirror_cells (p : Params) (cs : List Nat) :
    (cs.flatMap (cellFor false p)).reverse.map rev8 = cs.reverse.flatMap (cellFor true p) := by
  rw [List.reverse_flatMap, List.map_flatMap]
  exact List.flatMap_congr fun c _ => (cellInv_eq_mirror p c).symm

/-- Settles O32: both streams are rows of cells, of the same characters. -/
theorem putsiMirrorsPuts : Obligations.PutsiMirrorsPuts := by
  unfold Obligations.PutsiMirrorsPuts
  intro s n h hv
  obtain ⟨-, -, -, hputs, -⟩ := string_spec false (List.range n) h rfl
  obtain ⟨-, -, -, hputsi, -⟩ := string_spec true (List.range n).reverse h rfl
  have hvalid : ∀ c ∈ (List.range n).map (charAt s), validChar c = true :=
    List.forall_mem_map.mpr fun j hj => (validChar_iff _).mpr (hv j (List.mem_range.mp hj))
  have hback : ∀ c ∈ ((List.range n).map (charAt s)).reverse, validChar c = true := fun c hc =>
    hvalid c (List.mem_reverse.mp hc)
  refine ⟨_, _, ((List.range n).map (charAt s)).flatMap (cellFor false s.params), exec_puts n s, exec_putsi n s,
    ?_, ?_, ?_⟩
  · rw [length_cells, List.length_map, List.length_range]
  · rw [hputs, ← charEvents_flatMap false s.params hvalid, List.flatMap_map]
  · rw [hputsi, mirror_cells, ← charEvents_flatMap true s.params hback, ← List.map_reverse, List.flatMap_map]

/-! ### Decimal numbers (R157, R158, R159) -/

theorem digit_lt (n i : Nat) : digit n i < 10 := Nat.mod_lt _ (by omega)

theorem digitsOf_getElem? (n : Nat) {i : Nat} (h : i < 5) : (digitsOf n)[i]? = some (BitVec.ofNat 4 (digit n i)) := by
  interval_cases i <;> rfl

/-- A digit fits in its four bits. -/
theorem toNat_ofNat_digit (n i : Nat) : (BitVec.ofNat 4 (digit n i)).toNat = digit n i := by
  rw [BitVec.toNat_ofNat]
  exact Nat.mod_eq_of_lt (Nat.lt_trans (digit_lt n i) (by decide))

/-- The five ranges (R159). -/
theorem sigDigits_ranges (n : Nat) :
    (sigDigits n = 1 ↔ n < 10) ∧ (sigDigits n = 2 ↔ 10 ≤ n ∧ n < 100) ∧ (sigDigits n = 3 ↔ 100 ≤ n ∧ n < 1000) ∧
      (sigDigits n = 4 ↔ 1000 ≤ n ∧ n < 10000) ∧ (sigDigits n = 5 ↔ 10000 ≤ n) := by
  unfold sigDigits
  split_ifs <;> omega

/-- The number of significant digits is the least number of digits that `n` fits in, and at least one. -/
theorem sigDigits_eq {n k : Nat} (h1 : 1 ≤ k) (h5 : k ≤ 5) (hlt : n < 10 ^ k) (hle : k = 1 ∨ 10 ^ (k - 1) ≤ n) :
    sigDigits n = k := by
  obtain ⟨one, two, three, four, five⟩ := sigDigits_ranges n
  interval_cases k
  · exact one.mpr hlt
  · exact two.mpr ⟨by omega, hlt⟩
  · exact three.mpr ⟨by omega, hlt⟩
  · exact four.mpr ⟨by omega, hlt⟩
  · exact five.mpr (by omega)

theorem eq_sum_digits {n : Nat} (h : n < 100000) :
    n = digit n 4 * 10000 + digit n 3 * 1000 + digit n 2 * 100 + digit n 1 * 10 + digit n 0 := by
  unfold digit
  norm_num
  omega

/-- Settles O33: the digits one by one, their sum, and the ranges of `sigDigits`. -/
theorem decimalDigits : Obligations.DecimalDigits := by
  unfold Obligations.DecimalDigits
  intro n hn
  obtain ⟨one, two, three, four, five⟩ := sigDigits_ranges n
  refine ⟨fun i hi d hd => ?_, eq_sum_digits (by omega), one, two, three, four, five, rfl⟩
  rw [digitsOf_getElem? n hi] at hd
  obtain rfl := Option.some.inj hd
  have hlt := digit_lt n i
  rw [toNat_ofNat_digit, validChar_iff]
  exact ⟨rfl, by omega⟩

/-- The characters of the significant digits, as the statements write them. -/
theorem digitChars_digitsOf (n : Nat) {k : Nat} (hk : k ≤ 5) :
    digitChars (digitsOf n) k = (List.range k).map fun i => 0x30 + n / 10 ^ (k - 1 - i) % 10 := by
  unfold digitChars
  rw [reverse_range, List.map_map]
  refine List.map_congr_left fun i hi => ?_
  have hi : i < k := List.mem_range.mp hi
  show 0x30 + ((digitsOf n)[k - 1 - i]?.getD 0).toNat = _
  rw [digitsOf_getElem? n (by omega), Option.getD_some, toNat_ofNat_digit]
  rfl

/-- Valid characters put on a ready transport take seven polls and send seven columns each. -/
theorem runActs_puts_ready (inverted : Bool) {cs : List Nat} (hv : ∀ c ∈ cs, validChar c = true) {s : State}
    (h : AlwaysReady s) :
    Ended (runActs (cs.map (Act.put inverted)) s) ∧
      Sent s (runActs (cs.map (Act.put inverted)) s) (7 * cs.length)
        (dataEvents (cs.flatMap (cellFor inverted s.params))) false := by
  obtain ⟨hbusy, hseq, hsent⟩ := runActs_ready (cs.map (Act.put inverted)) s h
  have hseven : ∀ n ∈ cs.map (Act.polls s ∘ Act.put inverted), n = 7 :=
    List.forall_mem_map.mpr fun c hc => if_pos (hv c hc)
  have hpolls : ((cs.map (Act.put inverted)).map (Act.polls s)).sum = 7 * cs.length := by
    rw [List.map_map, List.sum_eq_card_nsmul _ 7 hseven, List.length_map, smul_eq_mul, Nat.mul_comm]
  have hevents : (cs.map (Act.put inverted)).flatMap (Act.events s) = cs.flatMap (charEvents inverted s.params) :=
    List.flatMap_map ..
  have hgood : (cs.map (Act.put inverted)).any (Act.bad s) = false := by
    simpa [Act.bad] using hv
  rw [hpolls, hevents, charEvents_flatMap inverted s.params hv, hgood] at hsent
  exact ⟨⟨hbusy, hseq⟩, hsent⟩

/-- A decimal command whose characters are `cs`, the transport always ready. -/
theorem transmitDecimal_ready {chars : Vector (BitVec 4) 5 → List Nat} {n : Nat} {cs : List Nat}
    (hcs : chars (digitsOf n) = cs) (hv : ∀ c ∈ cs, validChar c = true) {s : State} (h : AlwaysReady s) :
    ∃ t bytes, transmitDecimal chars n s = t ∧ Ended t ∧ t.lcdrst = s.lcdrst ∧ SameButTransport s t ∧
      t.fault = s.fault ∧ t.peri = spendPolls (7 * cs.length) s.peri ∧ t.trace = s.trace ++ dataEvents bytes ∧
      bytes.length = 7 * cs.length ∧ bytes = cs.flatMap (cell s.params) := by
  subst hcs
  obtain ⟨hend, hsent⟩ :=
    runActs_puts_ready false hv (s := s.setSeq { Seq.dead with dig := digitsOf n }) h
  have hline := (runActs_keeps_lcdrst (acts := (chars (digitsOf n)).map (Act.put false))
    (List.forall_mem_map.mpr fun _ _ => rfl) (s.setSeq { Seq.dead with dig := digitsOf n })).1
  exact ⟨_, _, rfl, hend, hline, (sameButTransport_setSeq _ s).trans hsent.same,
    hsent.fault.trans (or_badcharBit_false _), hsent.peri, hsent.trace, length_cells false _ _, rfl⟩

/-- Settles O34: `5 - k` blanks and `k` digits are five characters. -/
theorem putudSendsFiveCells : Obligations.PutudSendsFiveCells := by
  unfold Obligations.PutudSendsFiveCells
  intro s n k h h1 h5 hlt hle
  have hsig := sigDigits_eq h1 h5 hlt hle
  obtain ⟨t, bytes, hrun, hspec⟩ :=
    transmitDecimal_ready (chars := fun dig => fieldChars dig (sigDigits n)) rfl (fieldChars_valid _ _) h
  have hlen : (fieldChars (digitsOf n) k).length = 5 := by
    simp [fieldChars, digitChars, h5]
  rw [hsig, hlen] at hspec
  unfold fieldChars at hspec
  rw [digitChars_digitsOf n h5] at hspec
  exact ⟨t, bytes, congrArg _ hrun, hspec⟩

/-- Settles O35: the digits alone are `k` characters. -/
theorem putdSendsSignificantCells : Obligations.PutdSendsSignificantCells := by
  unfold Obligations.PutdSendsSignificantCells
  intro s n k h h1 h5 hlt hle
  have hsig := sigDigits_eq h1 h5 hlt hle
  obtain ⟨t, bytes, hrun, hspec⟩ :=
    transmitDecimal_ready (chars := fun dig => digitChars dig (sigDigits n)) rfl (digitChars_valid _ _) h
  rw [hsig, digitChars_digitsOf n h5, List.length_map, List.length_range] at hspec
  exact ⟨t, bytes, congrArg _ hrun, hspec⟩

/-! ### The cursor (R155, 44_session.md R171, R172) -/

theorem cellInGrid_iff (col row : Nat) : cellInGrid col row = true ↔ col ≤ 11 ∧ row ≤ 5 := by
  unfold cellInGrid
  rw [Bool.and_eq_true, decide_eq_true_iff, decide_eq_true_iff]
  show col < 12 ∧ row < 6 ↔ _
  omega

/-- The two fields of the cursor hold a cell of the grid. -/
theorem cursor_toNat {col row : Nat} (hc : col ≤ 11) (hr : row ≤ 5) :
    (BitVec.ofNat 4 col).toNat = col ∧ (BitVec.ofNat 3 row).toNat = row := by
  rw [BitVec.toNat_ofNat, BitVec.toNat_ofNat]
  omega

/-- Under 00_scope.md R7 the address bytes are sums too. -/
theorem addressBytes_eq_sum {p : Params} (h : p.wf = true) {col row : Nat} (hc : col ≤ 11) (hr : row ≤ 5) :
    setColumnByte p col = p.setxBase + BitVec.ofNat 8 (col * 7) ∧ setRowByte p row = p.setyBase + BitVec.ofNat 8 row := by
  unfold Params.wf at h
  simp only [Bool.and_eq_true, List.all_eq_true, List.mem_range, beq_iff_eq] at h
  obtain ⟨⟨-, hcol⟩, hrow⟩ := h
  exact ⟨(BitVec.add_eq_or_of_and_eq_zero _ _ (hcol col (Nat.lt_succ_of_le hc))).symm,
    (BitVec.add_eq_or_of_and_eq_zero _ _ (hrow row (Nat.lt_succ_of_le hr))).symm⟩

/-- A run that ends with a command byte ends with nothing in flight: the byte is drained. -/
theorem quiet_runActs_cmd (b : Byte) (bs : List Byte) {s : State} (h : AlwaysReady s) :
    (runActs ((b :: bs).map Act.cmd) s).quiet = true := by
  induction bs generalizing b s with
  | nil =>
    obtain ⟨t, ht, -⟩ := doAct_ready (.cmd b) s h
    rw [List.map_singleton, runActs, ht]
    exact (emitCommand_done_select ht).1
  | cons b' bs ih =>
    obtain ⟨t, ht, hsent⟩ := doAct_ready (.cmd b) s h
    rw [List.map_cons, runActs, ht]
    exact ih b' (hsent.ready h)

/-- Settles O36: the two address bytes, sent from the state with the cursor already placed. -/
theorem setcurMovesAndTells : Obligations.SetcurMovesAndTells := by
  unfold Obligations.SetcurMovesAndTells
  intro s col row h hc hr
  obtain ⟨hcol, hrow⟩ := cursor_toNat hc hr
  have hrun := execSetcur_inGrid ((cellInGrid_iff col row).mpr ⟨hc, hr⟩) s
  have hquiet := quiet_runActs_cmd (setColumnByte s.params col) [setRowByte s.params row]
    (s := (s.setCur ⟨BitVec.ofNat 4 col, BitVec.ofNat 3 row⟩).setSeq Seq.dead) h
  obtain ⟨hbusy, hseq, hsent⟩ := transmit_ready (setAddressActs s.params col row)
    (s.setCur ⟨BitVec.ofNat 4 col, BitVec.ofNat 3 row⟩) h
  have hcur := hsent.same.cur
  refine ⟨_, hrun, ⟨hbusy, hseq⟩, (congrArg (·.col.toNat) hcur).trans hcol, (congrArg (·.row.toNat) hcur).trans hrow,
    hsent.trace, fun hwf => ?_, hsent.dc, hquiet, hsent.peri, hsent.fault.trans (or_badcharBit_false _), hsent.line, ?_⟩
  · obtain ⟨hx, hy⟩ := addressBytes_eq_sum hwf hc hr
    rw [← hx, ← hy]
    exact hsent.trace
  · rw [hcur]
    exact hsent.same

/-- Settles O37: outside the grid the command only ends. -/
theorem setcurOutsideGridIsSilent : Obligations.SetcurOutsideGridIsSilent := by
  unfold Obligations.SetcurOutsideGridIsSilent
  intro s col row hout
  have hgrid : ¬ cellInGrid col row = true := by
    rw [cellInGrid_iff]
    omega
  exact ⟨finish s, execSetcur_offGrid hgrid s, ⟨rfl, rfl⟩, rfl, rfl, rfl, rfl, rfl, rfl, rfl, rfl,
    sameButTransport_finish s⟩

/-- A wait that has spent no poll yet gives up only under a bound of 0, which 00_scope.md R6 excludes. -/
theorem outOfPolls_setSeq_dead {s : State} (h : s.params.txTimeout ≠ some 0) :
    outOfPolls (s.setSeq Seq.dead) = false := by
  rw [Bool.eq_false_iff, ne_eq, outOfPolls_iff]
  rintro ⟨n, hn, hle⟩
  obtain rfl : n = 0 := Nat.le_zero.mp hle
  exact h hn

/-- A transmission whose first wait is unmet at the first poll sends nothing: it waits, or `TIMEOUT` ends it under a
bound of 0. -/
theorem transmit_notMet {acts : List Act} {c : Cond} {s : State} (hc : waitsFor acts = some c)
    (h : c.holds (nextLevel s) = false) :
    (transmit acts s).trace = s.trace ∧
      (s.params.txTimeout ≠ some 0 → (transmit acts s).busy = true ∧ (transmit acts s).fault = s.fault) := by
  unfold transmit
  rw [runActs_notMet (s := s.setSeq Seq.dead) hc h]
  refine ⟨by split <;> rfl, fun htx => ?_⟩
  rw [outOfPolls_setSeq_dead htx]
  exact ⟨rfl, rfl⟩

/-- The three commands that tell the device an address place the cursor, then send, the column command first. -/
theorem exec_addressing {i : Instr} {col row : Nat} (hc : col ≤ 11) (hr : row ≤ 5)
    (hi : i = .setcur col row ∨ ((i = .flush ∨ i = .fullimg) ∧ col = 0 ∧ row = 0)) (s : State) :
    ∃ rest, exec i s = .next (transmit (.cmd (setColumnByte s.params col) :: rest)
      (s.setCur ⟨BitVec.ofNat 4 col, BitVec.ofNat 3 row⟩)) := by
  rcases hi with rfl | ⟨rfl | rfl, rfl, rfl⟩
  · exact ⟨_, execSetcur_inGrid ((cellInGrid_iff col row).mpr ⟨hc, hr⟩) s⟩
  · exact ⟨_, rfl⟩
  · exact ⟨_, rfl⟩

/-- Settles O38: the first step is a command byte, whose wait for `busy = 0` is not met. -/
theorem cursorMovesBeforeSending : Obligations.CursorMovesBeforeSending := by
  unfold Obligations.CursorMovesBeforeSending
  intro s i col row hc hr hi hbusy
  obtain ⟨hcol, hrow⟩ := cursor_toNat hc hr
  obtain ⟨rest, hrun⟩ := exec_addressing hc hr hi s
  have hwait : Cond.quiescent.holds (nextLevel s) = false := by
    unfold Cond.holds
    rw [hbusy]
    rfl
  have hcur := (sameButTransport_transmit (.cmd (setColumnByte s.params col) :: rest)
    (s.setCur ⟨BitVec.ofNat 4 col, BitVec.ofNat 3 row⟩)).cur
  obtain ⟨htrace, hkept⟩ := transmit_notMet (acts := .cmd (setColumnByte s.params col) :: rest)
    (s := s.setCur ⟨BitVec.ofNat 4 col, BitVec.ofNat 3 row⟩) rfl hwait
  exact ⟨_, hrun, (congrArg (·.col.toNat) hcur).trans hcol, (congrArg (·.row.toNat) hcur).trans hrow, htrace, hkept⟩

/-! ### The picture and the sending commands (R160, 44_session.md R170, R172) -/

/-- A run that sends no byte of `FB` does not look at it, does not write it, and leaves no such byte to send. -/
theorem runActs_ignores_fb {acts : List Act} (h : ∀ a ∈ acts, a.readsFb = false) (s : State) (f : Vector Byte 504) :
    runActs acts (s.setFb f) = (runActs acts s).setFb f ∧ (runActs acts s).fb = s.fb ∧
      ∀ a ∈ (runActs acts s).seq.work, a.readsFb = false := by
  refine ⟨(bystander_setFb f).runActs acts s fun ⟨a, ha, hreads⟩ => ?_, (sameButTransport_runActs acts s).fb,
    left_runActs (P := fun a => a.readsFb = false) rfl (fun _ => rfl) h s⟩
  rw [h a ha] at hreads
  contradiction

/-- So does the block going on, idle or not. -/
theorem resume_ignores_fb {s : State} (h : ∀ a ∈ s.seq.work, a.readsFb = false) (f : Vector Byte 504) :
    resume (s.setFb f) = (resume s).setFb f ∧ (resume s).fb = s.fb ∧
      ∀ a ∈ (resume s).seq.work, a.readsFb = false := by
  cases hb : s.busy with
  | true =>
    rw [resume_busy hb, resume_busy (s := s.setFb f) hb]
    exact runActs_ignores_fb h s f
  | false =>
    rw [resume_idle hb, resume_idle (s := s.setFb f) hb]
    exact ⟨rfl, rfl, h⟩

/-- Settles O48: what such a command runs, and what it has still to do, sends no byte of `FB`. -/
theorem sendingIgnoresPicture : Obligations.SendingIgnoresPicture := by
  unfold Obligations.SendingIgnoresPicture
  refine ⟨fun i s t f hi hflush ht => ?_, fun s t q f hgo hwork ht => ?_⟩
  · obtain ⟨acts, q, c, hrun, -, -, -, hreads, -⟩ := exec_sending hi s
    obtain rfl : runActs acts ((s.setCur c).setSeq q) = t := by simpa [hrun s rfl rfl rfl rfl] using ht
    obtain ⟨hsame, hfb, hleft⟩ := runActs_ignores_fb (hreads hflush) ((s.setCur c).setSeq q) f
    exact ⟨(hrun (s.setFb f) rfl rfl rfl rfl).trans (congrArg _ hsame), hfb, hleft⟩
  · obtain rfl : resume (s.setInputs q) = t := by simpa [step_goesOn hgo] using ht
    have hgo' : GoesOn (s.setFb f) q := by
      unfold GoesOn
      rw [nextInput_congr (s := s) (t := s.setFb f) rfl rfl rfl]
      exact hgo
    obtain ⟨hsame, hfb, hleft⟩ := resume_ignores_fb (s := s.setInputs q) hwork f
    exact ⟨(step_goesOn hgo').trans (congrArg _ hsame), hfb, hleft⟩

end Sys2Proof.Machine
end

section
/-! PROOFS. The session commands (44_session.md): `INIT`, `FLUSH` and `FULLIMG` on a ready transport. -/

namespace Sys2Proof.Machine

/-! ### Steps of one event each -/

/-- On a ready transport the step takes `n` polls, sends the one event `e` and meets no invalid character. -/
structure Act.SendsOne (s : State) (n : Nat) (e : Event) (a : Act) : Prop where
  polls : a.polls s = n
  events : a.events s = [e]
  good : a.bad s = false

theorem sendsOne_cmd (s : State) (b : Byte) : Act.SendsOne s 2 (.C b) (.cmd b) := ⟨rfl, rfl, rfl⟩

theorem sendsOne_fbByte (s : State) (i : Nat) : Act.SendsOne s 1 (.D (fbRead s i)) (.fbByte i) := ⟨rfl, rfl, rfl⟩

theorem sendsOne_resByte (s : State) (a : Word) : Act.SendsOne s 1 (.D (resRead s a)) (.resByte a) := ⟨rfl, rfl, rfl⟩

/-- A list of such steps takes `n` polls for each and sends the events in order. -/
theorem map_sendsOne {α : Type} {s : State} {n : Nat} {e : α → Event} {f : α → Act}
    (hf : ∀ x, Act.SendsOne s n (e x) (f x)) (l : List α) :
    ((l.map f).map (Act.polls s)).sum = n * l.length ∧ (l.map f).flatMap (Act.events s) = l.map e ∧
      (l.map f).any (Act.bad s) = false := by
  refine ⟨?_, ?_, ?_⟩
  · simp [Function.comp_def, (hf _).polls, Nat.mul_comm]
  · simp only [List.flatMap_map, (hf _).events]
    exact List.map_eq_flatMap.symm
  · simp [(hf _).good]

/-! ### INIT (R170) -/

/-- The script's bytes as command steps: two polls each. -/
theorem transmit_init_ready {s : State} (h : AlwaysReady s) :
    Ended (transmit (.pulse :: s.params.initScript.map Act.cmd) s) ∧
      Sent s (transmit (.pulse :: s.params.initScript.map Act.cmd) s) (1 + 2 * s.params.initScript.length)
        (.RSTP :: s.params.initScript.map Event.C) false := by
  obtain ⟨hbusy, hseq, hsent⟩ := transmit_ready (.pulse :: s.params.initScript.map Act.cmd) s h
  obtain ⟨hpolls, hevents, hgood⟩ := map_sendsOne (sendsOne_cmd s) s.params.initScript
  rw [List.map_cons, List.sum_cons, hpolls, List.flatMap_cons, hevents, List.any_cons, hgood] at hsent
  exact ⟨⟨hbusy, hseq⟩, hsent⟩

/-- Settles O39: the pulse, which leaves `LCDRST` released, then the script. -/
theorem initSendsScript : Obligations.InitSendsScript := by
  unfold Obligations.InitSendsScript
  intro s h
  obtain ⟨hend, hsent⟩ := transmit_init_ready h
  exact ⟨_, rfl, hend, hsent.trace, hsent.line.trans (lineStep_released _),
    hsent.fault.trans (or_badcharBit_false _), hsent.peri, hsent.same⟩

/-! ### FLUSH and FULLIMG (R171, R172) -/

/-- The steps of an image command: the two address commands of the cell (0,0), then a step for each index in `l`. -/
def imageActs (p : Params) (f : Nat → Act) (l : List Nat) : List Act :=
  setAddressActs p 0 0 ++ l.map f

/-- The address bytes of the cell (0,0) are the bases themselves. -/
theorem imageActs_eq (p : Params) (f : Nat → Act) (l : List Nat) :
    imageActs p f l = [p.setxBase, p.setyBase].map Act.cmd ++ l.map f := by
  have hcol : setColumnByte p 0 = p.setxBase := BitVec.or_zero
  have hrow : setRowByte p 0 = p.setyBase := BitVec.or_zero
  unfold imageActs setAddressActs
  rw [hcol, hrow]
  rfl

theorem exec_flush (s : State) :
    exec .flush s = .next (transmit (imageActs s.params .fbByte (List.range 504)) (s.setCur ⟨0, 0⟩)) := rfl

theorem exec_fullimg (s : State) :
    exec .fullimg s = .next (transmit (imageActs s.params (fun i => .resByte (resAddr s.argl i)) (List.range 504))
      (s.setCur ⟨0, 0⟩)) := rfl

theorem imageActs_noPulse (p : Params) {f : Nat → Act} (hf : ∀ i, (f i).isPulse = false) (l : List Nat) :
    ∀ a ∈ imageActs p f l, a.isPulse = false := by
  rw [imageActs_eq]
  exact List.forall_mem_append.mpr
    ⟨List.forall_mem_map.mpr fun _ _ => rfl, List.forall_mem_map.mpr fun i _ => hf i⟩

/-- An image whose steps send one data byte each, the transport always ready: four polls for the two address commands,
one for each byte. -/
theorem transmit_image_ready {p : Params} {f : Nat → Act} {b : Nat → Byte} {s : State}
    (hf : ∀ i, Act.SendsOne s 1 (.D (b i)) (f i)) (l : List Nat) (h : AlwaysReady s) :
    Ended (transmit (imageActs p f l) s) ∧
      Sent s (transmit (imageActs p f l) s) (4 + l.length)
        (.C p.setxBase :: .C p.setyBase :: l.map fun i => .D (b i)) false := by
  obtain ⟨hbusy, hseq, hsent⟩ := transmit_ready (imageActs p f l) s h
  obtain ⟨haddrPolls, haddrEvents, haddrGood⟩ := map_sendsOne (sendsOne_cmd s) [p.setxBase, p.setyBase]
  obtain ⟨hpolls, hevents, hgood⟩ := map_sendsOne hf l
  refine ⟨⟨hbusy, hseq⟩, ?_⟩
  rw [imageActs_eq] at hsent ⊢
  rw [List.map_append, List.sum_append, haddrPolls, hpolls, Nat.one_mul, List.flatMap_append, haddrEvents, hevents,
    List.any_append, haddrGood, hgood] at hsent
  exact hsent

/-- The image commands on a ready transport, from the state with the cursor already home. -/
theorem image_spec {f : Nat → Act} {b : Nat → Byte} {s t : State}
    (ht : transmit (imageActs s.params f (List.range 504)) (s.setCur ⟨0, 0⟩) = t)
    (hf : ∀ i, Act.SendsOne (s.setCur ⟨0, 0⟩) 1 (.D (b i)) (f i)) (hpulse : ∀ i, (f i).isPulse = false)
    (h : AlwaysReady s) :
    Ended t ∧ t.cur = ⟨0, 0⟩ ∧
      t.trace = s.trace ++ (.C s.params.setxBase :: .C s.params.setyBase :: (List.range 504).map fun i => .D (b i)) ∧
      t.fault = s.fault ∧ t.lcdrst = s.lcdrst ∧ t.peri = spendPolls 508 s.peri ∧
      SameButTransport (s.setCur ⟨0, 0⟩) t := by
  obtain ⟨hend, hsent⟩ := transmit_image_ready (p := s.params) hf (List.range 504) (s := s.setCur ⟨0, 0⟩) h
  have hline := transmit_keeps_lcdrst (imageActs_noPulse s.params hpulse (List.range 504)) (s.setCur ⟨0, 0⟩)
  rw [List.length_range] at hsent
  rw [ht] at hend hsent hline
  exact ⟨hend, hsent.same.cur, hsent.trace, hsent.fault.trans (or_badcharBit_false _), hline, hsent.peri, hsent.same⟩

/-- Settles O40: moving the cursor leaves `FB` as it is, so its bytes are those before the command. -/
theorem flushSendsPicture : Obligations.FlushSendsPicture := by
  unfold Obligations.FlushSendsPicture
  intro s h
  exact ⟨_, exec_flush s, image_spec rfl (sendsOne_fbByte (s.setCur ⟨0, 0⟩)) (fun _ => rfl) h⟩

/-- Settles O41: the bytes of `RES` at the sums of `resAddr`, which wrap. -/
theorem fullimgSendsImage : Obligations.FullimgSendsImage := by
  unfold Obligations.FullimgSendsImage
  intro s h
  have hbyte : ∀ i, Act.SendsOne (s.setCur ⟨0, 0⟩) 1 (.D (Memory.read s.res ((s.argl.toNat + i) % 2 ^ 32)))
      (.resByte (resAddr s.argl i)) := fun i =>
    resRead_resAddr (s.setCur ⟨0, 0⟩) s.argl i ▸ sendsOne_resByte (s.setCur ⟨0, 0⟩) _
  exact ⟨_, exec_fullimg s, image_spec rfl hbyte (fun _ => rfl) h⟩

end Sys2Proof.Machine
end

section
/-! PROOFS. The hang of 60_exceptions.md R189: a state that hangs steps to a state that hangs, and of the machine only the
polls and `TOC` move. -/

namespace Sys2Proof.Machine

/-! ### A held host (10_state.md R32) -/

/-- Where only the host acts, no input of the platform passes a held write. -/
theorem firstPlatform_eq_none {l : List Input} (h : ∀ a ∈ l, a.isHost = true) : firstPlatform l = none := by
  induction l with
  | nil => rfl
  | cons a rest ih =>
    obtain ⟨ha, hrest⟩ := List.forall_mem_cons.mp h
    rw [firstPlatform, if_pos ha, ih hrest]
    rfl

/-- A busy block in front of a host that only issues commands takes no input. -/
theorem nextInput_busy_issues {s : State} (hb : s.busy = true) (hin : ∀ a ∈ s.inputs, ∃ w, a = .write 0x00 4 w) :
    nextInput s = none := by
  cases hi : s.inputs with
  | nil => exact nextInput_nil hi
  | cons a rest =>
    rw [hi] at hin
    obtain ⟨⟨w, rfl⟩, hrest⟩ := List.forall_mem_cons.mp hin
    have hhost : ∀ a ∈ rest, a.isHost = true := fun a ha => by
      obtain ⟨w', rfl⟩ := hrest a ha
      rfl
    rw [nextInput_held hi (holds_issue (.inl hb) w), firstPlatform_eq_none hhost]
    rfl

/-! ### The hang (60_exceptions.md R189) -/

/-- The command waits for a level that never comes, without a timeout, and the host only issues commands. -/
structure Hangs (c : Cond) (s : State) : Prop where
  busy : s.busy = true
  waits : waitsFor s.seq.work = some c
  unbounded : s.params.txTimeout = none
  polls : ∀ l ∈ s.peri.polls, c.holds l = false
  steady : c.holds s.peri.steady = false
  issues : ∀ a ∈ s.inputs, ∃ w, a = .write 0x00 4 w

/-- The next poll is answered from the list, or by the steady level. -/
theorem Hangs.unmet {c : Cond} {s : State} (h : Hangs c s) : c.holds (nextLevel s) = false := by
  unfold nextLevel
  cases hp : s.peri.polls with
  | nil => exact h.steady
  | cons l ls => exact h.polls l (hp ▸ List.mem_cons_self)

theorem Hangs.notOutOfPolls {c : Cond} {s : State} (h : Hangs c s) : outOfPolls s = false := by
  unfold outOfPolls
  rw [h.unbounded]

/-- The state after one more unmet poll of the command's wait. -/
def stillWaiting (s : State) : State := suspend s.seq.work (setToc (s.seq.toc + 1) (polled s))

theorem sameButTransport_stillWaiting (s : State) : SameButTransport s (stillWaiting s) := by constructor <;> rfl

/-- The held writes stay, so the step is the poll, which is unmet. -/
theorem Hangs.step_eq {c : Cond} {s : State} (h : Hangs c s) : step s = .next (stillWaiting s) := by
  rw [step_none (nextInput_busy_issues h.busy h.issues), resume_busy h.busy, runActs_notMet h.waits h.unmet,
    h.notOutOfPolls]
  rfl

/-- A poll only shortens the list of unready answers. -/
theorem hangs_stillWaiting {c : Cond} {s : State} (h : Hangs c s) : Hangs c (stillWaiting s) where
  busy := rfl
  waits := h.waits
  unbounded := h.unbounded
  polls l hl := h.polls l (List.mem_of_mem_tail hl)
  steady := h.steady
  issues := h.issues

/-- However long it runs, the hang goes on: nothing is sent, no fault recorded. -/
theorem Hangs.run {c : Cond} {s : State} (h : Hangs c s) (k : Nat) :
    ∃ t, core.run k s = .next t ∧ Hangs c t ∧ t.trace = s.trace ∧ t.fault = s.fault ∧ SameButTransport s t := by
  induction k generalizing s with
  | zero => exact ⟨s, rfl, h, rfl, rfl, .refl s⟩
  | succ k ih =>
    obtain ⟨t, hrun, hhangs, htrace, hfault, hsame⟩ := ih (hangs_stillWaiting h)
    exact ⟨t, (run_succ k h.step_eq).trans hrun, hhangs, htrace, hfault, (sameButTransport_stillWaiting s).trans hsame⟩

/-- Settles O25: the state hangs after any number of steps, and the inputs are not of the transport side. -/
theorem hangNeverEnds : Obligations.HangNeverEnds := by
  unfold Obligations.HangNeverEnds
  intro s c k hb hwaits htx hpolls hsteady hin
  obtain ⟨t, hrun, hhangs, htrace, hfault, hsame⟩ := Hangs.run ⟨hb, hwaits, htx, hpolls, hsteady, hin⟩ k
  exact ⟨t, hrun, hhangs.busy, hsame.inputs, htrace, hfault, hsame⟩

end Sys2Proof.Machine
end

section
/-! PROOFS. The ends: a command on a ready transport ends, and after the end of a run only a reset touches the block
(70_reset_and_hazards.md R215, R216). -/

namespace Sys2Proof.Machine

/-! ### The end of a command (70_reset_and_hazards.md R215) -/

/-- A piece of a command raises `BADCHAR` at most. -/
theorem Sent.timeout {s t : State} {n : Nat} {ev : List Event} {b : Bool} (h : Sent s t n ev b) :
    t.fault.timeout = s.fault.timeout := by
  rw [h.fault]
  exact Bool.or_false _

/-- Drawing polls nothing. -/
theorem Drawn.ready {s t : State} (h : Drawn s t) (hs : AlwaysReady s) : AlwaysReady t :=
  alwaysReady_congr hs 0 (h.peri.trans (spendPolls_zero _).symm)

/-- Settles O49: a drawing command ends at once, and a sending one runs its steps without an unmet poll. -/
theorem readyCommandsEnd : Obligations.ReadyCommandsEnd := by
  unfold Obligations.ReadyCommandsEnd
  intro i s hready
  cases hi : sendsNothing i with
  | true =>
    obtain ⟨t, hexec, hdrawn, -⟩ := exec_drawing hi s
    exact ⟨finish t, hexec, ⟨rfl, rfl⟩, hdrawn.timeout, hdrawn.ready hready⟩
  | false =>
    obtain ⟨acts, q, c, hexec, -⟩ := exec_sending hi s
    have hbegun : AlwaysReady ((s.setCur c).setSeq q) := hready
    obtain ⟨hbusy, hseq, hsent⟩ := runActs_ready acts _ hbegun
    exact ⟨_, hexec s rfl rfl rfl rfl, ⟨hbusy, hseq⟩, hsent.timeout, hsent.ready hbegun⟩

/-! ### The end of a run (70_reset_and_hazards.md R216) -/

/-- An ended run has no issue left to take. -/
theorem RunEnded.nextInput_not_issue {s : State} (h : RunEnded s) (w : Word) (q : List Input) :
    nextInput s ≠ some (.write 0x00 4 w, q) := by
  obtain ⟨hissues, -⟩ := h
  intro hnext
  obtain ⟨-, hmem, -⟩ := nextInput_spec hnext
  have hnot : (Input.write 0x00 4 w).isIssue = false := hissues _ hmem
  contradiction

/-- A step that leaves the block idle and brings no new issue keeps the end of the run. -/
theorem RunEnded.of_issues {s t : State} (h : RunEnded s)
    (hq : t.inputs.filter Input.isIssue = s.inputs.filter Input.isIssue) (hb : t.busy = false) : RunEnded t := by
  obtain ⟨hissues, -⟩ := h
  have hnone : s.inputs.filter Input.isIssue = [] := by simpa using hissues
  rw [hnone] at hq
  exact ⟨by simpa using hq, hb⟩

/-- What the host and the platform still do after the end of a run, a reset apart: they use up inputs, move the reset
input, place bytes in `RES`, read words and write `ARG`; every other field stays. -/
def OnlyEnvironment (s t : State) : Prop :=
  ∃ q level mem words a, t = ((((s.setInputs q).setRst level).setRes mem).setReads words).setArg a

/-- All that a step after the end of a run can be. -/
theorem RunEnded.step_cases {s t : State} (h : RunEnded s) (hstep : step s = .next t) :
    t.inputs.filter Input.isIssue = s.inputs.filter Input.isIssue ∧
      ((∃ q, nextInput s = some (.assertReset, q) ∧ t = resetBlock (s.setInputs q)) ∨ OnlyEnvironment s t) := by
  have ⟨_, hidle⟩ := h
  rcases Machine.step_cases hstep with ⟨q, hgo, rfl⟩ | ⟨q, hq, rfl⟩ | ⟨q, hq, rfl⟩ | ⟨a, b, q, hq, rfl⟩ |
    ⟨off, q, hq, -, -, rfl⟩ | ⟨off, v, q, hq, -, -, hne, rfl⟩ | ⟨w, q, hq, -⟩
  · rw [resume_idle (s := s.setInputs q) hidle]
    exact ⟨hgo.issues, .inr ⟨q, s.rst, s.res, s.reads, s.arg, rfl⟩⟩
  · exact ⟨issues_of_nextInput hq rfl, .inl ⟨q, hq, rfl⟩⟩
  · exact ⟨issues_of_nextInput hq rfl, .inr ⟨q, .released, s.res, s.reads, s.arg, rfl⟩⟩
  · exact ⟨issues_of_nextInput hq rfl, .inr ⟨q, s.rst, Memory.write s.res a.toNat b, s.reads, s.arg, rfl⟩⟩
  · exact ⟨issues_of_nextInput hq rfl, .inr ⟨q, s.rst, s.res, s.reads ++ [regRead off s], s.arg, rfl⟩⟩
  · have hissues := issues_of_nextInput hq (isIssue_write_of_ne hne 4 v)
    rw [regWrite_eq]
    split
    · exact ⟨hissues, .inr ⟨q, s.rst, s.res, s.reads, v, rfl⟩⟩
    · exact ⟨hissues, .inr ⟨q, s.rst, s.res, s.reads, s.arg, rfl⟩⟩
  · exact absurd hq (h.nextInput_not_issue w q)

/-- Settles O57: a step after the end of a run is a reset, which leaves the block idle, or concerns the host and the
platform only. -/
theorem runEndedIsFinal : Obligations.RunEndedIsFinal := by
  unfold Obligations.RunEndedIsFinal
  intro s t h hstep
  obtain ⟨hissues, ⟨q, hq, rfl⟩ | ⟨q, level, mem, words, a, rfl⟩⟩ := h.step_cases hstep
  · exact ⟨h.of_issues hissues (resetBlock_busy _), fun hn => absurd hq (hn q)⟩
  · have ⟨_, hidle⟩ := h
    exact ⟨h.of_issues hissues hidle, fun _ => ⟨rfl, rfl, rfl, rfl, rfl, rfl, rfl⟩⟩

end Sys2Proof.Machine
end
